-- ==== Sys2Proof/Word.lean ====
section
/-! DEFINITION. The plain types of the model: register values, bytes, instruction words, register numbers, characters of text. -/

namespace Sys2Proof

/-- A register value: 64 bits (10_state.md R20; 00_scope.md R8, R11). -/
abbrev Word := BitVec 64

/-- One cell of data memory: 8 bits (10_state.md R33). -/
abbrev Byte := BitVec 8

/-- A binary instruction: one 32-bit word (30_encoding.md R81). -/
abbrev InstWord := BitVec 32

/-- A register index 0..31 (10_state.md R20; 30_encoding.md R80). -/
abbrev Reg := Fin 32

/-- A piece of text: a token, a label name or a whole instruction line (30_encoding.md R102). -/
abbrev Text := List Char

end Sys2Proof
end

