-- ==== Sys2Proof/Config.lean ====
section
/-! DEFINITION. The parameters of 00_scope.md R9, with their defaults. No value of the spec is left undefined, so there is no free value here. -/

namespace Sys2Proof

/-- `UNKNOWN_OPCODE_POLICY` of 00_scope.md R9 (46_lui_and_unknown.md R222). -/
inductive UnknownOpcodePolicy where
  | strict
  | permissive
  deriving DecidableEq, Repr

/-- The implementation parameters of 00_scope.md R9. `PROG_LEN` is no field: it is the length of the loaded program. -/
structure Config where
  /-- `MEM_SIZE`, the capacity of data memory in bytes (D9). -/
  memSize : Nat := 400000
  /-- `DATA_BASE`, the first address of the data section (D10). -/
  dataBase : Nat := 0x10000
  /-- `X0_HARDWIRED`, whether register 0 reads 0 and discards writes (D7). -/
  x0Hardwired : Bool := false
  /-- `UNKNOWN_OPCODE_POLICY` (D8). -/
  unknownPolicy : UnknownOpcodePolicy := .strict
  deriving DecidableEq, Repr

/-- The defaults of 00_scope.md R9. -/
def Config.standard : Config := {}

/-- "A model must require `DATA_BASE <= MEM_SIZE`" (00_scope.md R9). -/
def Config.wf (c : Config) : Bool := decide (c.dataBase ≤ c.memSize)

end Sys2Proof
end

