-- ==== Sys2Proof/Syntax.lean ====
section
/-! DEFINITION. The decoded instruction of 30_encoding.md R80: one constructor per row of spec/opcode_table.json, and around them the alternatives Unknown and Malformed. -/

namespace Sys2Proof

/-- The 37 instructions (00_scope.md R2) with the operand fields of 30_encoding.md R80. `imm` and `off` are
64-bit values read as signed integers; they may exceed the binary fields, since the textual form has no range (R101). -/
inductive Instr where
  /-- `add` (40_alu_register.md R121). -/
  | add (rd rs1 rs2 : Reg)
  /-- `sub` (40_alu_register.md R122). -/
  | sub (rd rs1 rs2 : Reg)
  /-- `and` (40_alu_register.md R123). -/
  | and (rd rs1 rs2 : Reg)
  /-- `or` (40_alu_register.md R124). -/
  | or (rd rs1 rs2 : Reg)
  /-- `xor` (40_alu_register.md R125). -/
  | xor (rd rs1 rs2 : Reg)
  /-- `sll` (40_alu_register.md R126). -/
  | sll (rd rs1 rs2 : Reg)
  /-- `srl` (40_alu_register.md R127). -/
  | srl (rd rs1 rs2 : Reg)
  /-- `sra` (40_alu_register.md R128). -/
  | sra (rd rs1 rs2 : Reg)
  /-- `slt` (40_alu_register.md R129). -/
  | slt (rd rs1 rs2 : Reg)
  /-- `sltu` (40_alu_register.md R130). -/
  | sltu (rd rs1 rs2 : Reg)
  /-- `addi` (41_alu_immediate.md R141). -/
  | addi (rd rs1 : Reg) (imm : Word)
  /-- `andi` (41_alu_immediate.md R142). -/
  | andi (rd rs1 : Reg) (imm : Word)
  /-- `ori` (41_alu_immediate.md R143). -/
  | ori (rd rs1 : Reg) (imm : Word)
  /-- `xori` (41_alu_immediate.md R144). -/
  | xori (rd rs1 : Reg) (imm : Word)
  /-- `slli` (41_alu_immediate.md R145). -/
  | slli (rd rs1 : Reg) (imm : Word)
  /-- `srli` (41_alu_immediate.md R146). -/
  | srli (rd rs1 : Reg) (imm : Word)
  /-- `srai` (41_alu_immediate.md R147). -/
  | srai (rd rs1 : Reg) (imm : Word)
  /-- `ld` (42_loads.md R161). -/
  | ld (rd rs1 : Reg) (off : Word)
  /-- `lw` (42_loads.md R162). -/
  | lw (rd rs1 : Reg) (off : Word)
  /-- `lh` (42_loads.md R163). -/
  | lh (rd rs1 : Reg) (off : Word)
  /-- `lb` (42_loads.md R164). -/
  | lb (rd rs1 : Reg) (off : Word)
  /-- `lwu` (42_loads.md R165). -/
  | lwu (rd rs1 : Reg) (off : Word)
  /-- `lhu` (42_loads.md R166). -/
  | lhu (rd rs1 : Reg) (off : Word)
  /-- `lbu` (42_loads.md R167). -/
  | lbu (rd rs1 : Reg) (off : Word)
  /-- `sd` (43_stores.md R181). -/
  | sd (rs2 rs1 : Reg) (off : Word)
  /-- `sw` (43_stores.md R182). -/
  | sw (rs2 rs1 : Reg) (off : Word)
  /-- `sh` (43_stores.md R183). -/
  | sh (rs2 rs1 : Reg) (off : Word)
  /-- `sb` (43_stores.md R184). -/
  | sb (rs2 rs1 : Reg) (off : Word)
  /-- `beq` (44_branches.md R191). -/
  | beq (rs1 rs2 : Reg) (off : Word)
  /-- `bne` (44_branches.md R192). -/
  | bne (rs1 rs2 : Reg) (off : Word)
  /-- `blt` (44_branches.md R193). -/
  | blt (rs1 rs2 : Reg) (off : Word)
  /-- `bge` (44_branches.md R194). -/
  | bge (rs1 rs2 : Reg) (off : Word)
  /-- `bgeu` (44_branches.md R195). -/
  | bgeu (rs1 rs2 : Reg) (off : Word)
  /-- `bltu` (44_branches.md R196). -/
  | bltu (rs1 rs2 : Reg) (off : Word)
  /-- `jal` (45_jumps.md R211). -/
  | jal (rd : Reg) (off : Word)
  /-- `jalr` (45_jumps.md R212). -/
  | jalr (rd rs1 : Reg) (off : Word)
  /-- `lui` (46_lui_and_unknown.md R220). -/
  | lui (rd : Reg) (imm : Word)
  deriving DecidableEq, Repr

/-- One element of the program store as it was handed over: a 32-bit word (30_encoding.md R81) or a text line
already stripped of labels and directives (10_state.md R30). -/
inductive Source where
  | word (w : InstWord)
  | text (line : Text)
  deriving DecidableEq, Repr

/-- The causes of a `Malformed` element (30_encoding.md R80, R104 to R107). -/
inductive MalformedCause where
  | immediate
  | register
  | target
  deriving DecidableEq, Repr

/-- What a decoder delivers (30_encoding.md R80): one of the 37 instructions, `Unknown(raw)` or `Malformed(cause, raw)`. -/
inductive Decoded where
  | instr (i : Instr)
  | unknown (raw : Source)
  | malformed (cause : MalformedCause) (raw : Text)
  deriving DecidableEq, Repr

/-- The label table: names with instruction indexes (10_state.md R31). -/
abbrev LabelTable := List (Text × Nat)

end Sys2Proof
end

