-- ==== Sys2Proof/Machine/State.lean ====
section
/-! DEFINITION. The state of the machine (10_state.md), as plain data, the seven faults (60_exceptions.md R260) and the state after reset (70_reset_and_hazards.md R291). -/

namespace Sys2Proof.Machine

/-- Data memory: (address, byte) pairs, addresses strictly rising, no byte equal to what an unlisted address reads as. -/
abbrev Memory := List Host.Cell

/-- The faults an execution cycle can raise, each with the info its report records (60_exceptions.md R260). All are the
spec's own faults: they stop the run, and no register, byte or pc is changed (R266). Safe: the spec stops there too. -/
inductive Fault where
  /-- Code 1, raised by the seven loads and the four stores: the n-byte access at `ea` is not wholly inside memory
  (R261; 20_memory.md R54). Safe. -/
  | memoryBounds (ea : Word) (n : Nat)
  /-- Code 2, raised by an `Unknown` element under the strict policy (R262; 46_lui_and_unknown.md R222). Safe. -/
  | unknownOpcode (raw : Source)
  /-- Code 3, raised by executing a malformed immediate, offset or surplus token of the textual form (R263). Safe. -/
  | malformedImmediate (raw : Text)
  /-- Code 4, raised by executing a text line with an unknown register name (R264). Safe. -/
  | unknownRegister (raw : Text)
  /-- Code 5, raised by executing a branch or `jal` whose target is neither a label nor a literal (R265). Safe. -/
  | unresolvedTarget (raw : Text)
  /-- Code 6, raised by fetch when `pc[1:0]` is not 0 (10_state.md R27). Safe. -/
  | pcMisaligned (pc : Word)
  /-- Code 7, raised by fetch when bit 63 of pc is set (10_state.md R27). Safe. -/
  | pcOutOfRange (pc : Word)
  deriving DecidableEq, Repr

/-- What the model refuses. The spec refuses nothing at the decoded level (00_scope.md R17), and every instruction of
the table has its meaning, so no step of this model raises one. -/
inductive Refusal where
  /-- An instruction whose arm in `exec` has no meaning yet; no arm raises it. Safe. -/
  | notModelled (mnemonic : String)
  deriving DecidableEq, Repr

/-- The report of a fault, `(cause, pc, instr, info)` (60_exceptions.md R260): the cause with its info, the pc, and the
offending element of the program store, absent for a fetch fault. -/
structure FaultReport where
  cause : Fault
  pc : Word
  instr : Option Source
  deriving DecidableEq, Repr

/-- The state of the machine: the fields of 10_state.md R20, R26, R30, R31, R33, R34 and R37, and the parameters of
00_scope.md R9 beside them (log entry 1). -/
structure State where
  /-- The parameters of 00_scope.md R9; nothing changes them. -/
  cfg : Config
  /-- x[0] .. x[31] (R20). -/
  regs : Vector Word 32
  /-- The program counter (R26). -/
  pc : Word
  /-- The program store (R30); its length is `PROG_LEN`. -/
  prog : List Source
  /-- The label table (R31). -/
  labels : LabelTable
  /-- Data memory (R33). -/
  mem : Memory
  /-- The breakpoint set (R34), strictly rising. -/
  breakpoints : List Nat
  /-- The fault latch (R37). -/
  flt : Option FaultReport
  deriving DecidableEq, Repr

/-- `PROG_LEN` (00_scope.md R9; 10_state.md R30). -/
def State.progLen (s : State) : Nat := s.prog.length

/-- The power-on state, that of a successful load of the empty program (70_reset_and_hazards.md R291), with the default
parameters of 00_scope.md R9. -/
def State.reset : State where
  cfg := Config.standard
  regs := Vector.replicate 32 0
  pc := 0
  prog := []
  labels := []
  mem := []
  breakpoints := []
  flt := none

end Sys2Proof.Machine
end

