-- ==== Sys2Proof/Machine/Ops.lean ====
section
/-! DEFINITION. The named operations over memory, registers and pc, and taking a fault (20_memory.md; 10_state.md; 60_exceptions.md R266). -/

namespace Sys2Proof.Machine

/-! ## Memory as a flat array of bytes (10_state.md R33) -/

/-- What an unlisted address reads as: after a load every byte outside the data image is 0 (10_state.md R39). -/
def Memory.unlisted : Byte := 0

/-- The byte at an address. -/
def Memory.read : Memory → Nat → Byte
  | [], _ => Memory.unlisted
  | (k, v) :: rest, a => if k = a then v else Memory.read rest a

/-- Memory with one byte replaced, in canonical form again. -/
def Memory.write : Memory → Nat → Byte → Memory
  | [], a, b => if b = Memory.unlisted then [] else [(a, b)]
  | (k, v) :: rest, a, b =>
    if a < k then (if b = Memory.unlisted then (k, v) :: rest else (a, b) :: (k, v) :: rest)
    else if a = k then (if b = Memory.unlisted then rest else (a, b) :: rest)
    else (k, v) :: Memory.write rest a b

/-- The canonical form: addresses strictly rising, no entry equal to what an unlisted address reads as. -/
def Memory.wf : Memory → Bool
  | [] => true
  | (k, v) :: rest => (v != Memory.unlisted) && rest.all (fun c => decide (k < c.1)) && Memory.wf rest

/-- Every listed address is below the bound. -/
def Memory.within (m : Memory) (bound : Nat) : Bool := m.all (fun c => decide (c.1 < bound))

/-- `sum over k in 0..n-1 of mem[a+k] * 2^(8k)` (20_memory.md R51, R52). -/
def Memory.readLE (m : Memory) (a : Nat) : Nat → Nat
  | 0 => 0
  | n + 1 => Memory.readLE m a n + (Memory.read m (a + n)).toNat * 2 ^ (8 * n)

/-- Byte k of a value, `v[8k+7:8k]` (20_memory.md R51). -/
def byteOf (v : Word) (k : Nat) : Byte := v.extractLsb' (8 * k) 8

/-- `mem[a+k] <- v[8k+7:8k]` for each k in 0..n-1 (20_memory.md R51, R53). -/
def Memory.writeLE (m : Memory) (a : Nat) (v : Word) : Nat → Memory
  | 0 => m
  | n + 1 => Memory.write (Memory.writeLE m a v n) (a + n) (byteOf v n)

/-! ## Bounds-checked access -/

/-- `0 <= s(a)` and `s(a) + n <= MEM_SIZE`, in the integers (20_memory.md R54). -/
def State.inBounds (s : State) (a : Word) (n : Nat) : Bool :=
  decide (0 ≤ a.toInt) && decide (a.toInt + n ≤ s.cfg.memSize)

/-- The byte of data memory at an address. -/
def State.readByte (s : State) (a : Nat) : Byte := Memory.read s.mem a

/-- `MemRead(a, n)` (20_memory.md R52). In bounds, bit 63 of `a` is clear, so `s(a)` is `a.toNat`. -/
def State.memRead (s : State) (a : Word) (n : Nat) : Except Fault (BitVec (8 * n)) :=
  if s.inBounds a n then .ok (BitVec.ofNat (8 * n) (Memory.readLE s.mem a.toNat n))
  else .error (.memoryBounds a n)

/-- `MemWrite(a, n, v)` (20_memory.md R53): all of the bytes or none. -/
def State.memWrite (s : State) (a : Word) (n : Nat) (v : Word) : Except Fault State :=
  if s.inBounds a n then .ok { s with mem := Memory.writeLE s.mem a.toNat v n }
  else .error (.memoryBounds a n)

/-! ## Registers (10_state.md R22 to R24) -/

/-- The register is hard-wired: register 0 under `X0_HARDWIRED` (R22). -/
def State.hardwired (s : State) (r : Reg) : Bool := s.cfg.x0Hardwired && decide (r = 0)

/-- `x[r]` (R23). -/
def State.readReg (s : State) (r : Reg) : Word := if s.hardwired r then 0 else s.regs[r]

/-- `x[r] <- v` (R24). -/
def State.writeReg (s : State) (r : Reg) (v : Word) : State :=
  if s.hardwired r then s else { s with regs := s.regs.set r v }

/-! ## The program counter (10_state.md R28, R29) -/

/-- `pc <- t`. -/
def State.setPc (s : State) (t : Word) : State := { s with pc := t }

/-- The address of the next instruction in order, `pc + 4` modulo 2^64; also the link value of a jump. -/
def State.nextPc (s : State) : Word := s.pc + 4

/-- `pc <- pc + 4`: every instruction that does not redirect pc. -/
def State.advance (s : State) : State := s.setPc s.nextPc

/-! ## Fetch (10_state.md R27) -/

/-- The four cases of R27. -/
inductive Fetched where
  | outOfRange
  | misaligned
  | endOfProgram
  | element (src : Source)
  deriving DecidableEq, Repr

/-- Classify pc, in the order of 10_state.md R27 (60_exceptions.md R268). -/
def State.fetch (s : State) : Fetched :=
  if s.pc.toInt < 0 then .outOfRange
  else if s.pc.extractLsb' 0 2 ≠ 0 then .misaligned
  else
    match s.prog[s.pc.toNat / 4]? with
    | none => .endOfProgram
    | some src => .element src

/-! ## Faults (60_exceptions.md) -/

/-- The numeric code of a fault (R260). -/
def faultCode : Fault → Nat
  | .memoryBounds _ _ => 1
  | .unknownOpcode _ => 2
  | .malformedImmediate _ => 3
  | .unknownRegister _ => 4
  | .unresolvedTarget _ => 5
  | .pcMisaligned _ => 6
  | .pcOutOfRange _ => 7

/-- The fault a `Malformed` element raises (46_lui_and_unknown.md R224). -/
def malformedFault (cause : MalformedCause) (raw : Text) : Fault :=
  match cause with
  | .immediate => .malformedImmediate raw
  | .register => .unknownRegister raw
  | .target => .unresolvedTarget raw

/-- The report of a fault raised in a state: faults are precise, so pc and the fetched element are still those of the
faulting cycle; a fetch fault has no element (R260, R266). -/
def State.faultReport (s : State) (f : Fault) : FaultReport where
  cause := f
  pc := s.pc
  instr :=
    match s.fetch with
    | .element src => some src
    | _ => none

/-- Taking a fault (R266), the one shared operation: no register, byte or pc changes; the latch takes the report if it
is `none` and keeps its first value otherwise (10_state.md R37). There is no return from a fault (R270): only a load
clears the latch. -/
def State.takeFault (s : State) (f : Fault) : State :=
  match s.flt with
  | none => { s with flt := some (s.faultReport f) }
  | some _ => s

/-! ## Placing an element where the next fetch reads it -/

/-- The list with its element at an index replaced; a list too short is filled up with the word 0, which is
`Unknown` (30_encoding.md R98). -/
def placeAt : List Source → Nat → Source → List Source
  | [], 0, x => [x]
  | [], n + 1, x => .word 0 :: placeAt [] n x
  | _ :: ys, 0, x => x :: ys
  | y :: ys, n + 1, x => y :: placeAt ys n x

/-- The state with an element in the slot the next fetch reads; where pc addresses no slot (R27 cases 1 and 2), pc is
first set to the entry point 0 (70_reset_and_hazards.md R292). -/
def State.placeSource (s : State) (src : Source) : State :=
  let p : Word := if s.pc.toInt < 0 ∨ s.pc.extractLsb' 0 2 ≠ 0 then 0 else s.pc
  { s with pc := p, prog := placeAt s.prog (p.toNat / 4) src }

end Sys2Proof.Machine
end

