-- ==== Sys2Proof/Machine/Operands.lean ====
section
/-! DEFINITION. Every operand form of the 37 instructions: effective address, shift amount, 32-bit operand, branch and jump targets. -/

namespace Sys2Proof.Machine

/-- The effective address `x[rs1] + off` modulo 2^64 (20_memory.md R56); the base register is never modified. -/
def State.effectiveAddress (s : State) (rs1 : Reg) (off : Word) : Word := s.readReg rs1 + off

/-- The low 5 bits of a shift source, register or immediate (40_alu_register.md R126, R131; 41_alu_immediate.md R145). -/
def shiftAmount (v : Word) : Nat := (v.extractLsb' 0 5).toNat

/-- The low 32 bits of an operand, which `srl`, `srli` and `sltu` take as unsigned (40_alu_register.md R127, R130). -/
def low32 (v : Word) : BitVec 32 := v.extractLsb' 0 32

/-- The target `pc + off` of a branch or `jal` (44_branches.md R190; 45_jumps.md R211). -/
def State.relativeTarget (s : State) (off : Word) : Word := s.pc + off

/-- The target `(x[rs1] + off) & ~1` of `jalr` (45_jumps.md R212). -/
def State.jalrTarget (s : State) (rs1 : Reg) (off : Word) : Word := (s.readReg rs1 + off) &&& ~~~1

/-! The results of the arithmetic and logic instructions, as functions of their two 64-bit operands. -/

/-- `sll`, `slli`: a 64-bit shift (40_alu_register.md R126). -/
def shiftLeft (a b : Word) : Word := a <<< shiftAmount b

/-- `srl`, `srli`: `zext_64( a[31:0] >>u sh )` (40_alu_register.md R127, decision D14). -/
def shiftRightLogical32 (a b : Word) : Word := (low32 a >>> shiftAmount b).setWidth 64

/-- `sra`, `srai`: a 64-bit arithmetic shift (40_alu_register.md R128). -/
def shiftRightArithmetic (a b : Word) : Word := a.sshiftRight (shiftAmount b)

/-- `lui`: `imm << 12`, not sign-extended (46_lui_and_unknown.md R220, decision D6). -/
def upperImmediate (imm : Word) : Word := imm <<< 12

/-! The two extensions of a value read (42_loads.md R168; 00_scope.md R12). -/

/-- `sext_64`. -/
def signExtended {w : Nat} (v : BitVec w) : Word := v.signExtend 64

/-- `zext_64`. -/
def zeroExtended {w : Nat} (v : BitVec w) : Word := v.setWidth 64

end Sys2Proof.Machine
end

