-- ==== Sys2Proof/Machine/Flags.lean ====
section
/-! DEFINITION. The machine has no flags (10_state.md R35): "Comparisons write 0 or 1 to a general register (`slt`, `sltu`) or decide a branch directly from two registers". These are the comparisons. -/

namespace Sys2Proof.Machine

/-- `s(a) < s(b)`, 64-bit signed: `slt`, `blt`, `bge` (40_alu_register.md R129; 44_branches.md R198). -/
def lessSigned (a b : Word) : Bool := decide (a.toInt < b.toInt)

/-- `u(a) < u(b)`, 64-bit unsigned: `bltu`, `bgeu` (44_branches.md R198, decision D15). -/
def lessUnsigned (a b : Word) : Bool := decide (a.toNat < b.toNat)

/-- `u(a[31:0]) < u(b[31:0])`: `sltu` (40_alu_register.md R130). -/
def lessUnsigned32 (a b : Word) : Bool := decide ((low32 a).toNat < (low32 b).toNat)

/-- The 64-bit value 1 or 0 (40_alu_register.md R129). -/
def boolWord (c : Bool) : Word := if c then 1 else 0

end Sys2Proof.Machine
end

