-- ==== Sys2Proof/Machine/AluImmediate.lean ====
section
/-! DEFINITION. The register-immediate arithmetic and logic instructions (41_alu_immediate.md). -/

namespace Sys2Proof.Machine

/-- Common to the family (R140): read the source, compute with the 64-bit immediate in place of the second source,
write rd, `pc <- pc + 4`; no fault. -/
def immediateOp (f : Word → Word → Word) (rd rs1 : Reg) (imm : Word) (s : State) : Host.Outcome State Fault Refusal :=
  .next (s.writeReg rd (f (s.readReg rs1) imm)).advance

/-- `addi` (R141). -/
def execAddi (rd rs1 : Reg) (imm : Word) (s : State) : Host.Outcome State Fault Refusal :=
  immediateOp (fun a b => a + b) rd rs1 imm s

/-- `andi` (R142). -/
def execAndi (rd rs1 : Reg) (imm : Word) (s : State) : Host.Outcome State Fault Refusal :=
  immediateOp (fun a b => a &&& b) rd rs1 imm s

/-- `ori` (R143). -/
def execOri (rd rs1 : Reg) (imm : Word) (s : State) : Host.Outcome State Fault Refusal :=
  immediateOp (fun a b => a ||| b) rd rs1 imm s

/-- `xori` (R144). -/
def execXori (rd rs1 : Reg) (imm : Word) (s : State) : Host.Outcome State Fault Refusal :=
  immediateOp (fun a b => a ^^^ b) rd rs1 imm s

/-- `slli` (R145): only `imm[4:0]` matters. -/
def execSlli (rd rs1 : Reg) (imm : Word) (s : State) : Host.Outcome State Fault Refusal :=
  immediateOp shiftLeft rd rs1 imm s

/-- `srli` (R146): the 32-bit truncation of `srl`. -/
def execSrli (rd rs1 : Reg) (imm : Word) (s : State) : Host.Outcome State Fault Refusal :=
  immediateOp shiftRightLogical32 rd rs1 imm s

/-- `srai` (R147). -/
def execSrai (rd rs1 : Reg) (imm : Word) (s : State) : Host.Outcome State Fault Refusal :=
  immediateOp shiftRightArithmetic rd rs1 imm s

end Sys2Proof.Machine
end

