-- ==== Sys2Proof/Machine/AluRegister.lean ====
section
/-! DEFINITION. The register-register arithmetic and logic instructions (40_alu_register.md). -/

namespace Sys2Proof.Machine

/-- Common to the family (R120): read both sources, compute, write rd, `pc <- pc + 4`; no fault. -/
def registerOp (f : Word → Word → Word) (rd rs1 rs2 : Reg) (s : State) : Host.Outcome State Fault Refusal :=
  .next (s.writeReg rd (f (s.readReg rs1) (s.readReg rs2))).advance

/-- `add` (R121). -/
def execAdd (rd rs1 rs2 : Reg) (s : State) : Host.Outcome State Fault Refusal :=
  registerOp (fun a b => a + b) rd rs1 rs2 s

/-- `sub` (R122). -/
def execSub (rd rs1 rs2 : Reg) (s : State) : Host.Outcome State Fault Refusal :=
  registerOp (fun a b => a - b) rd rs1 rs2 s

/-- `and` (R123). -/
def execAnd (rd rs1 rs2 : Reg) (s : State) : Host.Outcome State Fault Refusal :=
  registerOp (fun a b => a &&& b) rd rs1 rs2 s

/-- `or` (R124). -/
def execOr (rd rs1 rs2 : Reg) (s : State) : Host.Outcome State Fault Refusal :=
  registerOp (fun a b => a ||| b) rd rs1 rs2 s

/-- `xor` (R125). -/
def execXor (rd rs1 rs2 : Reg) (s : State) : Host.Outcome State Fault Refusal :=
  registerOp (fun a b => a ^^^ b) rd rs1 rs2 s

/-- `sll` (R126). -/
def execSll (rd rs1 rs2 : Reg) (s : State) : Host.Outcome State Fault Refusal :=
  registerOp shiftLeft rd rs1 rs2 s

/-- `srl` (R127). -/
def execSrl (rd rs1 rs2 : Reg) (s : State) : Host.Outcome State Fault Refusal :=
  registerOp shiftRightLogical32 rd rs1 rs2 s

/-- `sra` (R128). -/
def execSra (rd rs1 rs2 : Reg) (s : State) : Host.Outcome State Fault Refusal :=
  registerOp shiftRightArithmetic rd rs1 rs2 s

/-- `slt` (R129). -/
def execSlt (rd rs1 rs2 : Reg) (s : State) : Host.Outcome State Fault Refusal :=
  registerOp (fun a b => boolWord (lessSigned a b)) rd rs1 rs2 s

/-- `sltu` (R130). -/
def execSltu (rd rs1 rs2 : Reg) (s : State) : Host.Outcome State Fault Refusal :=
  registerOp (fun a b => boolWord (lessUnsigned32 a b)) rd rs1 rs2 s

end Sys2Proof.Machine
end

