-- ==== Sys2Proof/Machine/Branches.lean ====
section
/-! DEFINITION. The conditional branches (44_branches.md). -/

namespace Sys2Proof.Machine

/-- Common to the family (R190): `if cond(a, b) then pc <- pc + off else pc <- pc + 4`; the target is not checked. -/
def branchOp (cond : Word → Word → Bool) (rs1 rs2 : Reg) (off : Word) (s : State) : Host.Outcome State Fault Refusal :=
  .next (if cond (s.readReg rs1) (s.readReg rs2) then s.setPc (s.relativeTarget off) else s.advance)

/-- `beq` (R191). -/
def execBeq (rs1 rs2 : Reg) (off : Word) (s : State) : Host.Outcome State Fault Refusal :=
  branchOp (fun a b => decide (a = b)) rs1 rs2 off s

/-- `bne` (R192). -/
def execBne (rs1 rs2 : Reg) (off : Word) (s : State) : Host.Outcome State Fault Refusal :=
  branchOp (fun a b => !decide (a = b)) rs1 rs2 off s

/-- `blt` (R193). -/
def execBlt (rs1 rs2 : Reg) (off : Word) (s : State) : Host.Outcome State Fault Refusal :=
  branchOp lessSigned rs1 rs2 off s

/-- `bge` (R194). -/
def execBge (rs1 rs2 : Reg) (off : Word) (s : State) : Host.Outcome State Fault Refusal :=
  branchOp (fun a b => !lessSigned a b) rs1 rs2 off s

/-- `bgeu` (R195). -/
def execBgeu (rs1 rs2 : Reg) (off : Word) (s : State) : Host.Outcome State Fault Refusal :=
  branchOp (fun a b => !lessUnsigned a b) rs1 rs2 off s

/-- `bltu` (R196). -/
def execBltu (rs1 rs2 : Reg) (off : Word) (s : State) : Host.Outcome State Fault Refusal :=
  branchOp lessUnsigned rs1 rs2 off s

end Sys2Proof.Machine
end

