-- ==== Sys2Proof/Machine/Jumps.lean ====
section
/-! DEFINITION. The jumps and `lui` (45_jumps.md; 46_lui_and_unknown.md R220). -/

namespace Sys2Proof.Machine

/-- `jal` (R211): the link write is unconditional (register 0 as 10_state.md R22 says), then the jump. -/
def execJal (rd : Reg) (off : Word) (s : State) : Host.Outcome State Fault Refusal :=
  .next ((s.writeReg rd s.nextPc).setPc (s.relativeTarget off))

/-- `jalr` (R212): the target from the old base, the link write only if rd is not 0, then the jump. -/
def execJalr (rd rs1 : Reg) (off : Word) (s : State) : Host.Outcome State Fault Refusal :=
  .next ((if rd = 0 then s else s.writeReg rd s.nextPc).setPc (s.jalrTarget rs1 off))

/-- `lui` (R220). -/
def execLui (rd : Reg) (imm : Word) (s : State) : Host.Outcome State Fault Refusal :=
  .next (s.writeReg rd (upperImmediate imm)).advance

end Sys2Proof.Machine
end

