-- ==== Sys2Proof/Machine/Loads.lean ====
section
/-! DEFINITION. The loads (42_loads.md). -/

namespace Sys2Proof.Machine

/-- Common to the family, steps 1 to 4 of R160: the address from the old base, `MemRead`, the extension, the register
write, `pc <- pc + 4`. The access is made even where the register write is dropped. -/
def loadOp (n : Nat) (extend : BitVec (8 * n) → Word) (rd rs1 : Reg) (off : Word) (s : State) :
    Host.Outcome State Fault Refusal :=
  match s.memRead (s.effectiveAddress rs1 off) n with
  | .error f => .fault f
  | .ok v => .next (s.writeReg rd (extend v)).advance

/-- `ld` (R161). -/
def execLd (rd rs1 : Reg) (off : Word) (s : State) : Host.Outcome State Fault Refusal :=
  loadOp 8 zeroExtended rd rs1 off s

/-- `lw` (R162): sign-extended (90_conflicts.md C1). -/
def execLw (rd rs1 : Reg) (off : Word) (s : State) : Host.Outcome State Fault Refusal :=
  loadOp 4 signExtended rd rs1 off s

/-- `lh` (R163). -/
def execLh (rd rs1 : Reg) (off : Word) (s : State) : Host.Outcome State Fault Refusal :=
  loadOp 2 signExtended rd rs1 off s

/-- `lb` (R164). -/
def execLb (rd rs1 : Reg) (off : Word) (s : State) : Host.Outcome State Fault Refusal :=
  loadOp 1 signExtended rd rs1 off s

/-- `lwu` (R165). -/
def execLwu (rd rs1 : Reg) (off : Word) (s : State) : Host.Outcome State Fault Refusal :=
  loadOp 4 zeroExtended rd rs1 off s

/-- `lhu` (R166). -/
def execLhu (rd rs1 : Reg) (off : Word) (s : State) : Host.Outcome State Fault Refusal :=
  loadOp 2 zeroExtended rd rs1 off s

/-- `lbu` (R167). -/
def execLbu (rd rs1 : Reg) (off : Word) (s : State) : Host.Outcome State Fault Refusal :=
  loadOp 1 zeroExtended rd rs1 off s

end Sys2Proof.Machine
end

