-- ==== Sys2Proof/Machine/Stores.lean ====
section
/-! DEFINITION. The stores (43_stores.md). -/

namespace Sys2Proof.Machine

/-- Common to the family, steps 1 to 3 of R180: the address, `MemWrite` of the low n bytes of x[rs2], `pc <- pc + 4`. -/
def storeOp (n : Nat) (rs2 rs1 : Reg) (off : Word) (s : State) : Host.Outcome State Fault Refusal :=
  match s.memWrite (s.effectiveAddress rs1 off) n (s.readReg rs2) with
  | .error f => .fault f
  | .ok t => .next t.advance

/-- `sd` (R181). -/
def execSd (rs2 rs1 : Reg) (off : Word) (s : State) : Host.Outcome State Fault Refusal := storeOp 8 rs2 rs1 off s

/-- `sw` (R182). -/
def execSw (rs2 rs1 : Reg) (off : Word) (s : State) : Host.Outcome State Fault Refusal := storeOp 4 rs2 rs1 off s

/-- `sh` (R183). -/
def execSh (rs2 rs1 : Reg) (off : Word) (s : State) : Host.Outcome State Fault Refusal := storeOp 2 rs2 rs1 off s

/-- `sb` (R184). -/
def execSb (rs2 rs1 : Reg) (off : Word) (s : State) : Host.Outcome State Fault Refusal := storeOp 1 rs2 rs1 off s

end Sys2Proof.Machine
end

