-- ==== Sys2Proof/WellFormed.lean ====
section
/-! DEFINITION. Which decoded instructions have fields that fit the binary fields as they stand (30_encoding.md R101). -/

namespace Sys2Proof

/-- The signed value of `v` fits `n + 1` bits of two's complement: -2^n .. 2^n - 1. -/
def fitsSigned (n : Nat) (v : Word) : Bool :=
  decide (-(2 : Int) ^ n ≤ v.toInt) && decide (v.toInt < (2 : Int) ^ n)

/-- The value of `v` is one of 0 .. 2^n - 1. -/
def fitsUnsigned (n : Nat) (v : Word) : Bool := decide (v.toNat < 2 ^ n)

/-- The value is even: bit 0 of a B- or J-immediate is always 0 (30_encoding.md R86, R87; log entry 16). -/
def isEven (v : Word) : Bool := decide (v.toNat % 2 = 0)

/-- The instruction's decoded fields fit the binary fields as they stand, with no shift immediate to reduce (30_encoding.md
R101; `Instr.hasWord` of Decode.lean is the rule's whole condition): I and S immediates in -2048 .. 2047,
shift immediates in 0 .. 63, `lui` immediates in 0 .. 1048575, even branch offsets in -4096 .. 4094, even `jal` offsets
in -1048576 .. 1048574. -/
def Instr.wellFormed : Instr → Bool
  | .add _ _ _ => true
  | .sub _ _ _ => true
  | .and _ _ _ => true
  | .or _ _ _ => true
  | .xor _ _ _ => true
  | .sll _ _ _ => true
  | .srl _ _ _ => true
  | .sra _ _ _ => true
  | .slt _ _ _ => true
  | .sltu _ _ _ => true
  | .addi _ _ imm => fitsSigned 11 imm
  | .andi _ _ imm => fitsSigned 11 imm
  | .ori _ _ imm => fitsSigned 11 imm
  | .xori _ _ imm => fitsSigned 11 imm
  | .slli _ _ imm => fitsUnsigned 6 imm
  | .srli _ _ imm => fitsUnsigned 6 imm
  | .srai _ _ imm => fitsUnsigned 6 imm
  | .ld _ _ off => fitsSigned 11 off
  | .lw _ _ off => fitsSigned 11 off
  | .lh _ _ off => fitsSigned 11 off
  | .lb _ _ off => fitsSigned 11 off
  | .lwu _ _ off => fitsSigned 11 off
  | .lhu _ _ off => fitsSigned 11 off
  | .lbu _ _ off => fitsSigned 11 off
  | .sd _ _ off => fitsSigned 11 off
  | .sw _ _ off => fitsSigned 11 off
  | .sh _ _ off => fitsSigned 11 off
  | .sb _ _ off => fitsSigned 11 off
  | .beq _ _ off => fitsSigned 12 off && isEven off
  | .bne _ _ off => fitsSigned 12 off && isEven off
  | .blt _ _ off => fitsSigned 12 off && isEven off
  | .bge _ _ off => fitsSigned 12 off && isEven off
  | .bgeu _ _ off => fitsSigned 12 off && isEven off
  | .bltu _ _ off => fitsSigned 12 off && isEven off
  | .jal _ off => fitsSigned 20 off && isEven off
  | .jalr _ _ off => fitsSigned 11 off
  | .lui _ imm => fitsUnsigned 20 imm

end Sys2Proof
end

