-- ==== Sys2Proof/Decode.lean ====
section
/-! DEFINITION. The binary form (30_encoding.md R81 to R101): the opcode table, the field slices, the immediates, the total decoder, and after it the encoder. The bit patterns are the spec's own decision D2. -/

namespace Sys2Proof

/-- One row of spec/opcode_table.json: a word `w` belongs to it if and only if `w &&& mask = pattern`. -/
structure OpcodeRow where
  mnemonic : String
  mask : InstWord
  pattern : InstWord
  deriving DecidableEq, Repr

/-- The rows of 30_encoding.md R91. -/
def rowsRegister : List OpcodeRow :=
  [ ⟨"add", 0xFE00707F, 0x00000033⟩
  , ⟨"sub", 0xFE00707F, 0x40000033⟩
  , ⟨"and", 0xFE00707F, 0x00007033⟩
  , ⟨"or", 0xFE00707F, 0x00006033⟩
  , ⟨"xor", 0xFE00707F, 0x00004033⟩
  , ⟨"sll", 0xFE00707F, 0x00001033⟩
  , ⟨"srl", 0xFE00707F, 0x00005033⟩
  , ⟨"sra", 0xFE00707F, 0x40005033⟩
  , ⟨"slt", 0xFE00707F, 0x00002033⟩
  , ⟨"sltu", 0xFE00707F, 0x00003033⟩ ]

/-- The rows of 30_encoding.md R92. -/
def rowsImmediate : List OpcodeRow :=
  [ ⟨"addi", 0x0000707F, 0x00000013⟩
  , ⟨"andi", 0x0000707F, 0x00007013⟩
  , ⟨"ori", 0x0000707F, 0x00006013⟩
  , ⟨"xori", 0x0000707F, 0x00004013⟩
  , ⟨"slli", 0xFC00707F, 0x00001013⟩
  , ⟨"srli", 0xFC00707F, 0x00005013⟩
  , ⟨"srai", 0xFC00707F, 0x40005013⟩ ]

/-- The rows of 30_encoding.md R93. -/
def rowsLoad : List OpcodeRow :=
  [ ⟨"ld", 0x0000707F, 0x00003003⟩
  , ⟨"lw", 0x0000707F, 0x00002003⟩
  , ⟨"lh", 0x0000707F, 0x00001003⟩
  , ⟨"lb", 0x0000707F, 0x00000003⟩
  , ⟨"lwu", 0x0000707F, 0x00006003⟩
  , ⟨"lhu", 0x0000707F, 0x00005003⟩
  , ⟨"lbu", 0x0000707F, 0x00004003⟩ ]

/-- The rows of 30_encoding.md R94. -/
def rowsStore : List OpcodeRow :=
  [ ⟨"sd", 0x0000707F, 0x00003023⟩
  , ⟨"sw", 0x0000707F, 0x00002023⟩
  , ⟨"sh", 0x0000707F, 0x00001023⟩
  , ⟨"sb", 0x0000707F, 0x00000023⟩ ]

/-- The rows of 30_encoding.md R95. -/
def rowsBranch : List OpcodeRow :=
  [ ⟨"beq", 0x0000707F, 0x00000063⟩
  , ⟨"bne", 0x0000707F, 0x00001063⟩
  , ⟨"blt", 0x0000707F, 0x00004063⟩
  , ⟨"bge", 0x0000707F, 0x00005063⟩
  , ⟨"bgeu", 0x0000707F, 0x00007063⟩
  , ⟨"bltu", 0x0000707F, 0x00006063⟩ ]

/-- The rows of 30_encoding.md R96. -/
def rowsJump : List OpcodeRow :=
  [ ⟨"jal", 0x0000007F, 0x0000006F⟩
  , ⟨"jalr", 0x0000707F, 0x00000067⟩
  , ⟨"lui", 0x0000007F, 0x00000037⟩ ]

/-- The 37 rows of spec/opcode_table.json (30_encoding.md R91 to R96). -/
def opcodeTable : List OpcodeRow :=
  rowsRegister ++ rowsImmediate ++ rowsLoad ++ rowsStore ++ rowsBranch ++ rowsJump

/-- The mnemonic of an instruction, as spec/opcode_table.json spells it. -/
def Instr.mnemonic : Instr → String
  | .add _ _ _ => "add"
  | .sub _ _ _ => "sub"
  | .and _ _ _ => "and"
  | .or _ _ _ => "or"
  | .xor _ _ _ => "xor"
  | .sll _ _ _ => "sll"
  | .srl _ _ _ => "srl"
  | .sra _ _ _ => "sra"
  | .slt _ _ _ => "slt"
  | .sltu _ _ _ => "sltu"
  | .addi _ _ _ => "addi"
  | .andi _ _ _ => "andi"
  | .ori _ _ _ => "ori"
  | .xori _ _ _ => "xori"
  | .slli _ _ _ => "slli"
  | .srli _ _ _ => "srli"
  | .srai _ _ _ => "srai"
  | .ld _ _ _ => "ld"
  | .lw _ _ _ => "lw"
  | .lh _ _ _ => "lh"
  | .lb _ _ _ => "lb"
  | .lwu _ _ _ => "lwu"
  | .lhu _ _ _ => "lhu"
  | .lbu _ _ _ => "lbu"
  | .sd _ _ _ => "sd"
  | .sw _ _ _ => "sw"
  | .sh _ _ _ => "sh"
  | .sb _ _ _ => "sb"
  | .beq _ _ _ => "beq"
  | .bne _ _ _ => "bne"
  | .blt _ _ _ => "blt"
  | .bge _ _ _ => "bge"
  | .bgeu _ _ _ => "bgeu"
  | .bltu _ _ _ => "bltu"
  | .jal _ _ => "jal"
  | .jalr _ _ _ => "jalr"
  | .lui _ _ => "lui"

/-- The word belongs to the row (30_encoding.md R97). -/
def OpcodeRow.covers (r : OpcodeRow) (w : InstWord) : Bool := w &&& r.mask == r.pattern

/-! Fields (30_encoding.md R83). -/

def opcodeOf (w : InstWord) : BitVec 7 := w.extractLsb' 0 7
def funct3Of (w : InstWord) : BitVec 3 := w.extractLsb' 12 3
def funct7Of (w : InstWord) : BitVec 7 := w.extractLsb' 25 7
def funct6Of (w : InstWord) : BitVec 6 := w.extractLsb' 26 6

/-- A 5-bit field is the register index directly (30_encoding.md R83). -/
def regOfBits (b : BitVec 5) : Reg := ⟨b.toNat, b.isLt⟩

def rdOf (w : InstWord) : Reg := regOfBits (w.extractLsb' 7 5)
def rs1Of (w : InstWord) : Reg := regOfBits (w.extractLsb' 15 5)
def rs2Of (w : InstWord) : Reg := regOfBits (w.extractLsb' 20 5)

/-! Immediates (30_encoding.md R84 to R89). -/

/-- `sext_64(inst[31:20])` (R84). -/
def immI (w : InstWord) : Word := (w.extractLsb' 20 12).signExtend 64

/-- `sext_64({inst[31:25], inst[11:7]})` (R85). -/
def immS (w : InstWord) : Word :=
  (w.extractLsb' 25 7 ++ w.extractLsb' 7 5 : BitVec 12).signExtend 64

/-- `sext_64({inst[31], inst[7], inst[30:25], inst[11:8], 1'b0})` (R86). -/
def immB (w : InstWord) : Word :=
  (w.extractLsb' 31 1 ++ w.extractLsb' 7 1 ++ w.extractLsb' 25 6 ++ w.extractLsb' 8 4 ++ 0#1 : BitVec 13).signExtend 64

/-- `sext_64({inst[31], inst[19:12], inst[20], inst[30:21], 1'b0})` (R87). -/
def immJ (w : InstWord) : Word :=
  (w.extractLsb' 31 1 ++ w.extractLsb' 12 8 ++ w.extractLsb' 20 1 ++ w.extractLsb' 21 10 ++ 0#1 : BitVec 21).signExtend 64

/-- `zext_64(inst[31:12])`, zero-extended (R88, decision D6). -/
def immU (w : InstWord) : Word := (w.extractLsb' 12 20).setWidth 64

/-- `zext_64(inst[25:20])` (R89, decision D5). -/
def immShift (w : InstWord) : Word := (w.extractLsb' 20 6).setWidth 64

/-! The decoder, family by family (30_encoding.md R91 to R96). -/

/-- Opcode 0x33 (R91). -/
def decodeRegister (w : InstWord) : Option Instr :=
  if funct7Of w = 0b0000000 ∧ funct3Of w = 0b000 then some (.add (rdOf w) (rs1Of w) (rs2Of w))
  else if funct7Of w = 0b0100000 ∧ funct3Of w = 0b000 then some (.sub (rdOf w) (rs1Of w) (rs2Of w))
  else if funct7Of w = 0b0000000 ∧ funct3Of w = 0b111 then some (.and (rdOf w) (rs1Of w) (rs2Of w))
  else if funct7Of w = 0b0000000 ∧ funct3Of w = 0b110 then some (.or (rdOf w) (rs1Of w) (rs2Of w))
  else if funct7Of w = 0b0000000 ∧ funct3Of w = 0b100 then some (.xor (rdOf w) (rs1Of w) (rs2Of w))
  else if funct7Of w = 0b0000000 ∧ funct3Of w = 0b001 then some (.sll (rdOf w) (rs1Of w) (rs2Of w))
  else if funct7Of w = 0b0000000 ∧ funct3Of w = 0b101 then some (.srl (rdOf w) (rs1Of w) (rs2Of w))
  else if funct7Of w = 0b0100000 ∧ funct3Of w = 0b101 then some (.sra (rdOf w) (rs1Of w) (rs2Of w))
  else if funct7Of w = 0b0000000 ∧ funct3Of w = 0b010 then some (.slt (rdOf w) (rs1Of w) (rs2Of w))
  else if funct7Of w = 0b0000000 ∧ funct3Of w = 0b011 then some (.sltu (rdOf w) (rs1Of w) (rs2Of w))
  else none

/-- Opcode 0x13 (R92). -/
def decodeImmediate (w : InstWord) : Option Instr :=
  if funct3Of w = 0b000 then some (.addi (rdOf w) (rs1Of w) (immI w))
  else if funct3Of w = 0b111 then some (.andi (rdOf w) (rs1Of w) (immI w))
  else if funct3Of w = 0b110 then some (.ori (rdOf w) (rs1Of w) (immI w))
  else if funct3Of w = 0b100 then some (.xori (rdOf w) (rs1Of w) (immI w))
  else if funct6Of w = 0b000000 ∧ funct3Of w = 0b001 then some (.slli (rdOf w) (rs1Of w) (immShift w))
  else if funct6Of w = 0b000000 ∧ funct3Of w = 0b101 then some (.srli (rdOf w) (rs1Of w) (immShift w))
  else if funct6Of w = 0b010000 ∧ funct3Of w = 0b101 then some (.srai (rdOf w) (rs1Of w) (immShift w))
  else none

/-- Opcode 0x03 (R93). -/
def decodeLoad (w : InstWord) : Option Instr :=
  if funct3Of w = 0b011 then some (.ld (rdOf w) (rs1Of w) (immI w))
  else if funct3Of w = 0b010 then some (.lw (rdOf w) (rs1Of w) (immI w))
  else if funct3Of w = 0b001 then some (.lh (rdOf w) (rs1Of w) (immI w))
  else if funct3Of w = 0b000 then some (.lb (rdOf w) (rs1Of w) (immI w))
  else if funct3Of w = 0b110 then some (.lwu (rdOf w) (rs1Of w) (immI w))
  else if funct3Of w = 0b101 then some (.lhu (rdOf w) (rs1Of w) (immI w))
  else if funct3Of w = 0b100 then some (.lbu (rdOf w) (rs1Of w) (immI w))
  else none

/-- Opcode 0x23 (R94). -/
def decodeStore (w : InstWord) : Option Instr :=
  if funct3Of w = 0b011 then some (.sd (rs2Of w) (rs1Of w) (immS w))
  else if funct3Of w = 0b010 then some (.sw (rs2Of w) (rs1Of w) (immS w))
  else if funct3Of w = 0b001 then some (.sh (rs2Of w) (rs1Of w) (immS w))
  else if funct3Of w = 0b000 then some (.sb (rs2Of w) (rs1Of w) (immS w))
  else none

/-- Opcode 0x63 (R95). -/
def decodeBranch (w : InstWord) : Option Instr :=
  if funct3Of w = 0b000 then some (.beq (rs1Of w) (rs2Of w) (immB w))
  else if funct3Of w = 0b001 then some (.bne (rs1Of w) (rs2Of w) (immB w))
  else if funct3Of w = 0b100 then some (.blt (rs1Of w) (rs2Of w) (immB w))
  else if funct3Of w = 0b101 then some (.bge (rs1Of w) (rs2Of w) (immB w))
  else if funct3Of w = 0b111 then some (.bgeu (rs1Of w) (rs2Of w) (immB w))
  else if funct3Of w = 0b110 then some (.bltu (rs1Of w) (rs2Of w) (immB w))
  else none

/-- The instruction a word stands for, by major opcode (30_encoding.md R90, R96, R97); none where no row matches. -/
def decodeInstr (w : InstWord) : Option Instr :=
  if opcodeOf w = 0b0110011 then decodeRegister w
  else if opcodeOf w = 0b0010011 then decodeImmediate w
  else if opcodeOf w = 0b0000011 then decodeLoad w
  else if opcodeOf w = 0b0100011 then decodeStore w
  else if opcodeOf w = 0b1100011 then decodeBranch w
  else if opcodeOf w = 0b1101111 then some (.jal (rdOf w) (immJ w))
  else if opcodeOf w = 0b1100111 ∧ funct3Of w = 0b000 then some (.jalr (rdOf w) (rs1Of w) (immI w))
  else if opcodeOf w = 0b0110111 then some (.lui (rdOf w) (immU w))
  else none

/-- The binary decoder, total on 32-bit words: a word of no row is `Unknown` (30_encoding.md R97, R98). It never
answers `Malformed`. -/
def decodeWord (w : InstWord) : Decoded :=
  match decodeInstr w with
  | some i => .instr i
  | none => .unknown (.word w)

/-- The instruction the decoder reads from an opcode-table word of `nbits` bits; bits above `nbits` are 0. An instruction
is one 32-bit word (30_encoding.md R81). -/
def decodeTableWord (nbits w : Nat) : Option Instr := decodeInstr (BitVec.ofNat 32 (w % 2 ^ nbits))

/-! Which instructions have a word (30_encoding.md R101). -/

/-- The instruction with its shift immediate reduced to `imm & 63` (30_encoding.md R101). The rule also lets an assembler
take `imm & 31`: the 6 bits are the model's choice (DESIGN CHOICE, log entry 17). -/
def Instr.reduced : Instr → Instr
  | .slli rd rs1 imm => .slli rd rs1 (imm &&& 63)
  | .srli rd rs1 imm => .srli rd rs1 (imm &&& 63)
  | .srai rd rs1 imm => .srai rd rs1 (imm &&& 63)
  | i@(.add _ _ _) | i@(.sub _ _ _) | i@(.and _ _ _) | i@(.or _ _ _) | i@(.xor _ _ _) | i@(.sll _ _ _) | i@(.srl _ _ _)
  | i@(.sra _ _ _) | i@(.slt _ _ _) | i@(.sltu _ _ _) | i@(.addi _ _ _) | i@(.andi _ _ _) | i@(.ori _ _ _)
  | i@(.xori _ _ _) | i@(.ld _ _ _) | i@(.lw _ _ _) | i@(.lh _ _ _) | i@(.lb _ _ _) | i@(.lwu _ _ _) | i@(.lhu _ _ _)
  | i@(.lbu _ _ _) | i@(.sd _ _ _) | i@(.sw _ _ _) | i@(.sh _ _ _) | i@(.sb _ _ _) | i@(.beq _ _ _) | i@(.bne _ _ _)
  | i@(.blt _ _ _) | i@(.bge _ _ _) | i@(.bgeu _ _ _) | i@(.bltu _ _ _) | i@(.jal _ _) | i@(.jalr _ _ _)
  | i@(.lui _ _) => i

/-- The instruction has a binary word: its fields fit once its shift immediate is reduced (30_encoding.md R101). -/
def Instr.hasWord (i : Instr) : Bool := i.reduced.wellFormed

/-! The encoder, from the formats of 30_encoding.md R82. -/

/-- A register index as its 5-bit field. -/
def bitsOfReg (r : Reg) : BitVec 5 := BitVec.ofNat 5 r.val

/-- Format R. -/
def encodeR (funct7 : BitVec 7) (rs2 rs1 : Reg) (funct3 : BitVec 3) (rd : Reg) (opcode : BitVec 7) : InstWord :=
  (funct7 ++ bitsOfReg rs2 ++ bitsOfReg rs1 ++ funct3 ++ bitsOfReg rd ++ opcode : BitVec 32)

/-- Format I. -/
def encodeI (imm : Word) (rs1 : Reg) (funct3 : BitVec 3) (rd : Reg) (opcode : BitVec 7) : InstWord :=
  (imm.extractLsb' 0 12 ++ bitsOfReg rs1 ++ funct3 ++ bitsOfReg rd ++ opcode : BitVec 32)

/-- Format I-shift: funct6 and a 6-bit amount, the low 6 bits of the immediate; 30_encoding.md R101 also allows the low 5
(DESIGN CHOICE, log entry 17). -/
def encodeShift (funct6 : BitVec 6) (imm : Word) (rs1 : Reg) (funct3 : BitVec 3) (rd : Reg) : InstWord :=
  (funct6 ++ imm.extractLsb' 0 6 ++ bitsOfReg rs1 ++ funct3 ++ bitsOfReg rd ++ 0b0010011#7 : BitVec 32)

/-- Format S. -/
def encodeS (off : Word) (rs2 rs1 : Reg) (funct3 : BitVec 3) : InstWord :=
  (off.extractLsb' 5 7 ++ bitsOfReg rs2 ++ bitsOfReg rs1 ++ funct3 ++ off.extractLsb' 0 5 ++ 0b0100011#7 : BitVec 32)

/-- Format B. -/
def encodeB (off : Word) (rs2 rs1 : Reg) (funct3 : BitVec 3) : InstWord :=
  (off.extractLsb' 12 1 ++ off.extractLsb' 5 6 ++ bitsOfReg rs2 ++ bitsOfReg rs1 ++ funct3 ++
    off.extractLsb' 1 4 ++ off.extractLsb' 11 1 ++ 0b1100011#7 : BitVec 32)

/-- Format J, the `jal` row. -/
def encodeJ (off : Word) (rd : Reg) : InstWord :=
  (off.extractLsb' 20 1 ++ off.extractLsb' 1 10 ++ off.extractLsb' 11 1 ++ off.extractLsb' 12 8 ++ bitsOfReg rd ++
    0b1101111#7 : BitVec 32)

/-- Format U, the `lui` row. -/
def encodeU (imm : Word) (rd : Reg) : InstWord :=
  (imm.extractLsb' 0 20 ++ bitsOfReg rd ++ 0b0110111#7 : BitVec 32)

/-- The word of an instruction: faithful for the well-formed ones, and up to the shift reduction for every one that has a
word (30_encoding.md R101). -/
def encode : Instr → InstWord
  | .add rd rs1 rs2 => encodeR 0b0000000 rs2 rs1 0b000 rd 0b0110011
  | .sub rd rs1 rs2 => encodeR 0b0100000 rs2 rs1 0b000 rd 0b0110011
  | .and rd rs1 rs2 => encodeR 0b0000000 rs2 rs1 0b111 rd 0b0110011
  | .or rd rs1 rs2 => encodeR 0b0000000 rs2 rs1 0b110 rd 0b0110011
  | .xor rd rs1 rs2 => encodeR 0b0000000 rs2 rs1 0b100 rd 0b0110011
  | .sll rd rs1 rs2 => encodeR 0b0000000 rs2 rs1 0b001 rd 0b0110011
  | .srl rd rs1 rs2 => encodeR 0b0000000 rs2 rs1 0b101 rd 0b0110011
  | .sra rd rs1 rs2 => encodeR 0b0100000 rs2 rs1 0b101 rd 0b0110011
  | .slt rd rs1 rs2 => encodeR 0b0000000 rs2 rs1 0b010 rd 0b0110011
  | .sltu rd rs1 rs2 => encodeR 0b0000000 rs2 rs1 0b011 rd 0b0110011
  | .addi rd rs1 imm => encodeI imm rs1 0b000 rd 0b0010011
  | .andi rd rs1 imm => encodeI imm rs1 0b111 rd 0b0010011
  | .ori rd rs1 imm => encodeI imm rs1 0b110 rd 0b0010011
  | .xori rd rs1 imm => encodeI imm rs1 0b100 rd 0b0010011
  | .slli rd rs1 imm => encodeShift 0b000000 imm rs1 0b001 rd
  | .srli rd rs1 imm => encodeShift 0b000000 imm rs1 0b101 rd
  | .srai rd rs1 imm => encodeShift 0b010000 imm rs1 0b101 rd
  | .ld rd rs1 off => encodeI off rs1 0b011 rd 0b0000011
  | .lw rd rs1 off => encodeI off rs1 0b010 rd 0b0000011
  | .lh rd rs1 off => encodeI off rs1 0b001 rd 0b0000011
  | .lb rd rs1 off => encodeI off rs1 0b000 rd 0b0000011
  | .lwu rd rs1 off => encodeI off rs1 0b110 rd 0b0000011
  | .lhu rd rs1 off => encodeI off rs1 0b101 rd 0b0000011
  | .lbu rd rs1 off => encodeI off rs1 0b100 rd 0b0000011
  | .sd rs2 rs1 off => encodeS off rs2 rs1 0b011
  | .sw rs2 rs1 off => encodeS off rs2 rs1 0b010
  | .sh rs2 rs1 off => encodeS off rs2 rs1 0b001
  | .sb rs2 rs1 off => encodeS off rs2 rs1 0b000
  | .beq rs1 rs2 off => encodeB off rs2 rs1 0b000
  | .bne rs1 rs2 off => encodeB off rs2 rs1 0b001
  | .blt rs1 rs2 off => encodeB off rs2 rs1 0b100
  | .bge rs1 rs2 off => encodeB off rs2 rs1 0b101
  | .bgeu rs1 rs2 off => encodeB off rs2 rs1 0b111
  | .bltu rs1 rs2 off => encodeB off rs2 rs1 0b110
  | .jal rd off => encodeJ off rd
  | .jalr rd rs1 off => encodeI off rs1 0b000 rd 0b1100111
  | .lui rd imm => encodeU imm rd

end Sys2Proof
end

