-- ==== Sys2Proof/Machine/TextDecode.lean ====
section
/-! DEFINITION. The textual form (30_encoding.md R100 to R109): tokens, registers, literals, targets, and the textual decoder, which delivers the same decoded instructions as the binary one. -/

namespace Sys2Proof.Machine

/-! ## Tokens (R102) -/

/-- A blank character (log entry 6). -/
def isBlank (c : Char) : Bool := c == ' ' || c == '\t' || c == '\r' || c == '\n'

/-- Split a line into its tokens, `acc` holding the token read so far, last character first. -/
def tokensFrom (acc : Text) : Text → List Text
  | [] => if acc.isEmpty then [] else [acc.reverse]
  | c :: cs =>
    if isBlank c then (if acc.isEmpty then tokensFrom [] cs else acc.reverse :: tokensFrom [] cs)
    else tokensFrom (c :: acc) cs

/-- The maximal runs of non-blank characters. -/
def tokens (line : Text) : List Text := tokensFrom [] line

/-- One trailing comma on an operand token is removed. -/
def stripComma (t : Text) : Text := if t.getLast? = some ',' then t.dropLast else t

/-- The operand in a position, without its comma; a missing operand is the empty token (R103). -/
def operandAt (ops : List Text) (k : Nat) : Text := stripComma (ops.getD k [])

/-! ## Literals (R105) -/

/-- The value of a decimal digit. -/
def decimalDigit (c : Char) : Option Nat :=
  if 48 ≤ c.toNat ∧ c.toNat ≤ 57 then some (c.toNat - 48) else none

/-- The value of a hexadecimal digit, of either case (log entry 8). -/
def hexDigit (c : Char) : Option Nat :=
  if 48 ≤ c.toNat ∧ c.toNat ≤ 57 then some (c.toNat - 48)
  else if 97 ≤ c.toNat ∧ c.toNat ≤ 102 then some (c.toNat - 87)
  else if 65 ≤ c.toNat ∧ c.toNat ≤ 70 then some (c.toNat - 55)
  else none

/-- The value of a run of digits after the value `acc`; none at the first character that is no digit. -/
def digitsFrom (base : Nat) (digit : Char → Option Nat) (acc : Nat) : Text → Option Nat
  | [] => some acc
  | c :: cs =>
    match digit c with
    | none => none
    | some d => digitsFrom base digit (acc * base + d) cs

/-- Decimal digits, at least one, with no leading zero but in `0` itself. -/
def decimalNumber : Text → Option Nat
  | [] => none
  | c :: cs => if c = '0' ∧ cs ≠ [] then none else digitsFrom 10 decimalDigit 0 (c :: cs)

/-- Either `0x` and hexadecimal digits, or decimal digits. -/
def literalMagnitude : Text → Option Nat
  | [] => none
  | [c] => decimalNumber [c]
  | c :: d :: cs =>
    if c = '0' ∧ d = 'x' then (if cs = [] then none else digitsFrom 16 hexDigit 0 cs)
    else decimalNumber (c :: d :: cs)

/-- A literal: an optional `-` and a magnitude, whose value fits a signed 64-bit integer. -/
def parseLiteral : Text → Option Int
  | [] => none
  | c :: cs =>
    if c = '-' then
      match literalMagnitude cs with
      | none => none
      | some n => if n ≤ 2 ^ 63 then some (-(n : Int)) else none
    else
      match literalMagnitude (c :: cs) with
      | none => none
      | some n => if n < 2 ^ 63 then some (n : Int) else none

/-! ## Registers (R104; 10_state.md R21) -/

/-- The ABI aliases, by register index. -/
def aliasNames : List Text :=
  [ "zero".toList, "ra".toList, "sp".toList, "gp".toList, "tp".toList, "t0".toList, "t1".toList, "t2".toList
  , "s0".toList, "s1".toList, "a0".toList, "a1".toList, "a2".toList, "a3".toList, "a4".toList, "a5".toList
  , "a6".toList, "a7".toList, "s2".toList, "s3".toList, "s4".toList, "s5".toList, "s6".toList, "s7".toList
  , "s8".toList, "s9".toList, "s10".toList, "s11".toList, "t3".toList, "t4".toList, "t5".toList, "t6".toList ]

/-- An index as a register number. -/
def regOfIndex (n : Nat) : Option Reg := if h : n < 32 then some ⟨n, h⟩ else none

/-- The index of a register token's numeric name `x0` .. `x31`. -/
def numericIndex : Text → Option Nat
  | [] => none
  | c :: cs => if c = 'x' then decimalNumber cs else none

/-- A register token: a numeric name or an alias. -/
def registerNamed (t : Text) : Option Reg :=
  match numericIndex t with
  | some n => regOfIndex n
  | none => (aliasNames.findIdx? (fun a => a == t)).bind regOfIndex

/-! ## Operands (R103 to R107) -/

def parseRegister (t : Text) : Except MalformedCause Reg :=
  match registerNamed t with
  | some r => .ok r
  | none => .error .register

def parseImmediate (t : Text) : Except MalformedCause Word :=
  match parseLiteral t with
  | some n => .ok (BitVec.ofInt 64 n)
  | none => .error .immediate

/-- The text before the first `(` and the text after it. -/
def splitAtParen : Text → Option (Text × Text)
  | [] => none
  | c :: cs =>
    if c = '(' then some ([], cs)
    else
      match splitAtParen cs with
      | none => none
      | some (before, after) => some (c :: before, after)

/-- The offset and the base of `<literal>(<register>)` (R106); the order of defects is log entry 10. -/
def parseOffsetBase (t : Text) : Except MalformedCause (Word × Reg) :=
  match splitAtParen t with
  | none => .error .immediate
  | some (before, after) =>
    if after.getLast? = some ')' then
      match parseImmediate before with
      | .error c => .error c
      | .ok off =>
        match parseRegister after.dropLast with
        | .error c => .error c
        | .ok r => .ok (off, r)
    else .error .immediate

/-- The decoded byte offset of a branch or `jal` target at program-counter value `p` (R100): the label table first, then
an integer literal that counts instructions (R107). Offsets are taken modulo 2^64 (log entry 9). -/
def resolveTarget (labels : LabelTable) (p : Word) (t : Text) : Except MalformedCause Word :=
  match labels.lookup t with
  | some k => .ok (BitVec.ofNat 64 (4 * k) - p)
  | none =>
    match parseLiteral t with
    | some n => .ok (BitVec.ofInt 64 (4 * n))
    | none => .error .target

/-! ## Instructions (R103) -/

/-- The operand forms of R103, each with the instruction it builds. -/
inductive TextForm where
  /-- `op rd, rs1, rs2` -/
  | threeRegisters (mk : Reg → Reg → Reg → Instr)
  /-- `op rd, rs1, imm` -/
  | registerImmediate (mk : Reg → Reg → Word → Instr)
  /-- `op r, offset(rs1)`: loads, stores and `jalr` -/
  | offsetBase (mk : Reg → Reg → Word → Instr)
  /-- `op rs1, rs2, target` -/
  | twoRegistersTarget (mk : Reg → Reg → Word → Instr)
  /-- `jal rd, target` -/
  | registerTarget (mk : Reg → Word → Instr)
  /-- `lui rd, imm` -/
  | upper (mk : Reg → Word → Instr)

/-- Register-register mnemonics. -/
def mnemonicsRegister : List (Text × TextForm) :=
  [ ("add".toList, .threeRegisters .add)
  , ("sub".toList, .threeRegisters .sub)
  , ("and".toList, .threeRegisters .and)
  , ("or".toList, .threeRegisters .or)
  , ("xor".toList, .threeRegisters .xor)
  , ("sll".toList, .threeRegisters .sll)
  , ("srl".toList, .threeRegisters .srl)
  , ("sra".toList, .threeRegisters .sra)
  , ("slt".toList, .threeRegisters .slt)
  , ("sltu".toList, .threeRegisters .sltu) ]

/-- Register-immediate mnemonics. -/
def mnemonicsImmediate : List (Text × TextForm) :=
  [ ("addi".toList, .registerImmediate .addi)
  , ("andi".toList, .registerImmediate .andi)
  , ("ori".toList, .registerImmediate .ori)
  , ("xori".toList, .registerImmediate .xori)
  , ("slli".toList, .registerImmediate .slli)
  , ("srli".toList, .registerImmediate .srli)
  , ("srai".toList, .registerImmediate .srai) ]

/-- Loads, stores and `jalr`. -/
def mnemonicsMemory : List (Text × TextForm) :=
  [ ("ld".toList, .offsetBase .ld)
  , ("lw".toList, .offsetBase .lw)
  , ("lh".toList, .offsetBase .lh)
  , ("lb".toList, .offsetBase .lb)
  , ("lwu".toList, .offsetBase .lwu)
  , ("lhu".toList, .offsetBase .lhu)
  , ("lbu".toList, .offsetBase .lbu)
  , ("sd".toList, .offsetBase .sd)
  , ("sw".toList, .offsetBase .sw)
  , ("sh".toList, .offsetBase .sh)
  , ("sb".toList, .offsetBase .sb)
  , ("jalr".toList, .offsetBase .jalr) ]

/-- Branch mnemonics. -/
def mnemonicsBranch : List (Text × TextForm) :=
  [ ("beq".toList, .twoRegistersTarget .beq)
  , ("bne".toList, .twoRegistersTarget .bne)
  , ("blt".toList, .twoRegistersTarget .blt)
  , ("bge".toList, .twoRegistersTarget .bge)
  , ("bgeu".toList, .twoRegistersTarget .bgeu)
  , ("bltu".toList, .twoRegistersTarget .bltu) ]

/-- The 37 mnemonics, lower-case and matched exactly (R102). -/
def mnemonicTable : List (Text × TextForm) :=
  mnemonicsRegister ++ mnemonicsImmediate ++ mnemonicsMemory ++ mnemonicsBranch ++
    [("jal".toList, .registerTarget .jal), ("lui".toList, .upper .lui)]

/-- A token after the last expected operand makes the instruction malformed (R103), found after every operand. -/
def rejectSurplus (ops : List Text) (n : Nat) (i : Instr) : Except MalformedCause Instr :=
  if n < ops.length then .error .immediate else .ok i

/-- The operands of a form; the cause recorded is that of the first defective operand from the left (60_exceptions.md
R268). -/
def decodeOperands (labels : LabelTable) (p : Word) (ops : List Text) : TextForm → Except MalformedCause Instr
  | .threeRegisters mk => do
    let rd ← parseRegister (operandAt ops 0)
    let rs1 ← parseRegister (operandAt ops 1)
    let rs2 ← parseRegister (operandAt ops 2)
    rejectSurplus ops 3 (mk rd rs1 rs2)
  | .registerImmediate mk => do
    let rd ← parseRegister (operandAt ops 0)
    let rs1 ← parseRegister (operandAt ops 1)
    let imm ← parseImmediate (operandAt ops 2)
    rejectSurplus ops 3 (mk rd rs1 imm)
  | .offsetBase mk => do
    let r ← parseRegister (operandAt ops 0)
    let (off, base) ← parseOffsetBase (operandAt ops 1)
    rejectSurplus ops 2 (mk r base off)
  | .twoRegistersTarget mk => do
    let rs1 ← parseRegister (operandAt ops 0)
    let rs2 ← parseRegister (operandAt ops 1)
    let off ← resolveTarget labels p (operandAt ops 2)
    rejectSurplus ops 3 (mk rs1 rs2 off)
  | .registerTarget mk => do
    let rd ← parseRegister (operandAt ops 0)
    let off ← resolveTarget labels p (operandAt ops 1)
    rejectSurplus ops 2 (mk rd off)
  | .upper mk => do
    let rd ← parseRegister (operandAt ops 0)
    let imm ← parseImmediate (operandAt ops 1)
    rejectSurplus ops 2 (mk rd imm)

/-- The textual decoder for the line at program-counter value `p` (R102 to R109): an unknown mnemonic is `Unknown`
whatever its operands (60_exceptions.md R268), a line with no token too (log entry 7). -/
def decodeText (labels : LabelTable) (p : Word) (line : Text) : Decoded :=
  match tokens line with
  | [] => .unknown (.text line)
  | m :: ops =>
    match mnemonicTable.lookup m with
    | none => .unknown (.text line)
    | some form =>
      match decodeOperands labels p ops form with
      | .ok i => .instr i
      | .error cause => .malformed cause line

/-- The decoded instruction of an element of the program store at program-counter value `p` (R80). -/
def decodeSource (labels : LabelTable) (p : Word) : Source → Decoded
  | .word w => decodeWord w
  | .text line => decodeText labels p line

/-- The program store as R80 and 10_state.md R30 give it, each element decoded for its own slot. -/
def decodedFrom (labels : LabelTable) (k : Nat) : List Source → List Decoded
  | [] => []
  | src :: rest => decodeSource labels (BitVec.ofNat 64 (4 * k)) src :: decodedFrom labels (k + 1) rest

end Sys2Proof.Machine
end

