-- ==== Sys2Proof/Machine/Cycle.lean ====
section
/-! DEFINITION. One execution cycle (48_debug_controller.md R235; 10_state.md R27): fetch, decode, execute. -/

namespace Sys2Proof.Machine

/-- Executing an `Unknown` element (46_lui_and_unknown.md R222): a fault under the strict policy, a no-op that advances
pc under the permissive one. -/
def execUnknown (raw : Source) (s : State) : Host.Outcome State Fault Refusal :=
  match s.cfg.unknownPolicy with
  | .strict => .fault (.unknownOpcode raw)
  | .permissive => .next s.advance

/-- Executing a `Malformed` element: always the fault of its cause, under either policy (46_lui_and_unknown.md R224). -/
def execMalformed (cause : MalformedCause) (raw : Text) : Host.Outcome State Fault Refusal :=
  .fault (malformedFault cause raw)

/-- Executing a decoded element (30_encoding.md R80). -/
def execDecoded (d : Decoded) (s : State) : Host.Outcome State Fault Refusal :=
  match d with
  | .instr i => exec i s
  | .unknown raw => execUnknown raw s
  | .malformed cause raw => execMalformed cause raw

/-- Executing an element of the program store: decoding happens at execution (30_encoding.md R108; log entry 4). -/
def execSource (src : Source) (s : State) : Host.Outcome State Fault Refusal :=
  execDecoded (decodeSource s.labels s.pc src) s

/-- One cycle by the cases of 10_state.md R27. At the end of the program nothing is executed and nothing changes
(48_debug_controller.md R236 case 3; log entry 3); a fault stops the cycle with no state change (60_exceptions.md R266;
log entry 2). -/
def executionCycle (s : State) : Host.Outcome State Fault Refusal :=
  match s.fetch with
  | .outOfRange => .fault (.pcOutOfRange s.pc)
  | .misaligned => .fault (.pcMisaligned s.pc)
  | .endOfProgram => .next s
  | .element src => execSource src s

end Sys2Proof.Machine
end

