-- ==== Sys2Proof/Machine/Step.lean ====
section
/-! DEFINITION. The step of the machine, and the placing of one instruction where the next step fetches it. -/

namespace Sys2Proof.Machine

/-- One step: one execution cycle (48_debug_controller.md R235, R236; 10_state.md R27). -/
def step (s : State) : Host.Outcome State Fault Refusal := executionCycle s

/-- The state with the binary instruction of the opcode table's `nbits` bits placed in the slot of the program store that
the next step fetches (20_memory.md R51: a word program is indexed by slot). It stands for the load of a program
(log entry 5). -/
def State.withFetchWord (s : State) (nbits w : Nat) : State :=
  s.placeSource (.word (BitVec.ofNat 32 (w % 2 ^ nbits)))

end Sys2Proof.Machine
end

