-- ==== Sys2Proof/Machine/Debug.lean ====
section
/-! DEFINITION. The debug controller (48_debug_controller.md): the seven commands, their responses, the trace, and the load that is the machine's only reset. -/

namespace Sys2Proof.Machine

/-! ## What the loader hands over (R232; 20_memory.md R61; 30_encoding.md R110) -/

/-- A data directive with its literals, each of the directive's width (20_memory.md R61). -/
inductive Directive where
  | byte (values : List (BitVec 8))
  | half (values : List (BitVec 16))
  | word (values : List (BitVec 32))
  | dword (values : List (BitVec 64))
  deriving DecidableEq, Repr

/-- The n low bytes of a value, least significant first (20_memory.md R51). -/
def bytesLE (v : Word) : Nat → List Byte
  | 0 => []
  | n + 1 => bytesLE v n ++ [byteOf v n]

/-- The bytes of one directive: each literal little-endian, one after the other. -/
def Directive.bytes : Directive → List Byte
  | .byte vs => vs.flatMap (fun v => bytesLE (v.setWidth 64) 1)
  | .half vs => vs.flatMap (fun v => bytesLE (v.setWidth 64) 2)
  | .word vs => vs.flatMap (fun v => bytesLE (v.setWidth 64) 4)
  | .dword vs => vs.flatMap (fun v => bytesLE v 8)

/-- The data image of a list of directives, contiguous and without padding (20_memory.md R61, decision D32). -/
def dataImage (ds : List Directive) : List Byte := ds.flatMap Directive.bytes

/-- A load request (R232): a program of words, whose label table is empty (10_state.md R31), or of text lines with their
label table, each with its data image; or a file that cannot be read (R234). -/
inductive LoadRequest where
  | words (program : List InstWord) (image : List Byte)
  | lines (program : List Text) (labels : LabelTable) (image : List Byte)
  | unreadable
  deriving DecidableEq, Repr

/-- The reasons of `LoadFailed` (R234, R249). -/
inductive LoadError where
  | duplicateLabel (name : Text)
  | unreadable
  | dataImageTooLarge
  deriving DecidableEq, Repr

/-! ## Commands, responses, trace (R230, R241, R249) -/

/-- The seven commands (R230). -/
inductive Command where
  | load (request : LoadRequest)
  | run
  | step
  | regs
  | mem (addr count : Int)
  | setBreak (line : Int)
  | delBreak (line : Int)
  deriving DecidableEq, Repr

/-- The responses (R249). -/
inductive Response where
  | loaded
  | loadFailed (reason : LoadError)
  | endOfProgram
  | stoppedAtBreakpoint (pc : Word)
  | stepped
  | nothingToStep
  | faulted (report : FaultReport)
  | registers (pairs : List (Text × Word))
  | bytes (values : List Byte)
  | outOfBounds
  | breakSet
  | breakAlreadySet
  | invalidLine
  | breakCleared
  | noBreakpointSet
  /-- The model's own, for an engine that refused: no instruction refuses, so it is never returned (log entry 14). -/
  | engineRefused (reason : Refusal)
  deriving DecidableEq, Repr

/-- A trace event `Exec(pc, instr)` (R235, R241). -/
structure ExecEvent where
  pc : Word
  instr : Source
  deriving DecidableEq, Repr

/-- What a command leaves: the new state, its one response, and the trace of `run` and `step` (R248). -/
structure Reply where
  state : State
  response : Response
  trace : List ExecEvent
  deriving DecidableEq, Repr

/-- The result of a command with fuel: a reply, or out of fuel, which is not a machine state of the spec (R240). -/
inductive CommandResult where
  | replied (reply : Reply)
  | outOfFuel (state : State) (trace : List ExecEvent)
  deriving DecidableEq, Repr

/-! ## Load (R232 to R234) -/

/-- The first name that repeats an earlier one, `seen` holding the names before. -/
def firstDuplicate (seen : List Text) : List Text → Option Text
  | [] => none
  | n :: ns => if n ∈ seen then some n else firstDuplicate (n :: seen) ns

/-- The image written into memory from an address on (20_memory.md R61). -/
def Memory.writeImage (m : Memory) (base : Nat) : List Byte → Memory
  | [] => m
  | b :: bs => Memory.writeImage (Memory.write m base b) (base + 1) bs

/-- The state after a successful load (R233; 10_state.md R39): everything reset, the new program, labels and image. -/
def State.loaded (s : State) (prog : List Source) (labels : LabelTable) (image : List Byte) : State where
  cfg := s.cfg
  regs := Vector.replicate 32 0
  pc := 0
  prog := prog
  labels := labels
  mem := Memory.writeImage [] s.cfg.dataBase image
  breakpoints := []
  flt := none

/-- The checks of a load, made before anything changes (R234; their order is log entry 11; label indexes are not among them,
log entry 15). -/
def loadError (c : Config) (labels : LabelTable) (image : List Byte) : Option LoadError :=
  match firstDuplicate [] (labels.map (fun l => l.1)) with
  | some name => some (.duplicateLabel name)
  | none => if c.memSize < c.dataBase + image.length then some .dataImageTooLarge else none

/-- A checked load: all or nothing (R233, R234). -/
def State.tryLoad (s : State) (prog : List Source) (labels : LabelTable) (image : List Byte) : Reply :=
  match loadError s.cfg labels image with
  | some e => ⟨s, .loadFailed e, []⟩
  | none => ⟨s.loaded prog labels image, .loaded, []⟩

/-- The command `load`. -/
def loadCommand (request : LoadRequest) (s : State) : Reply :=
  match request with
  | .unreadable => ⟨s, .loadFailed .unreadable, []⟩
  | .words program image => s.tryLoad (program.map Source.word) [] image
  | .lines program labels image => s.tryLoad (program.map Source.text) labels image

/-! ## Executing (R235 to R242) -/

/-- The reply of a command that a fault ends (60_exceptions.md R266). -/
def State.faultReply (s : State) (f : Fault) (trace : List ExecEvent) : Reply :=
  ⟨s.takeFault f, .faulted (s.faultReport f), trace⟩

/-- The reply of a command whose engine call ended so, after a cycle that emitted `trace`. -/
def State.cycleReply (s : State) (trace : List ExecEvent) : Host.Outcome State Fault Refusal → Reply
  | .next t => ⟨t, .stepped, trace⟩
  | .fault f => s.faultReply f trace
  | .refused r => ⟨s, .engineRefused r, trace⟩

/-- The command `step` (R236); it does not consult the breakpoint set. -/
def stepCommand (s : State) : Reply :=
  match s.fetch with
  | .outOfRange => s.faultReply (.pcOutOfRange s.pc) []
  | .misaligned => s.faultReply (.pcMisaligned s.pc) []
  | .endOfProgram => ⟨s, .nothingToStep, []⟩
  | .element src => s.cycleReply [⟨s.pc, src⟩] (execSource src s)

/-- pc is in the breakpoint set (10_state.md R34; R250). -/
def State.atBreakpoint (s : State) : Bool := decide (s.pc.toNat ∈ s.breakpoints)

/-- Where the run loop stands before an instruction: it stops with a reply, or executes an element (R237; the order of the
tests is D28). -/
def State.runCheck (s : State) : Reply ⊕ Source :=
  if s.atBreakpoint then .inl ⟨s, .stoppedAtBreakpoint s.pc, []⟩
  else
    match s.fetch with
    | .outOfRange => .inl (s.faultReply (.pcOutOfRange s.pc) [])
    | .misaligned => .inl (s.faultReply (.pcMisaligned s.pc) [])
    | .endOfProgram => .inl ⟨s, .endOfProgram, []⟩
    | .element src => .inr src

/-- A result with the events before it. -/
def CommandResult.after (trace : List ExecEvent) : CommandResult → CommandResult
  | .replied r => .replied ⟨r.state, r.response, trace ++ r.trace⟩
  | .outOfFuel s t => .outOfFuel s (trace ++ t)

/-- The command `run` (R237) with fuel for a number of executed instructions (R240; log entry 13). -/
def runCommand : Nat → State → CommandResult
  | fuel, s =>
    match s.runCheck with
    | .inl reply => .replied reply
    | .inr src =>
      match fuel with
      | 0 => .outOfFuel s []
      | n + 1 =>
        match execSource src s with
        | .next t => (runCommand n t).after [⟨s.pc, src⟩]
        | .fault f => .replied (s.faultReply f [⟨s.pc, src⟩])
        | .refused r => .replied ⟨s, .engineRefused r, [⟨s.pc, src⟩]⟩

/-- The command `run` as a relation over traces (R237, R240): it holds of a state and a reply exactly when the loop ends. -/
inductive Runs : State → Reply → Prop where
  /-- pc is in the breakpoint set: stop without executing. -/
  | breakpoint (s : State) (hb : s.pc.toNat ∈ s.breakpoints) : Runs s ⟨s, .stoppedAtBreakpoint s.pc, []⟩
  /-- Case 1 of 10_state.md R27. -/
  | outOfRange (s : State) (hb : s.pc.toNat ∉ s.breakpoints) (hf : s.fetch = .outOfRange) :
      Runs s ⟨s.takeFault (.pcOutOfRange s.pc), .faulted (s.faultReport (.pcOutOfRange s.pc)), []⟩
  /-- Case 2 of 10_state.md R27. -/
  | misaligned (s : State) (hb : s.pc.toNat ∉ s.breakpoints) (hf : s.fetch = .misaligned) :
      Runs s ⟨s.takeFault (.pcMisaligned s.pc), .faulted (s.faultReport (.pcMisaligned s.pc)), []⟩
  /-- Case 3 of 10_state.md R27. -/
  | endOfProgram (s : State) (hb : s.pc.toNat ∉ s.breakpoints) (hf : s.fetch = .endOfProgram) :
      Runs s ⟨s, .endOfProgram, []⟩
  /-- Case 4, the instruction faults. -/
  | faults (s : State) (src : Source) (f : Fault) (hb : s.pc.toNat ∉ s.breakpoints) (hf : s.fetch = .element src)
      (he : execSource src s = .fault f) :
      Runs s ⟨s.takeFault f, .faulted (s.faultReport f), [⟨s.pc, src⟩]⟩
  /-- Case 4, the instruction completes and the loop goes on. -/
  | executes (s t : State) (src : Source) (reply : Reply) (hb : s.pc.toNat ∉ s.breakpoints) (hf : s.fetch = .element src)
      (he : execSource src s = .next t) (hr : Runs t reply) :
      Runs s ⟨reply.state, reply.response, ⟨s.pc, src⟩ :: reply.trace⟩

/-! ## Breakpoints (R243, R244, R250) -/

/-- The set with a value inserted, strictly rising. -/
def insertBreakpoint (b : Nat) : List Nat → List Nat
  | [] => [b]
  | x :: xs => if b < x then b :: x :: xs else if b = x then x :: xs else x :: insertBreakpoint b xs

/-- `(line - 1) * 4` (R243). -/
def breakpointOfLine (line : Int) : Nat := ((line - 1) * 4).toNat

/-- The command `break` (R243). -/
def setBreakCommand (line : Int) (s : State) : Reply :=
  if 1 ≤ line ∧ line ≤ s.progLen then
    if breakpointOfLine line ∈ s.breakpoints then ⟨s, .breakAlreadySet, []⟩
    else ⟨{ s with breakpoints := insertBreakpoint (breakpointOfLine line) s.breakpoints }, .breakSet, []⟩
  else ⟨s, .invalidLine, []⟩

/-- The command `del break` (R244). -/
def delBreakCommand (line : Int) (s : State) : Reply :=
  if 1 ≤ line ∧ breakpointOfLine line ∈ s.breakpoints then
    ⟨{ s with breakpoints := s.breakpoints.filter (fun b => b != breakpointOfLine line) }, .breakCleared, []⟩
  else ⟨s, .noBreakpointSet, []⟩

/-! ## Inspection (R245, R246) -/

/-- The 32 pairs (name, value) in index order (R245; the names are log entry 12). -/
def State.registerPairs (s : State) : List (Text × Word) :=
  (List.finRange 32).map (fun r => (aliasNames.getD r.val [], s.readReg r))

/-- The command `regs` (R245). -/
def regsCommand (s : State) : Reply := ⟨s, .registers s.registerPairs, []⟩

/-- The `count` bytes from an address on. -/
def State.bytesFrom (s : State) (addr count : Nat) : List Byte :=
  (List.range count).map (fun k => s.readByte (addr + k))

/-- The command `mem` (R246; 20_memory.md R69). -/
def memCommand (addr count : Int) (s : State) : Reply :=
  if 0 ≤ addr ∧ 0 ≤ count ∧ addr + count ≤ s.cfg.memSize then
    ⟨s, .bytes (s.bytesFrom addr.toNat count.toNat), []⟩
  else ⟨s, .outOfBounds, []⟩

/-! ## The command interface (R230, R248) -/

/-- One command, performed completely; `fuel` bounds the instructions of a `run` (R240). -/
def command (fuel : Nat) (c : Command) (s : State) : CommandResult :=
  match c with
  | .load request => .replied (loadCommand request s)
  | .run => runCommand fuel s
  | .step => .replied (stepCommand s)
  | .regs => .replied (regsCommand s)
  | .mem addr count => .replied (memCommand addr count s)
  | .setBreak line => .replied (setBreakCommand line s)
  | .delBreak line => .replied (delBreakCommand line s)

/-- A sequence of commands, one reply each, each run with the same fuel; it ends early where a run is out of fuel. -/
def session (fuel : Nat) : List Command → State → List CommandResult
  | [], _ => []
  | c :: cs, s =>
    match command fuel c s with
    | .replied r => .replied r :: session fuel cs r.state
    | .outOfFuel t tr => [.outOfFuel t tr]

end Sys2Proof.Machine
end

