-- ==== Sys2Proof/Safety.lean ====
section
/-! DEFINITION. The terms claims use: what an instruction leaves unchanged, the invariant of the state, and what a safe run is. -/

namespace Sys2Proof.Machine

/-! ## Frames -/

/-- Every byte of memory reads as before. -/
def SameMemory (s t : State) : Prop := ∀ a : Nat, t.readByte a = s.readByte a

/-- Every register reads as before. -/
def SameRegisters (s t : State) : Prop := ∀ r : Reg, t.readReg r = s.readReg r

/-- The parameters, the program store, the label table, the breakpoint set and the fault latch are as before: no
instruction writes them (10_state.md R30, R31, R34, R36; 20_memory.md R66). -/
def SameControl (s t : State) : Prop :=
  t.cfg = s.cfg ∧ t.prog = s.prog ∧ t.labels = s.labels ∧ t.breakpoints = s.breakpoints ∧ t.flt = s.flt

/-- Register `rd` was written with `v`, and nothing else of the register file changed. What a hard-wired register 0 reads
is said of all instructions at once, in `Obligations.HardwiredRegisterZero` (10_state.md R22, the spec's decision D7). -/
def RegisterSet (s t : State) (rd : Reg) (v : Word) : Prop :=
  (¬(s.cfg.x0Hardwired = true ∧ rd = 0) → t.readReg rd = v) ∧ ∀ r : Reg, r ≠ rd → t.readReg r = s.readReg r

/-- The whole effect of an instruction with one destination register and no jump: the write, `pc + 4`, nothing else. -/
def WritesOnly (s t : State) (rd : Reg) (v : Word) : Prop :=
  RegisterSet s t rd v ∧ t.pc = s.pc + 4 ∧ SameMemory s t ∧ SameControl s t

/-- The whole effect of an instruction that only sets pc. -/
def SetsOnlyPc (s t : State) (target : Word) : Prop :=
  t.pc = target ∧ SameRegisters s t ∧ SameMemory s t ∧ SameControl s t

/-- The whole effect of a store of the low `n` bytes of `v` at address `a`, little-endian (20_memory.md R51, R53). -/
def StoresOnly (s t : State) (a : Nat) (n : Nat) (v : Word) : Prop :=
  (∀ k : Nat, k < n → t.readByte (a + k) = v.extractLsb' (8 * k) 8) ∧
  (∀ x : Nat, x < a ∨ a + n ≤ x → t.readByte x = s.readByte x) ∧
  t.pc = s.pc + 4 ∧ SameRegisters s t ∧ SameControl s t

/-- The instruction completes, and the next state satisfies `P`. -/
def Completes (o : Host.Outcome State Fault Refusal) (P : State → Prop) : Prop := ∃ t : State, o = .next t ∧ P t

/-! ## Which instructions do what (00_scope.md R2) -/

/-- The families of the opcode table. -/
inductive Family where
  | registerAlu
  | immediateAlu
  | load
  | store
  | branch
  | jump
  | upper
  deriving DecidableEq, Repr

/-- The family of an instruction. -/
def familyOf : Instr → Family
  | .add _ _ _ | .sub _ _ _ | .and _ _ _ | .or _ _ _ | .xor _ _ _ | .sll _ _ _ | .srl _ _ _ | .sra _ _ _ | .slt _ _ _ | .sltu _ _ _ => .registerAlu
  | .addi _ _ _ | .andi _ _ _ | .ori _ _ _ | .xori _ _ _ | .slli _ _ _ | .srli _ _ _ | .srai _ _ _ => .immediateAlu
  | .ld _ _ _ | .lw _ _ _ | .lh _ _ _ | .lb _ _ _ | .lwu _ _ _ | .lhu _ _ _ | .lbu _ _ _ => .load
  | .sd _ _ _ | .sw _ _ _ | .sh _ _ _ | .sb _ _ _ => .store
  | .beq _ _ _ | .bne _ _ _ | .blt _ _ _ | .bge _ _ _ | .bgeu _ _ _ | .bltu _ _ _ => .branch
  | .jal _ _ | .jalr _ _ _ => .jump
  | .lui _ _ => .upper

/-! ## Forms of the statements about instructions -/

/-- Every word of a row of the opcode table decodes to this instruction (30_encoding.md R97). -/
def RowDecodes (mask pattern : InstWord) (mk : InstWord → Instr) : Prop :=
  ∀ w : InstWord, w &&& mask = pattern → decodeWord w = .instr (mk w)

/-- A register-register instruction completes from every state with every operand, writes to rd the value `v` that
`result a b v` fixes, where `a` and `b` are the sources before the instruction, and does nothing else. -/
def RegisterResult (mk : Reg → Reg → Reg → Instr) (result : Word → Word → Word → Prop) : Prop :=
  ∀ (s : State) (rd rs1 rs2 : Reg), ∃ v : Word, result (s.readReg rs1) (s.readReg rs2) v ∧
    Completes (exec (mk rd rs1 rs2) s) (fun t => WritesOnly s t rd v)

/-- The same for a register-immediate instruction, with the immediate as second operand. -/
def ImmediateResult (mk : Reg → Reg → Word → Instr) (result : Word → Word → Word → Prop) : Prop :=
  ∀ (s : State) (rd rs1 : Reg) (imm : Word), ∃ v : Word, result (s.readReg rs1) imm v ∧
    Completes (exec (mk rd rs1 imm) s) (fun t => WritesOnly s t rd v)

/-- An n-byte access at address `a` is in bounds (20_memory.md R54). -/
def InMemory (s : State) (a : Word) (n : Nat) : Prop := 0 ≤ a.toInt ∧ a.toInt + n ≤ s.cfg.memSize

/-- The value `v` is the n bytes at address `a`, little-endian, with bit `8n - 1` copied above them if `signed`, and
zeros above them if not (20_memory.md R51, R52; 42_loads.md R168). -/
def ExtendedBytes (s : State) (a n : Nat) (signed : Bool) (v : Word) : Prop :=
  ∀ i : Nat, i < 64 → v.getLsbD i =
    if i < 8 * n then (s.readByte (a + i / 8)).getLsbD (i % 8)
    else signed && (s.readByte (a + (n - 1))).getLsbD 7

/-- A load of n bytes: in bounds it completes with the extended value and no other effect, out of bounds it raises
`MemoryBounds(ea, n)` (42_loads.md R160). -/
def LoadResult (mk : Reg → Reg → Word → Instr) (n : Nat) (signed : Bool) : Prop :=
  ∀ (s : State) (rd rs1 : Reg) (off : Word),
    (InMemory s (s.readReg rs1 + off) n → ∃ v : Word, ExtendedBytes s (s.readReg rs1 + off).toNat n signed v ∧
      Completes (exec (mk rd rs1 off) s) (fun t => WritesOnly s t rd v)) ∧
    (¬InMemory s (s.readReg rs1 + off) n →
      exec (mk rd rs1 off) s = .fault (.memoryBounds (s.readReg rs1 + off) n))

/-- A store of n bytes: in bounds, over canonical memory, it completes with those bytes stored and no other effect, out of
bounds it raises `MemoryBounds(ea, n)` (43_stores.md R180). -/
def StoreResult (mk : Reg → Reg → Word → Instr) (n : Nat) : Prop :=
  ∀ (s : State) (rs2 rs1 : Reg) (off : Word),
    (Memory.wf s.mem = true → InMemory s (s.readReg rs1 + off) n →
      Completes (exec (mk rs2 rs1 off) s)
        (fun t => StoresOnly s t (s.readReg rs1 + off).toNat n (s.readReg rs2))) ∧
    (¬InMemory s (s.readReg rs1 + off) n →
      exec (mk rs2 rs1 off) s = .fault (.memoryBounds (s.readReg rs1 + off) n))

/-- A branch: it completes from every state, sets pc to `pc + off` where the condition on the two sources holds and to
`pc + 4` where it does not, and does nothing else (44_branches.md R190). -/
def BranchResult (mk : Reg → Reg → Word → Instr) (cond : Word → Word → Prop) : Prop :=
  ∀ (s : State) (rs1 rs2 : Reg) (off : Word),
    (cond (s.readReg rs1) (s.readReg rs2) →
      Completes (exec (mk rs1 rs2 off) s) (fun t => SetsOnlyPc s t (s.pc + off))) ∧
    (¬cond (s.readReg rs1) (s.readReg rs2) →
      Completes (exec (mk rs1 rs2 off) s) (fun t => SetsOnlyPc s t (s.pc + 4)))

/-- The instruction is a branch whose condition holds (44_branches.md R191 to R196). -/
def BranchTaken (s : State) : Instr → Prop
  | .beq rs1 rs2 _ => s.readReg rs1 = s.readReg rs2
  | .bne rs1 rs2 _ => s.readReg rs1 ≠ s.readReg rs2
  | .blt rs1 rs2 _ => (s.readReg rs1).toInt < (s.readReg rs2).toInt
  | .bge rs1 rs2 _ => (s.readReg rs2).toInt ≤ (s.readReg rs1).toInt
  | .bgeu rs1 rs2 _ => (s.readReg rs2).toNat ≤ (s.readReg rs1).toNat
  | .bltu rs1 rs2 _ => (s.readReg rs1).toNat < (s.readReg rs2).toNat
  | .add _ _ _ | .sub _ _ _ | .and _ _ _ | .or _ _ _ | .xor _ _ _ | .sll _ _ _ | .srl _ _ _ | .sra _ _ _ | .slt _ _ _ | .sltu _ _ _
  | .addi _ _ _ | .andi _ _ _ | .ori _ _ _ | .xori _ _ _ | .slli _ _ _ | .srli _ _ _ | .srai _ _ _ | .ld _ _ _ | .lw _ _ _ | .lh _ _ _
  | .lb _ _ _ | .lwu _ _ _ | .lhu _ _ _ | .lbu _ _ _ | .sd _ _ _ | .sw _ _ _ | .sh _ _ _ | .sb _ _ _ | .jalr _ _ _
  | .jal _ _ | .lui _ _ => False

/-- The destination register of an instruction (10_state.md R25); `jalr` has none where rd is 0 (45_jumps.md R212). -/
def destination : Instr → Option Reg
  | .add rd _ _ | .sub rd _ _ | .and rd _ _ | .or rd _ _ | .xor rd _ _ | .sll rd _ _ | .srl rd _ _ | .sra rd _ _ | .slt rd _ _ | .sltu rd _ _ => some rd
  | .addi rd _ _ | .andi rd _ _ | .ori rd _ _ | .xori rd _ _ | .slli rd _ _ | .srli rd _ _ | .srai rd _ _ => some rd
  | .ld rd _ _ | .lw rd _ _ | .lh rd _ _ | .lb rd _ _ | .lwu rd _ _ | .lhu rd _ _ | .lbu rd _ _ => some rd
  | .jalr rd _ _ => if rd = 0 then none else some rd
  | .jal rd _ | .lui rd _ => some rd
  | .sd _ _ _ | .sw _ _ _ | .sh _ _ _ | .sb _ _ _ => none
  | .beq _ _ _ | .bne _ _ _ | .blt _ _ _ | .bge _ _ _ | .bgeu _ _ _ | .bltu _ _ _ => none

/-- The data memory access of an instruction: its address and its width in bytes (42_loads.md R160; 43_stores.md R180). -/
def accessOf (s : State) : Instr → Option (Word × Nat)
  | .ld _ rs1 off | .sd _ rs1 off => some (s.readReg rs1 + off, 8)
  | .lw _ rs1 off | .lwu _ rs1 off | .sw _ rs1 off => some (s.readReg rs1 + off, 4)
  | .lh _ rs1 off | .lhu _ rs1 off | .sh _ rs1 off => some (s.readReg rs1 + off, 2)
  | .lb _ rs1 off | .lbu _ rs1 off | .sb _ rs1 off => some (s.readReg rs1 + off, 1)
  | .add _ _ _ | .sub _ _ _ | .and _ _ _ | .or _ _ _ | .xor _ _ _ | .sll _ _ _ | .srl _ _ _ | .sra _ _ _ | .slt _ _ _ | .sltu _ _ _
  | .addi _ _ _ | .andi _ _ _ | .ori _ _ _ | .xori _ _ _ | .slli _ _ _ | .srli _ _ _ | .srai _ _ _
  | .beq _ _ _ | .bne _ _ _ | .blt _ _ _ | .bge _ _ _ | .bgeu _ _ _ | .bltu _ _ _ | .jal _ _ | .jalr _ _ _ | .lui _ _ => none

/-! ## The invariant of the state -/

/-- The breakpoint set in canonical form: strictly rising, each member `4 * k` with `k < PROG_LEN` (10_state.md R34). -/
def breakpointsWf (progLen : Nat) (bs : List Nat) : Prop :=
  bs.Pairwise (fun a b => a < b) ∧ ∀ b ∈ bs, b % 4 = 0 ∧ b < 4 * progLen

/-- A fault report describes a cycle over this program store (60_exceptions.md R260): a fetch fault records the pc it is
about and no element, every other fault the element in the slot of its pc, which is also the raw text or word of its info. -/
def FaultReport.describes (r : FaultReport) (prog : List Source) : Prop :=
  match r.cause with
  | .pcOutOfRange p => p = r.pc ∧ r.pc.toInt < 0 ∧ r.instr = none
  | .pcMisaligned p => p = r.pc ∧ r.pc.extractLsb' 0 2 ≠ 0 ∧ r.instr = none
  | .unknownOpcode raw => r.instr = some raw ∧ prog[r.pc.toNat / 4]? = some raw
  | .malformedImmediate raw | .unknownRegister raw | .unresolvedTarget raw =>
    r.instr = some (.text raw) ∧ prog[r.pc.toNat / 4]? = some (.text raw)
  | .memoryBounds _ _ => ∃ src : Source, r.instr = some src ∧ prog[r.pc.toNat / 4]? = some src

/-- The invariant: what the spec says of every state the machine can be in. -/
structure State.Inv (s : State) : Prop where
  /-- `DATA_BASE <= MEM_SIZE` (00_scope.md R9). -/
  config : s.cfg.dataBase ≤ s.cfg.memSize
  /-- Memory keeps its canonical form. -/
  canonical : Memory.wf s.mem = true
  /-- No byte exists at or above `MEM_SIZE` (20_memory.md R50, R60). -/
  bounded : Memory.within s.mem s.cfg.memSize = true
  /-- The breakpoint set (10_state.md R34). -/
  breakpoints : breakpointsWf s.prog.length s.breakpoints
  /-- Label names are unique (10_state.md R31). -/
  labels : (s.labels.map (fun l => l.1)).Nodup
  /-- The latch describes a fault of the loaded program (10_state.md R37). -/
  latch : ∀ r : FaultReport, s.flt = some r → r.describes s.prog

/-- The state a command leaves, or the one it stands in when it is out of fuel. -/
def CommandResult.finalState : CommandResult → State
  | .replied r => r.state
  | .outOfFuel s _ => s

/-- A command is a load. -/
def Command.isLoad : Command → Bool
  | .load _ => true
  | .run | .step | .regs | .mem _ _ | .setBreak _ | .delBreak _ => false

/-! ## Safe runs -/

/-- `k` steps run without a fault (60_exceptions.md R267: a claim about a program takes "no fault" as premise or
conclusion). -/
def SafeRun (k : Nat) (s : State) : Prop := ∃ t : State, Sys2Proof.core.run k s = .next t

end Sys2Proof.Machine
end

