-- ==== Sys2Proof/Certificates/Slice0/Obligations.lean ====
section
/-! DEFINITION. The statements for the provers. Each docstring names the rule of spec/ it formalises; where a clause rests on a decision the spec marks as its own, it says which. -/

open Sys2Proof Sys2Proof.Machine

/-! ## Encoding (30_encoding.md) -/

/-- Words written out from the encodings of 30_encoding.md R82 to R96 (the spec's decision D2), one or more per family,
decode to the instructions they stand for, and the neighbours of R98 to `Unknown`. -/
def Obligations.SampleWordsDecode : Prop :=
  decodeWord 0b0000000_01011_01010_000_01100_0110011#32 = .instr (.add 12 10 11) ∧
  decodeWord 0b0100000_00110_00101_101_00111_0110011#32 = .instr (.sra 7 5 6) ∧
  decodeWord 0b111111111111_01010_000_01010_0010011#32 = .instr (.addi 10 10 (-1)) ∧
  decodeWord 0b000000_101000_00101_001_00111_0010011#32 = .instr (.slli 7 5 40) ∧
  decodeWord 0b111111111000_00010_011_01011_0000011#32 = .instr (.ld 11 2 (-8)) ∧
  decodeWord 0b1111111_01010_00010_011_11000_0100011#32 = .instr (.sd 10 2 (-8)) ∧
  decodeWord 0b1111111_00000_01010_001_11101_1100011#32 = .instr (.bne 10 0 (-4)) ∧
  decodeWord 0b1_1111111100_1_11111111_00000_1101111#32 = .instr (.jal 0 (-8)) ∧
  decodeWord 0b000000000100_00101_000_00001_1100111#32 = .instr (.jalr 1 5 4) ∧
  decodeWord 0b10000000000000000000_00101_0110111#32 = .instr (.lui 5 0x80000) ∧
  decodeWord 0x00000073#32 = .unknown (.word 0x00000073#32) ∧
  decodeWord 0x026283B3#32 = .unknown (.word 0x026283B3#32) ∧
  decodeWord 0x0800D393#32 = .unknown (.word 0x0800D393#32)

/-- Decoding the encoded word of a well-formed instruction gives it back, for every instruction and every operand
(30_encoding.md R101, which the spec derives from its decisions D2 and D3). -/
def Obligations.DecodeOfEncodeIsIdentity : Prop :=
  ∀ i : Instr, i.wellFormed = true → decodeWord (encode i) = .instr i

/-- Encoding what a word decodes to gives the word back, so no bit of a decodable word is dropped, and what is decoded is
well-formed (30_encoding.md R97, R101; decisions D2, D3, D5). -/
def Obligations.EncodeOfDecodeIsIdentity : Prop :=
  ∀ (w : InstWord) (i : Instr), decodeWord w = .instr i → encode i = w ∧ i.wellFormed = true

/-- The correspondence of the two forms (30_encoding.md R101, the spec's decision D3; even branch offsets are the model's log
entry 16, the 6 bits kept of a shift immediate its log entry 17): an instruction has a word if and only if its fields fit
once its shift immediate is reduced, every shift then does, decoding the encoded word gives the instruction back up to that
reduction, and the reduction, to 6 bits or to 5, changes nothing of what the instruction does. -/
def Obligations.BinaryFormUpToShiftReduction : Prop :=
  (∀ i : Instr, i.hasWord = true ↔ ∃ w : InstWord, decodeWord w = .instr i.reduced) ∧
  (∀ i : Instr, i.hasWord = true → decodeWord (encode i) = .instr i.reduced) ∧
  (∀ i : Instr, i.wellFormed = true → i.hasWord = true ∧ i.reduced = i) ∧
  (∀ (rd rs1 : Reg) (imm : Word) (mk : Reg → Reg → Word → Instr), mk ∈ [Instr.slli, .srli, .srai] →
    (mk rd rs1 imm).hasWord = true ∧ (mk rd rs1 imm).reduced = mk rd rs1 (imm &&& 63) ∧
      ∀ s : State, exec (mk rd rs1 (imm &&& 31)) s = exec (mk rd rs1 imm) s) ∧
  (∀ (i : Instr) (s : State), exec i.reduced s = exec i s)

/-- The decoder follows the opcode table: a word is decoded to an instruction of the row that covers it, with the row's
mnemonic, and it is `Unknown` exactly if no row covers it (30_encoding.md R97, R98, derived from R90 to R96). -/
def Obligations.DecoderFollowsOpcodeTable : Prop :=
  ∀ w : InstWord,
    (∀ r ∈ opcodeTable, r.covers w = true → ∃ i : Instr, decodeWord w = .instr i ∧ i.mnemonic = r.mnemonic) ∧
    (decodeWord w = .unknown (.word w) ↔ ∀ r ∈ opcodeTable, r.covers w = false)

/-- No two rows of the opcode table overlap (30_encoding.md R97). -/
def Obligations.OpcodeRowsAreDisjoint : Prop :=
  opcodeTable.length = 37 ∧
  ∀ (w : InstWord) (r q : OpcodeRow), r ∈ opcodeTable → q ∈ opcodeTable → r.covers w = true → q.covers w = true → r = q

/-! ## The textual form (30_encoding.md R100 to R109) -/

/-- Text lines decode as the vectors of 95_test_vectors.md sections 8 and 10 say (decision D23): the program-P3 line with a
label, and the defects X5, X6, X8, X10, X12, X13 and X4. -/
def Obligations.SampleLinesDecode : Prop :=
  decodeText [("loop".toList, 3)] 0x1C "bne t1, x0, loop".toList = .instr (.bne 6 0 (-16)) ∧
  decodeText [] 0 "lui t0, 0x10".toList = .instr (.lui 5 0x10) ∧
  decodeText [] 0 "sd a0, -8(sp)".toList = .instr (.sd 10 2 (-8)) ∧
  decodeText [] 0 "addi a0, x0, 5x".toList = .malformed .immediate "addi a0, x0, 5x".toList ∧
  decodeText [] 0 "addi a0, q0, 5".toList = .malformed .register "addi a0, q0, 5".toList ∧
  decodeText [] 0 "bne a0, x0, nowhere".toList = .malformed .target "bne a0, x0, nowhere".toList ∧
  decodeText [] 0 "ld a0, (sp)".toList = .malformed .immediate "ld a0, (sp)".toList ∧
  decodeText [] 0 "add a0, a1".toList = .malformed .register "add a0, a1".toList ∧
  decodeText [] 0 "add a0, a1, a2, a3".toList = .malformed .immediate "add a0, a1, a2, a3".toList ∧
  decodeText [] 0 "frob q9, 12(zz)".toList = .unknown (.text "frob q9, 12(zz)".toList)

/-- The register names (10_state.md R21, 30_encoding.md R104): each row of the table of R21, written out, has its alias and
its numeric name on the same index; `fp`, an index above 31 and an index with a leading zero name no register. The table
beyond a2 = 12 is the spec's decision D24. -/
def Obligations.RegisterNamesAgree : Prop :=
  (∀ row ∈ (
      [ (0, "zero", "x0"), (1, "ra", "x1"), (2, "sp", "x2"), (3, "gp", "x3")
      , (4, "tp", "x4"), (5, "t0", "x5"), (6, "t1", "x6"), (7, "t2", "x7")
      , (8, "s0", "x8"), (9, "s1", "x9"), (10, "a0", "x10"), (11, "a1", "x11")
      , (12, "a2", "x12"), (13, "a3", "x13"), (14, "a4", "x14"), (15, "a5", "x15")
      , (16, "a6", "x16"), (17, "a7", "x17"), (18, "s2", "x18"), (19, "s3", "x19")
      , (20, "s4", "x20"), (21, "s5", "x21"), (22, "s6", "x22"), (23, "s7", "x23")
      , (24, "s8", "x24"), (25, "s9", "x25"), (26, "s10", "x26"), (27, "s11", "x27")
      , (28, "t3", "x28"), (29, "t4", "x29"), (30, "t5", "x30"), (31, "t6", "x31") ] : List (Reg × String × String)),
    registerNamed row.2.1.toList = some row.1 ∧ registerNamed row.2.2.toList = some row.1) ∧
  registerNamed "fp".toList = none ∧ registerNamed "x32".toList = none ∧ registerNamed "x01".toList = none

/-- A literal's value fits a signed 64-bit integer, so the decoded 64-bit immediate has that value (30_encoding.md R105;
decisions D3, D23). -/
def Obligations.LiteralsAreSigned64 : Prop :=
  ∀ (t : Text) (n : Int), parseLiteral t = some n →
    -(2 : Int) ^ 63 ≤ n ∧ n < (2 : Int) ^ 63 ∧ parseImmediate t = .ok (BitVec.ofInt 64 n) ∧
      (BitVec.ofInt 64 n).toInt = n

/-- The target law (44_branches.md R197): for a textual target at program-counter value p, a label with index k leads to
`4k` whatever p is, before any literal is tried (30_encoding.md R107); an integer N leads to `p + 4N`, so 0 is the branch
itself and 1 the fall-through address; and a branch with that offset, when taken, sets pc to that target. -/
def Obligations.BranchTargetLaw : Prop :=
  ∀ (labels : LabelTable) (p : Word) (tok : Text),
    (∀ k : Nat, labels.lookup tok = some k →
      ∃ off : Word, resolveTarget labels p tok = .ok off ∧ p + off = BitVec.ofNat 64 (4 * k)) ∧
    (∀ n : Int, labels.lookup tok = none → parseLiteral tok = some n →
      ∃ off : Word, resolveTarget labels p tok = .ok off ∧ p + off = p + BitVec.ofInt 64 (4 * n) ∧
        (n = 0 → p + off = p) ∧ (n = 1 → p + off = p + 4)) ∧
    (labels.lookup tok = none → parseLiteral tok = none → resolveTarget labels p tok = .error .target) ∧
    (∀ (s : State) (i : Instr) (rs1 rs2 : Reg) (off : Word),
      i ∈ [Instr.beq rs1 rs2 off, .bne rs1 rs2 off, .blt rs1 rs2 off, .bge rs1 rs2 off, .bgeu rs1 rs2 off,
        .bltu rs1 rs2 off] →
      BranchTaken s i → Completes (exec i s) (fun t => t.pc = s.pc + off))

/-- Decoding an element when it is executed gives the decoded instruction that the program store holds for its slot
(10_state.md R30: "each element is a decoded instruction"; 30_encoding.md R108, decision D19; the model's log entry 4). -/
def Obligations.DecodingAtExecutionAgreesWithStore : Prop :=
  ∀ (s : State) (src : Source), s.fetch = .element src →
    (decodedFrom s.labels 0 s.prog)[s.pc.toNat / 4]? = some (decodeSource s.labels s.pc src) ∧
      execSource src s = execDecoded (decodeSource s.labels s.pc src) s

/-! ## Register-register instructions (40_alu_register.md) -/

/-- `add` and `sub` wrap modulo 2^64 (R121, R122), from every state, with no fault and no other effect. -/
def Obligations.AddAndSubWrap : Prop :=
  RowDecodes 0xFE00707F 0x00000033 (fun w => .add (rdOf w) (rs1Of w) (rs2Of w)) ∧
  RegisterResult .add (fun a b v => v.toNat = (a.toNat + b.toNat) % 2 ^ 64) ∧
  RowDecodes 0xFE00707F 0x40000033 (fun w => .sub (rdOf w) (rs1Of w) (rs2Of w)) ∧
  RegisterResult .sub (fun a b v => (v.toNat + b.toNat) % 2 ^ 64 = a.toNat)

/-- `and`, `or` and `xor` are bitwise over 64 bits (R123, R124, R125). -/
def Obligations.LogicIsBitwise : Prop :=
  RowDecodes 0xFE00707F 0x00007033 (fun w => .and (rdOf w) (rs1Of w) (rs2Of w)) ∧
  RegisterResult .and (fun a b v => ∀ i : Nat, i < 64 → v.getLsbD i = (a.getLsbD i && b.getLsbD i)) ∧
  RowDecodes 0xFE00707F 0x00006033 (fun w => .or (rdOf w) (rs1Of w) (rs2Of w)) ∧
  RegisterResult .or (fun a b v => ∀ i : Nat, i < 64 → v.getLsbD i = (a.getLsbD i || b.getLsbD i)) ∧
  RowDecodes 0xFE00707F 0x00004033 (fun w => .xor (rdOf w) (rs1Of w) (rs2Of w)) ∧
  RegisterResult .xor (fun a b v => ∀ i : Nat, i < 64 → v.getLsbD i = (a.getLsbD i ^^ b.getLsbD i))

/-- `sll` and `sra` shift all 64 bits by the low 5 bits of the shift source (R126, R128): `sll` multiplies by 2^sh modulo
2^64, `sra` divides the signed value by 2^sh, rounding down. -/
def Obligations.SllAndSraShiftByFiveBits : Prop :=
  RowDecodes 0xFE00707F 0x00001033 (fun w => .sll (rdOf w) (rs1Of w) (rs2Of w)) ∧
  RegisterResult .sll (fun a b v => v.toNat = a.toNat * 2 ^ (b.toNat % 32) % 2 ^ 64) ∧
  RowDecodes 0xFE00707F 0x40005033 (fun w => .sra (rdOf w) (rs1Of w) (rs2Of w)) ∧
  RegisterResult .sra (fun a b v => v.toInt = a.toInt / 2 ^ (b.toNat % 32))

/-- `srl` and `srli` shift the low 32 bits, taken as unsigned, by 5 bits of amount (R127; 41_alu_immediate.md R146). The
zero extension of the result is the spec's own decision D14. -/
def Obligations.SrlTruncatesTo32Bits : Prop :=
  RowDecodes 0xFE00707F 0x00005033 (fun w => .srl (rdOf w) (rs1Of w) (rs2Of w)) ∧
  RegisterResult .srl (fun a b v => v.toNat = a.toNat % 2 ^ 32 / 2 ^ (b.toNat % 32)) ∧
  RowDecodes 0xFC00707F 0x00005013 (fun w => .srli (rdOf w) (rs1Of w) (immShift w)) ∧
  ImmediateResult .srli (fun a imm v => v.toNat = a.toNat % 2 ^ 32 / 2 ^ (imm.toNat % 32))

/-- `slt` compares signed 64-bit values, `sltu` the low 32 bits as unsigned (R129, R130); the result is 1 or 0. -/
def Obligations.SetLessThan : Prop :=
  RowDecodes 0xFE00707F 0x00002033 (fun w => .slt (rdOf w) (rs1Of w) (rs2Of w)) ∧
  RegisterResult .slt (fun a b v => v.toNat = if a.toInt < b.toInt then 1 else 0) ∧
  RowDecodes 0xFE00707F 0x00003033 (fun w => .sltu (rdOf w) (rs1Of w) (rs2Of w)) ∧
  RegisterResult .sltu (fun a b v => v.toNat = if a.toNat % 2 ^ 32 < b.toNat % 2 ^ 32 then 1 else 0)

/-! ## Register-immediate instructions (41_alu_immediate.md) -/

/-- `addi`, `andi`, `ori` and `xori` with the immediate as a 64-bit value (R141 to R144). -/
def Obligations.ImmediateArithmeticAndLogic : Prop :=
  RowDecodes 0x0000707F 0x00000013 (fun w => .addi (rdOf w) (rs1Of w) (immI w)) ∧
  ImmediateResult .addi (fun a imm v => v.toNat = (a.toNat + imm.toNat) % 2 ^ 64) ∧
  RowDecodes 0x0000707F 0x00007013 (fun w => .andi (rdOf w) (rs1Of w) (immI w)) ∧
  ImmediateResult .andi (fun a imm v => ∀ i : Nat, i < 64 → v.getLsbD i = (a.getLsbD i && imm.getLsbD i)) ∧
  RowDecodes 0x0000707F 0x00006013 (fun w => .ori (rdOf w) (rs1Of w) (immI w)) ∧
  ImmediateResult .ori (fun a imm v => ∀ i : Nat, i < 64 → v.getLsbD i = (a.getLsbD i || imm.getLsbD i)) ∧
  RowDecodes 0x0000707F 0x00004013 (fun w => .xori (rdOf w) (rs1Of w) (immI w)) ∧
  ImmediateResult .xori (fun a imm v => ∀ i : Nat, i < 64 → v.getLsbD i = (a.getLsbD i ^^ imm.getLsbD i))

/-- `slli` and `srai` shift all 64 bits by the immediate modulo 32 (R145, R147). -/
def Obligations.SlliAndSraiShiftByFiveBits : Prop :=
  RowDecodes 0xFC00707F 0x00001013 (fun w => .slli (rdOf w) (rs1Of w) (immShift w)) ∧
  ImmediateResult .slli (fun a imm v => v.toNat = a.toNat * 2 ^ (imm.toNat % 32) % 2 ^ 64) ∧
  RowDecodes 0xFC00707F 0x40005013 (fun w => .srai (rdOf w) (rs1Of w) (immShift w)) ∧
  ImmediateResult .srai (fun a imm v => v.toInt = a.toInt / 2 ^ (imm.toNat % 32))

/-- Each register-immediate instruction does exactly what the register-register instruction of its name does with the
immediate in place of the second source (R140). -/
def Obligations.ImmediateFormsMatchRegisterForms : Prop :=
  ∀ (s : State) (rd rs1 rs2 : Reg),
    exec (.addi rd rs1 (s.readReg rs2)) s = exec (.add rd rs1 rs2) s ∧
    exec (.andi rd rs1 (s.readReg rs2)) s = exec (.and rd rs1 rs2) s ∧
    exec (.ori rd rs1 (s.readReg rs2)) s = exec (.or rd rs1 rs2) s ∧
    exec (.xori rd rs1 (s.readReg rs2)) s = exec (.xor rd rs1 rs2) s ∧
    exec (.slli rd rs1 (s.readReg rs2)) s = exec (.sll rd rs1 rs2) s ∧
    exec (.srli rd rs1 (s.readReg rs2)) s = exec (.srl rd rs1 rs2) s ∧
    exec (.srai rd rs1 (s.readReg rs2)) s = exec (.sra rd rs1 rs2) s

/-! ## Loads and stores (42_loads.md, 43_stores.md) -/

/-- `lw`, `lh` and `lb` read 4, 2 and 1 bytes little-endian at `x[rs1] + off` and sign-extend; out of bounds they raise
`MemoryBounds(ea, n)` (R162, R163, R164). -/
def Obligations.SignedLoads : Prop :=
  RowDecodes 0x0000707F 0x00002003 (fun w => .lw (rdOf w) (rs1Of w) (immI w)) ∧ LoadResult .lw 4 true ∧
  RowDecodes 0x0000707F 0x00001003 (fun w => .lh (rdOf w) (rs1Of w) (immI w)) ∧ LoadResult .lh 2 true ∧
  RowDecodes 0x0000707F 0x00000003 (fun w => .lb (rdOf w) (rs1Of w) (immI w)) ∧ LoadResult .lb 1 true

/-- `ld` reads 8 bytes, and `lwu`, `lhu` and `lbu` read 4, 2 and 1 bytes and zero-extend (R161, R165, R166, R167). -/
def Obligations.UnsignedLoads : Prop :=
  RowDecodes 0x0000707F 0x00003003 (fun w => .ld (rdOf w) (rs1Of w) (immI w)) ∧ LoadResult .ld 8 false ∧
  RowDecodes 0x0000707F 0x00006003 (fun w => .lwu (rdOf w) (rs1Of w) (immI w)) ∧ LoadResult .lwu 4 false ∧
  RowDecodes 0x0000707F 0x00005003 (fun w => .lhu (rdOf w) (rs1Of w) (immI w)) ∧ LoadResult .lhu 2 false ∧
  RowDecodes 0x0000707F 0x00004003 (fun w => .lbu (rdOf w) (rs1Of w) (immI w)) ∧ LoadResult .lbu 1 false

/-- `sd`, `sw`, `sh` and `sb` write the low 8, 4, 2 and 1 bytes of x[rs2] little-endian at `x[rs1] + off`, and no other
byte; out of bounds they raise `MemoryBounds(ea, n)` (R181 to R184). -/
def Obligations.StoresWriteTheirBytes : Prop :=
  RowDecodes 0x0000707F 0x00003023 (fun w => .sd (rs2Of w) (rs1Of w) (immS w)) ∧ StoreResult .sd 8 ∧
  RowDecodes 0x0000707F 0x00002023 (fun w => .sw (rs2Of w) (rs1Of w) (immS w)) ∧ StoreResult .sw 4 ∧
  RowDecodes 0x0000707F 0x00001023 (fun w => .sh (rs2Of w) (rs1Of w) (immS w)) ∧ StoreResult .sh 2 ∧
  RowDecodes 0x0000707F 0x00000023 (fun w => .sb (rs2Of w) (rs1Of w) (immS w)) ∧ StoreResult .sb 1

/-- The round-trip law (43_stores.md R185, which the spec derives): in bounds, a store completes, and a load of the same
width at the same address then completes with the value stored, or with the extension of its low bits. Register `rd` is
not a hard-wired register 0. -/
def Obligations.StoreThenLoadRoundTrip : Prop :=
  ∀ (s : State) (rs2 rs1 rd : Reg) (off : Word), Memory.wf s.mem = true → ¬(s.cfg.x0Hardwired = true ∧ rd = 0) →
    (InMemory s (s.readReg rs1 + off) 8 → Completes (exec (.sd rs2 rs1 off) s) (fun t =>
      Completes (exec (.ld rd rs1 off) t) (fun u => u.readReg rd = s.readReg rs2))) ∧
    (InMemory s (s.readReg rs1 + off) 4 → Completes (exec (.sw rs2 rs1 off) s) (fun t =>
      Completes (exec (.lw rd rs1 off) t) (fun u => u.readReg rd = ((s.readReg rs2).extractLsb' 0 32).signExtend 64) ∧
      Completes (exec (.lwu rd rs1 off) t) (fun u => u.readReg rd = ((s.readReg rs2).extractLsb' 0 32).setWidth 64))) ∧
    (InMemory s (s.readReg rs1 + off) 2 → Completes (exec (.sh rs2 rs1 off) s) (fun t =>
      Completes (exec (.lh rd rs1 off) t) (fun u => u.readReg rd = ((s.readReg rs2).extractLsb' 0 16).signExtend 64) ∧
      Completes (exec (.lhu rd rs1 off) t) (fun u => u.readReg rd = ((s.readReg rs2).extractLsb' 0 16).setWidth 64))) ∧
    (InMemory s (s.readReg rs1 + off) 1 → Completes (exec (.sb rs2 rs1 off) s) (fun t =>
      Completes (exec (.lb rd rs1 off) t) (fun u => u.readReg rd = ((s.readReg rs2).extractLsb' 0 8).signExtend 64) ∧
      Completes (exec (.lbu rd rs1 off) t) (fun u => u.readReg rd = ((s.readReg rs2).extractLsb' 0 8).setWidth 64)))

/-- Mixed widths (20_memory.md R68, which the spec derives): after a doubleword is stored at address a, a narrower load
inside it sees exactly the bytes there, at any alignment. The narrower access is itself in bounds: it always is where
`MEM_SIZE` is at most 2^63. -/
def Obligations.NarrowLoadsSeeStoredBytes : Prop :=
  ∀ (s : State) (rs2 rs1 rd : Reg) (off : Word) (k : Nat), Memory.wf s.mem = true →
    ¬(s.cfg.x0Hardwired = true ∧ rd = 0) → InMemory s (s.readReg rs1 + off) 8 →
    Completes (exec (.sd rs2 rs1 off) s) (fun t =>
      (k + 4 ≤ 8 → InMemory s (s.readReg rs1 + (off + BitVec.ofNat 64 k)) 4 →
        Completes (exec (.lwu rd rs1 (off + BitVec.ofNat 64 k)) t) (fun u =>
          u.readReg rd = ((s.readReg rs2).extractLsb' (8 * k) 32).setWidth 64) ∧
        Completes (exec (.lw rd rs1 (off + BitVec.ofNat 64 k)) t) (fun u =>
          u.readReg rd = ((s.readReg rs2).extractLsb' (8 * k) 32).signExtend 64)) ∧
      (k + 2 ≤ 8 → InMemory s (s.readReg rs1 + (off + BitVec.ofNat 64 k)) 2 →
        Completes (exec (.lhu rd rs1 (off + BitVec.ofNat 64 k)) t) (fun u =>
          u.readReg rd = ((s.readReg rs2).extractLsb' (8 * k) 16).setWidth 64) ∧
        Completes (exec (.lh rd rs1 (off + BitVec.ofNat 64 k)) t) (fun u =>
          u.readReg rd = ((s.readReg rs2).extractLsb' (8 * k) 16).signExtend 64)) ∧
      (k + 1 ≤ 8 → InMemory s (s.readReg rs1 + (off + BitVec.ofNat 64 k)) 1 →
        Completes (exec (.lbu rd rs1 (off + BitVec.ofNat 64 k)) t) (fun u =>
          u.readReg rd = ((s.readReg rs2).extractLsb' (8 * k) 8).setWidth 64) ∧
        Completes (exec (.lb rd rs1 (off + BitVec.ofNat 64 k)) t) (fun u =>
          u.readReg rd = ((s.readReg rs2).extractLsb' (8 * k) 8).signExtend 64)))

/-! ## Branches, jumps, lui (44_branches.md, 45_jumps.md, 46_lui_and_unknown.md) -/

/-- `beq` and `bne` compare all 64 bits (R191, R192). -/
def Obligations.EqualityBranches : Prop :=
  RowDecodes 0x0000707F 0x00000063 (fun w => .beq (rs1Of w) (rs2Of w) (immB w)) ∧
  BranchResult .beq (fun a b => a.toNat = b.toNat) ∧
  RowDecodes 0x0000707F 0x00001063 (fun w => .bne (rs1Of w) (rs2Of w) (immB w)) ∧
  BranchResult .bne (fun a b => a.toNat ≠ b.toNat)

/-- `blt` and `bge` compare as signed 64-bit values, and one is taken exactly when the other is not (R193, R194). -/
def Obligations.SignedBranches : Prop :=
  RowDecodes 0x0000707F 0x00004063 (fun w => .blt (rs1Of w) (rs2Of w) (immB w)) ∧
  BranchResult .blt (fun a b => a.toInt < b.toInt) ∧
  RowDecodes 0x0000707F 0x00005063 (fun w => .bge (rs1Of w) (rs2Of w) (immB w)) ∧
  BranchResult .bge (fun a b => b.toInt ≤ a.toInt)

/-- `bgeu` and `bltu` compare as unsigned 64-bit values (R195, R196). The width of 64 bits is the spec's own decision D15
(R198), so the two can disagree with `sltu`: on 2^32 and 1, `sltu` writes 1 where `bltu` is not taken. -/
def Obligations.UnsignedBranches : Prop :=
  RowDecodes 0x0000707F 0x00007063 (fun w => .bgeu (rs1Of w) (rs2Of w) (immB w)) ∧
  BranchResult .bgeu (fun a b => b.toNat ≤ a.toNat) ∧
  RowDecodes 0x0000707F 0x00006063 (fun w => .bltu (rs1Of w) (rs2Of w) (immB w)) ∧
  BranchResult .bltu (fun a b => a.toNat < b.toNat)

/-- `jal` writes `pc + 4` to rd unconditionally (register 0 too, unless it is hard-wired) and jumps to `pc + off` (R211). -/
def Obligations.JalLinksAndJumps : Prop :=
  RowDecodes 0x0000007F 0x0000006F (fun w => .jal (rdOf w) (immJ w)) ∧
  ∀ (s : State) (rd : Reg) (off : Word), Completes (exec (.jal rd off) s) (fun t =>
    t.readReg rd = (if s.cfg.x0Hardwired = true ∧ rd = 0 then 0 else s.pc + 4) ∧
    (∀ r : Reg, r ≠ rd → t.readReg r = s.readReg r) ∧ t.pc = s.pc + off ∧ SameMemory s t ∧ SameControl s t)

/-- `jalr` jumps to the old `x[rs1] + off` with bit 0 cleared, and writes `pc + 4` to rd only if rd is not 0, whatever
`X0_HARDWIRED` is (R212). -/
def Obligations.JalrLinksAndJumps : Prop :=
  RowDecodes 0x0000707F 0x00000067 (fun w => .jalr (rdOf w) (rs1Of w) (immI w)) ∧
  ∀ (s : State) (rd rs1 : Reg) (off : Word), Completes (exec (.jalr rd rs1 off) s) (fun t =>
    t.pc.toNat = (s.readReg rs1 + off).toNat / 2 * 2 ∧ (rd = 0 → SameRegisters s t) ∧
    (rd ≠ 0 → t.readReg rd = s.pc + 4 ∧ ∀ r : Reg, r ≠ rd → t.readReg r = s.readReg r) ∧
    SameMemory s t ∧ SameControl s t)

/-- `lui` writes `imm << 12` modulo 2^64; in the binary form, where imm is zero-extended, the result is below 2^32
(R220; no sign extension from bit 31 is the spec's own decision D6). -/
def Obligations.LuiShiftsWithoutSignExtension : Prop :=
  RowDecodes 0x0000007F 0x00000037 (fun w => .lui (rdOf w) (immU w)) ∧
  (∀ w : InstWord, (immU w).toNat = w.toNat / 2 ^ 12) ∧
  ∀ (s : State) (rd : Reg) (imm : Word), ∃ v : Word,
    v.toNat = imm.toNat * 2 ^ 12 % 2 ^ 64 ∧ (imm.toNat < 2 ^ 20 → v.toNat = imm.toNat * 2 ^ 12 ∧ v.toNat < 2 ^ 32) ∧
      Completes (exec (.lui rd imm) s) (fun t => WritesOnly s t rd v)

/-! ## Unknown and malformed elements -/

/-- An unknown opcode (46_lui_and_unknown.md R222, the spec's decision D8): under `strict` the cycle raises
`UnknownOpcode(raw)`, under `permissive` it only advances pc by 4. -/
def Obligations.UnknownOpcodePolicies : Prop :=
  ∀ (s : State) (src raw : Source), s.fetch = .element src → decodeSource s.labels s.pc src = .unknown raw →
    (s.cfg.unknownPolicy = .strict → step s = .fault (.unknownOpcode raw)) ∧
    (s.cfg.unknownPolicy = .permissive → Completes (step s) (fun t => SetsOnlyPc s t (s.pc + 4)))

/-- Executing a `Malformed` element raises the fault named by its cause, under either policy, and the `step` command then
changes no register, no byte and not pc (46_lui_and_unknown.md R224). A word never decodes to one. -/
def Obligations.MalformedAlwaysFaults : Prop :=
  (∀ (s : State) (src : Source) (raw : Text), s.fetch = .element src →
    (decodeSource s.labels s.pc src = .malformed .register raw → step s = .fault (.unknownRegister raw)) ∧
    (decodeSource s.labels s.pc src = .malformed .immediate raw → step s = .fault (.malformedImmediate raw)) ∧
    (decodeSource s.labels s.pc src = .malformed .target raw → step s = .fault (.unresolvedTarget raw)) ∧
    (∀ cause : MalformedCause, decodeSource s.labels s.pc src = .malformed cause raw →
      SetsOnlyPc { s with flt := (stepCommand s).state.flt } (stepCommand s).state s.pc)) ∧
  (∀ (w : InstWord) (cause : MalformedCause) (raw : Text), decodeWord w ≠ .malformed cause raw)

/-! ## The execution cycle -/

/-- The four fetch cases in their order (10_state.md R27; the faults are the spec's decision D16): a negative pc, a pc not a
multiple of 4, a pc at or beyond the program, which is no fault and changes nothing, and a pc with an element. -/
def Obligations.FetchCases : Prop :=
  ∀ s : State,
    (s.pc.toInt < 0 → step s = .fault (.pcOutOfRange s.pc)) ∧
    (0 ≤ s.pc.toInt → s.pc.toNat % 4 ≠ 0 → step s = .fault (.pcMisaligned s.pc)) ∧
    (0 ≤ s.pc.toInt → s.pc.toNat % 4 = 0 → s.prog.length ≤ s.pc.toNat / 4 → step s = .next s) ∧
    (∀ src : Source, 0 ≤ s.pc.toInt → s.pc.toNat % 4 = 0 → s.prog[s.pc.toNat / 4]? = some src →
      step s = execDecoded (decodeSource s.labels s.pc src) s)

/-- A step runs the decoded instruction: where the slot of a non-negative, aligned pc holds an element, word or text line,
that decodes to an instruction, the step is `exec` of that instruction, with nothing around it (48_debug_controller.md
R235). -/
def Obligations.StepRunsDecodedInstruction : Prop :=
  ∀ (s : State) (src : Source) (i : Instr), 0 ≤ s.pc.toInt → s.pc.toNat % 4 = 0 →
    s.prog[s.pc.toNat / 4]? = some src → decodeSource s.labels s.pc src = .instr i → step s = exec i s

/-- An opcode-table word placed for the next fetch is what the next step runs, from every state; registers, memory, labels,
breakpoints, latch and parameters are untouched, and pc too unless it addressed no slot (the model's log entry 5). -/
def Obligations.PlacedWordRunsNext : Prop :=
  ∀ (s : State) (w : InstWord) (i : Instr), decodeTableWord 32 w.toNat = some i →
    step (s.withFetchWord 32 w.toNat) = exec i (s.withFetchWord 32 w.toNat) ∧
    (s.withFetchWord 32 w.toNat).regs = s.regs ∧ (s.withFetchWord 32 w.toNat).mem = s.mem ∧
    (s.withFetchWord 32 w.toNat).cfg = s.cfg ∧ (s.withFetchWord 32 w.toNat).labels = s.labels ∧
    (s.withFetchWord 32 w.toNat).breakpoints = s.breakpoints ∧ (s.withFetchWord 32 w.toNat).flt = s.flt ∧
    (s.withFetchWord 32 w.toNat).pc = if 0 ≤ s.pc.toInt ∧ s.pc.toNat % 4 = 0 then s.pc else 0

/-- The next-pc rule (10_state.md R28): every instruction but a taken branch, `jal` and `jalr` leaves pc at `pc + 4`, an
unknown opcode under the permissive policy too, and a faulting cycle leaves pc unchanged. -/
def Obligations.NextPcRule : Prop :=
  (∀ (s t : State) (i : Instr), exec i s = .next t → ¬BranchTaken s i → familyOf i ≠ .jump → t.pc = s.pc + 4) ∧
  (∀ (s t : State) (src raw : Source), s.fetch = .element src → decodeSource s.labels s.pc src = .unknown raw →
    s.cfg.unknownPolicy = .permissive → step s = .next t → t.pc = s.pc + 4) ∧
  (∀ (s : State) (f : Fault), step s = .fault f → (stepCommand s).state.pc = s.pc)

/-! ## Whole-machine rules -/

/-- Only a load changes what is fetched (20_memory.md R66): no instruction, no step and no other command changes the
program store or the label table. -/
def Obligations.ProgramStoreChangesOnlyByLoad : Prop :=
  (∀ (s t : State) (i : Instr), exec i s = .next t → t.prog = s.prog ∧ t.labels = s.labels) ∧
  (∀ s t : State, step s = .next t → t.prog = s.prog ∧ t.labels = s.labels) ∧
  (∀ (fuel : Nat) (c : Command) (s : State), c.isLoad = false →
    (command fuel c s).finalState.prog = s.prog ∧ (command fuel c s).finalState.labels = s.labels)

/-- An instruction changes no register but its destination, no byte unless it is a store, and neither breakpoints, latch nor
parameters (10_state.md R25, R34, R36). -/
def Obligations.OnlyDestinationsChange : Prop :=
  ∀ (s t : State) (i : Instr), exec i s = .next t →
    (∀ r : Reg, destination i ≠ some r → t.readReg r = s.readReg r) ∧
    (familyOf i ≠ .store → SameMemory s t) ∧ SameControl s t

/-- Register 0 under both settings of `X0_HARDWIRED` (10_state.md R22 to R24; the parameter is the spec's decision D7): hard-
wired it reads 0 and discards writes, otherwise it is an ordinary register. -/
def Obligations.RegisterZeroParameter : Prop :=
  ∀ (s : State) (v : Word),
    (s.cfg.x0Hardwired = true → s.readReg 0 = 0 ∧ s.writeReg 0 v = s) ∧
    (s.cfg.x0Hardwired = false → (s.writeReg 0 v).readReg 0 = v ∧ s.readReg 0 = s.regs[0]) ∧
    (∀ r : Reg, r ≠ 0 → (s.writeReg r v).readReg r = v ∧ s.readReg r = s.regs[r])

/-- A hard-wired register 0 (10_state.md R22, the spec's decision D7; 42_loads.md R160): it reads 0 after every instruction,
and an instruction whose destination it is completes or faults as otherwise and writes no register. -/
def Obligations.HardwiredRegisterZero : Prop :=
  ∀ (s : State) (i : Instr), s.cfg.x0Hardwired = true →
    (∀ t : State, exec i s = .next t → t.readReg 0 = 0 ∧ (destination i = some 0 → SameRegisters s t)) ∧
    (destination i = some 0 → (∀ (ea : Word) (n : Nat), accessOf s i = some (ea, n) → InMemory s ea n) →
      Completes (exec i s) (fun t => SameRegisters s t ∧ SameMemory s t ∧ SameControl s t)) ∧
    (∀ (ea : Word) (n : Nat), accessOf s i = some (ea, n) → ¬InMemory s ea n → exec i s = .fault (.memoryBounds ea n))

/-- The only fault an instruction raises is `MemoryBounds`: a load or store raises it exactly if its access is not wholly
inside memory, and then the `step` command writes no register and no byte (60_exceptions.md R261); no instruction is
refused. -/
def Obligations.OnlyBoundsFaults : Prop :=
  (∀ (s : State) (i : Instr) (f : Fault), exec i s = .fault f ↔
    ∃ (ea : Word) (n : Nat), accessOf s i = some (ea, n) ∧ ¬InMemory s ea n ∧ f = .memoryBounds ea n) ∧
  (∀ (s : State) (i : Instr), (∃ a : Word × Nat, accessOf s i = some a) ↔ familyOf i = .load ∨ familyOf i = .store) ∧
  (∀ (s : State) (ea : Word) (n : Nat), step s = .fault (.memoryBounds ea n) →
    SameRegisters s (stepCommand s).state ∧ SameMemory s (stepCommand s).state) ∧
  (∀ (s : State) (i : Instr) (r : Refusal), exec i s ≠ .refused r)

/-! ## Faults (60_exceptions.md) -/

/-- What a fault does (R266, the spec's decision D17): the `step` command answers `Faulted` with a report of the cause, the
pc and, but for a fetch fault, the element; the latch takes the report if it was none and keeps its first value otherwise;
registers, memory, pc, program, labels, breakpoints and parameters are unchanged. -/
def Obligations.FaultEntry : Prop :=
  ∀ (s : State) (f : Fault), step s = .fault f →
    ∃ rep : FaultReport, (stepCommand s).response = .faulted rep ∧ rep.cause = f ∧ rep.pc = s.pc ∧
      (rep.instr = if 0 ≤ s.pc.toInt ∧ s.pc.toNat % 4 = 0 then s.prog[s.pc.toNat / 4]? else none) ∧
      (stepCommand s).state = { s with flt := some (s.flt.getD rep) }

/-- After a fault a further `step` faults again in the same way and changes nothing (48_debug_controller.md R242, decision
D17). -/
def Obligations.FaultRepeats : Prop :=
  ∀ (s : State) (f : Fault), step s = .fault f →
    step (stepCommand s).state = .fault f ∧ stepCommand (stepCommand s).state = stepCommand s

/-! ## Load and reset (48_debug_controller.md, 70_reset_and_hazards.md) -/

/-- A load that succeeds (R233): every register 0, pc 0, every byte 0 but the data image at `DATA_BASE`, no breakpoint, an
empty latch, and the new program store, `PROG_LEN` and label table, which is empty for a program of words. When a load
succeeds is said in `FailedLoadChangesNothing`. -/
def Obligations.SuccessfulLoadResetsEverything : Prop :=
  ∀ (s : State) (request : LoadRequest) (prog : List Source) (labels : LabelTable) (image : List Byte) (reply : Reply),
    ((∃ ws : List InstWord, request = .words ws image ∧ prog = ws.map Source.word ∧ labels = []) ∨
      (∃ ls : List Text, request = .lines ls labels image ∧ prog = ls.map Source.text)) →
    loadCommand request s = reply → reply.response = .loaded →
      (∀ r : Reg, reply.state.readReg r = 0) ∧ reply.state.pc = 0 ∧
      (∀ a : Nat, reply.state.readByte a =
        if s.cfg.dataBase ≤ a ∧ a < s.cfg.dataBase + image.length then image.getD (a - s.cfg.dataBase) 0 else 0) ∧
      reply.state.breakpoints = [] ∧ reply.state.flt = none ∧ reply.state.prog = prog ∧
      reply.state.progLen = prog.length ∧ reply.state.labels = labels ∧ reply.state.cfg = s.cfg

/-- A load that fails changes nothing, and when a load fails and why (R234, the spec's decisions D19 and D32): an unreadable
file, a label name that repeats an earlier one, an image that does not fit. The order of the causes and the label reported,
the first that repeats an earlier one, are the model's log entry 11; that label indexes are not checked is its log entry 15. -/
def Obligations.FailedLoadChangesNothing : Prop :=
  (∀ (s : State) (request : LoadRequest), (loadCommand request s).response ≠ .loaded →
    (loadCommand request s).state = s ∧ ∃ e : LoadError, (loadCommand request s).response = .loadFailed e) ∧
  (∀ s : State, (loadCommand .unreadable s).response = .loadFailed .unreadable) ∧
  (∀ (s : State) (program : List Text) (labels : LabelTable) (image : List Byte) (names : List Text),
    names = labels.map (fun l => l.1) →
    (names.Nodup → s.cfg.dataBase + image.length ≤ s.cfg.memSize →
      (loadCommand (.lines program labels image) s).response = .loaded) ∧
    (names.Nodup → s.cfg.memSize < s.cfg.dataBase + image.length →
      (loadCommand (.lines program labels image) s).response = .loadFailed .dataImageTooLarge) ∧
    (¬names.Nodup → ∃ (k : Nat) (name : Text), names[k]? = some name ∧ (names.take k).Nodup ∧ name ∈ names.take k ∧
      (loadCommand (.lines program labels image) s).response = .loadFailed (.duplicateLabel name))) ∧
  (∀ (s : State) (program : List InstWord) (image : List Byte),
    (loadCommand (.words program image) s).response =
      if s.cfg.dataBase + image.length ≤ s.cfg.memSize then .loaded else .loadFailed .dataImageTooLarge)

/-- The power-on state is that of a load of the empty program (70_reset_and_hazards.md R291, the spec's decision D18): `run`
ends at once, `step` has nothing to step, every line is invalid, registers and memory read 0. -/
def Obligations.PowerOnState : Prop :=
  State.reset = (loadCommand (.words [] []) State.reset).state ∧
  (∀ fuel : Nat, runCommand fuel State.reset = .replied ⟨State.reset, .endOfProgram, []⟩) ∧
  stepCommand State.reset = ⟨State.reset, .nothingToStep, []⟩ ∧
  (∀ line : Int, setBreakCommand line State.reset = ⟨State.reset, .invalidLine, []⟩) ∧
  (∀ r : Reg, State.reset.readReg r = 0) ∧ (∀ a : Nat, State.reset.readByte a = 0)

/-- The data image (20_memory.md R61; contiguous without padding is the spec's decision D32): the bytes of each literal,
least significant first, one literal after the other and one directive after the other. -/
def Obligations.DataImageLayout : Prop :=
  (∀ ds es : List Directive, dataImage (ds ++ es) = dataImage ds ++ dataImage es) ∧
  (∀ vs : List (BitVec 8), dataImage [.byte vs] = vs) ∧
  (∀ (vs : List (BitVec 16)) (k j : Nat), j < 2 → (dataImage [.half vs]).length = 2 * vs.length ∧
    (dataImage [.half vs])[2 * k + j]? = vs[k]?.map (fun v => v.extractLsb' (8 * j) 8)) ∧
  (∀ (vs : List (BitVec 32)) (k j : Nat), j < 4 → (dataImage [.word vs]).length = 4 * vs.length ∧
    (dataImage [.word vs])[4 * k + j]? = vs[k]?.map (fun v => v.extractLsb' (8 * j) 8)) ∧
  (∀ (vs : List (BitVec 64)) (k j : Nat), j < 8 → (dataImage [.dword vs]).length = 8 * vs.length ∧
    (dataImage [.dword vs])[8 * k + j]? = vs[k]?.map (fun v => v.extractLsb' (8 * j) 8))

/-! ## Breakpoints and inspection (48_debug_controller.md) -/

/-- `break <line>` (R243, the spec's decision D20): within 1 .. PROG_LEN it inserts `(line-1)*4`, once; otherwise it answers
`InvalidLine`; nothing else changes. -/
def Obligations.SetBreakCommand : Prop :=
  ∀ (s : State) (line : Int),
    (1 ≤ line → line ≤ s.prog.length → ((line - 1) * 4).toNat ∈ s.breakpoints →
      setBreakCommand line s = ⟨s, .breakAlreadySet, []⟩) ∧
    (1 ≤ line → line ≤ s.prog.length → ((line - 1) * 4).toNat ∉ s.breakpoints →
      ∃ bs : List Nat, setBreakCommand line s = ⟨{ s with breakpoints := bs }, .breakSet, []⟩ ∧
        ∀ b : Nat, b ∈ bs ↔ b = ((line - 1) * 4).toNat ∨ b ∈ s.breakpoints) ∧
    (line < 1 ∨ s.prog.length < line → setBreakCommand line s = ⟨s, .invalidLine, []⟩)

/-- `del break <line>` (R244): it removes `(line-1)*4` if that is in the set, and otherwise, any out-of-range line included,
answers `NoBreakpointSet` with the set unchanged. -/
def Obligations.DelBreakCommand : Prop :=
  ∀ (s : State) (line : Int),
    (1 ≤ line → ((line - 1) * 4).toNat ∈ s.breakpoints →
      ∃ bs : List Nat, delBreakCommand line s = ⟨{ s with breakpoints := bs }, .breakCleared, []⟩ ∧
        ∀ b : Nat, b ∈ bs ↔ b ≠ ((line - 1) * 4).toNat ∧ b ∈ s.breakpoints) ∧
    (line < 1 ∨ ((line - 1) * 4).toNat ∉ s.breakpoints → delBreakCommand line s = ⟨s, .noBreakpointSet, []⟩)

/-- `regs` and `mem` (R245, R246, the spec's decision D27; the names are the model's log entry 12): the 32 registers in
index order, and the bytes asked for if all of them exist, otherwise none; nothing changes. -/
def Obligations.InspectionCommands : Prop :=
  ∀ s : State,
    (∃ pairs : List (Text × Word), regsCommand s = ⟨s, .registers pairs, []⟩ ∧ pairs.length = 32 ∧
      ∀ r : Reg, pairs[r.val]? = some (aliasNames.getD r.val [], s.readReg r)) ∧
    (∀ addr count : Nat, addr + count ≤ s.cfg.memSize →
      ∃ bytes : List Byte, memCommand addr count s = ⟨s, .bytes bytes, []⟩ ∧ bytes.length = count ∧
        ∀ k : Nat, k < count → bytes[k]? = some (s.readByte (addr + k))) ∧
    (∀ addr count : Int, addr < 0 ∨ count < 0 ∨ s.cfg.memSize < addr + count →
      memCommand addr count s = ⟨s, .outOfBounds, []⟩)

/-- `regs`, `mem`, `break` and `del break` never change registers, memory or pc (R247); each answers at once with the state
that stands between two instructions. -/
def Obligations.InspectionAndBreakpointsAreReadOnly : Prop :=
  ∀ (fuel : Nat) (s : State) (c : Command),
    (c = .regs ∨ (∃ addr count, c = .mem addr count) ∨ (∃ line, c = .setBreak line) ∨ (∃ line, c = .delBreak line)) →
    ∃ reply : Reply, command fuel c s = .replied reply ∧ SetsOnlyPc { s with breakpoints := reply.state.breakpoints }
      reply.state s.pc ∧ reply.trace = []

/-! ## step and run (48_debug_controller.md) -/

/-- `step` (R236): nothing to step at the end of the program, with no change and no event; otherwise one cycle, with the
fetched element's event, also before a fault (R241). -/
def Obligations.StepCommandCases : Prop :=
  ∀ s : State,
    (s.fetch = .endOfProgram → stepCommand s = ⟨s, .nothingToStep, []⟩) ∧
    (∀ (src : Source) (t : State), s.fetch = .element src → step s = .next t →
      stepCommand s = ⟨t, .stepped, [⟨s.pc, src⟩]⟩) ∧
    (∀ (src : Source) (f : Fault), s.fetch = .element src → step s = .fault f →
      (stepCommand s).trace = [⟨s.pc, src⟩]) ∧
    (s.fetch = .outOfRange ∨ s.fetch = .misaligned → (stepCommand s).trace = [])

/-- `step` does not consult the breakpoint set (R236, R250; the spec's decision D21): whatever the set is, it does the same
and leaves the set as it is. -/
def Obligations.StepIgnoresBreakpoints : Prop :=
  ∀ (s : State) (bs : List Nat),
    stepCommand { s with breakpoints := bs } =
      ⟨{ (stepCommand s).state with breakpoints := bs }, (stepCommand s).response, (stepCommand s).trace⟩

/-- `run` at a breakpoint makes no progress (R239, which the spec derives from R237). -/
def Obligations.RunAtBreakpointStops : Prop :=
  ∀ (s : State) (fuel : Nat), s.pc.toNat ∈ s.breakpoints →
    runCommand fuel s = .replied ⟨s, .stoppedAtBreakpoint s.pc, []⟩

/-- A `run` that ends does so in one of three ways (R238, which the spec derives): at the end of the program, at a
breakpoint, or with a fault, which is then in the latch unless the latch held an earlier one, which it keeps (10_state.md
R37; 60_exceptions.md R266, the spec's decision D17); a run that ends without a fault leaves the latch as it was. -/
def Obligations.RunEndsInThreeWays : Prop :=
  ∀ (s : State) (fuel : Nat) (reply : Reply), runCommand fuel s = .replied reply →
    (reply.response = .endOfProgram ∧ 0 ≤ reply.state.pc.toInt ∧ reply.state.pc.toNat % 4 = 0 ∧
      reply.state.prog.length ≤ reply.state.pc.toNat / 4 ∧ reply.state.flt = s.flt) ∨
    (reply.response = .stoppedAtBreakpoint reply.state.pc ∧ reply.state.pc.toNat ∈ reply.state.breakpoints ∧
      reply.state.flt = s.flt) ∨
    (∃ rep : FaultReport, reply.response = .faulted rep ∧ rep.pc = reply.state.pc ∧
      reply.state.flt = some (s.flt.getD rep) ∧ step reply.state = .fault rep.cause)

/-- `run` is the iterated step (R235, R237, R238, R241): a run that ends leaves the registers, memory and pc that some number
n of steps leaves, and the k-th of its first n events is the pc and the element of the state before the k-th of those
steps. Without a fault these are all the events and that is the whole state; with a fault, the state after the n steps is
the one the fault is raised in, the faulting element's event, if one was fetched, comes last, and state and response are
those of a `step` command there. -/
def Obligations.RunIsIteratedStep : Prop :=
  ∀ (s : State) (fuel : Nat) (reply : Reply), runCommand fuel s = .replied reply →
    ∃ (n : Nat) (last : State), Sys2Proof.core.run n s = .next last ∧ n ≤ reply.trace.length ∧
      (∀ k : Nat, k < n → ∃ (u : State) (src : Source), Sys2Proof.core.run k s = .next u ∧
        u.fetch = .element src ∧ u.pc.toNat ∉ u.breakpoints ∧ reply.trace[k]? = some ⟨u.pc, src⟩) ∧
      SameRegisters last reply.state ∧ SameMemory last reply.state ∧ reply.state.pc = last.pc ∧
      ((∀ rep : FaultReport, reply.response ≠ .faulted rep) → reply.state = last ∧ reply.trace.length = n) ∧
      (∀ rep : FaultReport, reply.response = .faulted rep →
        last.pc.toNat ∉ last.breakpoints ∧ step last = .fault rep.cause ∧
        reply.state = (stepCommand last).state ∧ reply.response = (stepCommand last).response ∧
        (∀ src : Source, last.fetch = .element src →
          reply.trace.length = n + 1 ∧ reply.trace[n]? = some ⟨last.pc, src⟩) ∧
        ((∀ src : Source, last.fetch ≠ .element src) → reply.trace.length = n))

/-- The fuelled `run` and the relation over traces agree (R237, R240; the spec's decision D22 asks for one or the other; the
model's log entry 13): a run ends with a reply exactly if some fuel gives that reply, more fuel gives the same, and the
reply is unique. -/
def Obligations.RunFunctionAgreesWithRelation : Prop :=
  (∀ (s : State) (reply : Reply), Runs s reply ↔ ∃ fuel : Nat, runCommand fuel s = .replied reply) ∧
  (∀ (s : State) (fuel more : Nat) (reply : Reply), runCommand fuel s = .replied reply → fuel ≤ more →
    runCommand more s = .replied reply) ∧
  (∀ (s : State) (r q : Reply), Runs s r → Runs s q → r = q)

/-! ## The invariant -/

/-- The invariant holds at power-on. -/
def Obligations.ResetMeetsInvariant : Prop := State.Inv State.reset

/-- Every step keeps the invariant: parameters, canonical and bounded memory (20_memory.md R50), breakpoints on slots
(10_state.md R34), unique labels (R31), a latch that describes a fault of the program (R37). -/
def Obligations.StepKeepsInvariant : Prop :=
  ∀ s t : State, State.Inv s → step s = .next t → State.Inv t

/-- Every command keeps the invariant, a load, a faulting step or run, and a run out of fuel among them. -/
def Obligations.CommandsKeepInvariant : Prop :=
  ∀ (fuel : Nat) (c : Command) (s : State), State.Inv s → State.Inv (command fuel c s).finalState
end

