-- ==== Sys2Proof/Laws/Encoding.lean ====
section
/-! SUPPORT. The laws of the encoding: what each field of an encoded word is, what a mask tests, and that the pieces of an immediate give it back. -/

namespace Sys2Proof

/-! ## Registers in fields -/

/-- A register index survives its 5-bit field. -/
@[simp] theorem regOfBits_bitsOfReg (r : Reg) : regOfBits (bitsOfReg r) = r := by
  apply Fin.ext; simp [regOfBits, bitsOfReg]

/-- A 5-bit field survives as a register index. -/
@[simp] theorem bitsOfReg_regOfBits (b : BitVec 5) : bitsOfReg (regOfBits b) = b := by
  apply BitVec.eq_of_toNat_eq; simp [regOfBits, bitsOfReg]

/-! ## Slices of encoded words, format by format (30_encoding.md R82) -/

theorem slice25_encodeR (f7 : BitVec 7) (rs2 rs1 : Reg) (f3 : BitVec 3) (rd : Reg) (op : BitVec 7) :
    (encodeR f7 rs2 rs1 f3 rd op).extractLsb' 25 7 = f7 := by
  change @BitVec.extractLsb' (7+5+5+3+5+7) 25 7 _ = _
  simp only [encodeR, BitVec.extractLsb'_append_eq_ite]; simp

theorem slice20_encodeR (f7 : BitVec 7) (rs2 rs1 : Reg) (f3 : BitVec 3) (rd : Reg) (op : BitVec 7) :
    (encodeR f7 rs2 rs1 f3 rd op).extractLsb' 20 5 = bitsOfReg rs2 := by
  change @BitVec.extractLsb' (7+5+5+3+5+7) 20 5 _ = _
  simp only [encodeR, BitVec.extractLsb'_append_eq_ite]; simp

theorem slice15_encodeR (f7 : BitVec 7) (rs2 rs1 : Reg) (f3 : BitVec 3) (rd : Reg) (op : BitVec 7) :
    (encodeR f7 rs2 rs1 f3 rd op).extractLsb' 15 5 = bitsOfReg rs1 := by
  change @BitVec.extractLsb' (7+5+5+3+5+7) 15 5 _ = _
  simp only [encodeR, BitVec.extractLsb'_append_eq_ite]; simp

theorem slice12_encodeR (f7 : BitVec 7) (rs2 rs1 : Reg) (f3 : BitVec 3) (rd : Reg) (op : BitVec 7) :
    (encodeR f7 rs2 rs1 f3 rd op).extractLsb' 12 3 = f3 := by
  change @BitVec.extractLsb' (7+5+5+3+5+7) 12 3 _ = _
  simp only [encodeR, BitVec.extractLsb'_append_eq_ite]; simp

theorem slice7_encodeR (f7 : BitVec 7) (rs2 rs1 : Reg) (f3 : BitVec 3) (rd : Reg) (op : BitVec 7) :
    (encodeR f7 rs2 rs1 f3 rd op).extractLsb' 7 5 = bitsOfReg rd := by
  change @BitVec.extractLsb' (7+5+5+3+5+7) 7 5 _ = _
  simp only [encodeR, BitVec.extractLsb'_append_eq_ite]; simp

theorem slice0_encodeR (f7 : BitVec 7) (rs2 rs1 : Reg) (f3 : BitVec 3) (rd : Reg) (op : BitVec 7) :
    (encodeR f7 rs2 rs1 f3 rd op).extractLsb' 0 7 = op := by
  change @BitVec.extractLsb' (7+5+5+3+5+7) 0 7 _ = _
  simp only [encodeR, BitVec.extractLsb'_append_eq_ite]; simp

theorem slice20_encodeI (imm : Word) (rs1 : Reg) (f3 : BitVec 3) (rd : Reg) (op : BitVec 7) :
    (encodeI imm rs1 f3 rd op).extractLsb' 20 12 = imm.extractLsb' 0 12 := by
  change @BitVec.extractLsb' (12+5+3+5+7) 20 12 _ = _
  simp only [encodeI, BitVec.extractLsb'_append_eq_ite]; simp

theorem slice15_encodeI (imm : Word) (rs1 : Reg) (f3 : BitVec 3) (rd : Reg) (op : BitVec 7) :
    (encodeI imm rs1 f3 rd op).extractLsb' 15 5 = bitsOfReg rs1 := by
  change @BitVec.extractLsb' (12+5+3+5+7) 15 5 _ = _
  simp only [encodeI, BitVec.extractLsb'_append_eq_ite]; simp

theorem slice12_encodeI (imm : Word) (rs1 : Reg) (f3 : BitVec 3) (rd : Reg) (op : BitVec 7) :
    (encodeI imm rs1 f3 rd op).extractLsb' 12 3 = f3 := by
  change @BitVec.extractLsb' (12+5+3+5+7) 12 3 _ = _
  simp only [encodeI, BitVec.extractLsb'_append_eq_ite]; simp

theorem slice7_encodeI (imm : Word) (rs1 : Reg) (f3 : BitVec 3) (rd : Reg) (op : BitVec 7) :
    (encodeI imm rs1 f3 rd op).extractLsb' 7 5 = bitsOfReg rd := by
  change @BitVec.extractLsb' (12+5+3+5+7) 7 5 _ = _
  simp only [encodeI, BitVec.extractLsb'_append_eq_ite]; simp

theorem slice0_encodeI (imm : Word) (rs1 : Reg) (f3 : BitVec 3) (rd : Reg) (op : BitVec 7) :
    (encodeI imm rs1 f3 rd op).extractLsb' 0 7 = op := by
  change @BitVec.extractLsb' (12+5+3+5+7) 0 7 _ = _
  simp only [encodeI, BitVec.extractLsb'_append_eq_ite]; simp

theorem slice26_encodeShift (f6 : BitVec 6) (imm : Word) (rs1 : Reg) (f3 : BitVec 3) (rd : Reg) :
    (encodeShift f6 imm rs1 f3 rd).extractLsb' 26 6 = f6 := by
  change @BitVec.extractLsb' (6+6+5+3+5+7) 26 6 _ = _
  simp only [encodeShift, BitVec.extractLsb'_append_eq_ite]; simp

theorem slice20_encodeShift (f6 : BitVec 6) (imm : Word) (rs1 : Reg) (f3 : BitVec 3) (rd : Reg) :
    (encodeShift f6 imm rs1 f3 rd).extractLsb' 20 6 = imm.extractLsb' 0 6 := by
  change @BitVec.extractLsb' (6+6+5+3+5+7) 20 6 _ = _
  simp only [encodeShift, BitVec.extractLsb'_append_eq_ite]; simp

theorem slice15_encodeShift (f6 : BitVec 6) (imm : Word) (rs1 : Reg) (f3 : BitVec 3) (rd : Reg) :
    (encodeShift f6 imm rs1 f3 rd).extractLsb' 15 5 = bitsOfReg rs1 := by
  change @BitVec.extractLsb' (6+6+5+3+5+7) 15 5 _ = _
  simp only [encodeShift, BitVec.extractLsb'_append_eq_ite]; simp

theorem slice12_encodeShift (f6 : BitVec 6) (imm : Word) (rs1 : Reg) (f3 : BitVec 3) (rd : Reg) :
    (encodeShift f6 imm rs1 f3 rd).extractLsb' 12 3 = f3 := by
  change @BitVec.extractLsb' (6+6+5+3+5+7) 12 3 _ = _
  simp only [encodeShift, BitVec.extractLsb'_append_eq_ite]; simp

theorem slice7_encodeShift (f6 : BitVec 6) (imm : Word) (rs1 : Reg) (f3 : BitVec 3) (rd : Reg) :
    (encodeShift f6 imm rs1 f3 rd).extractLsb' 7 5 = bitsOfReg rd := by
  change @BitVec.extractLsb' (6+6+5+3+5+7) 7 5 _ = _
  simp only [encodeShift, BitVec.extractLsb'_append_eq_ite]; simp

theorem slice0_encodeShift (f6 : BitVec 6) (imm : Word) (rs1 : Reg) (f3 : BitVec 3) (rd : Reg) :
    (encodeShift f6 imm rs1 f3 rd).extractLsb' 0 7 = 0b0010011#7 := by
  change @BitVec.extractLsb' (6+6+5+3+5+7) 0 7 _ = _
  simp only [encodeShift, BitVec.extractLsb'_append_eq_ite]; simp

theorem slice25_encodeS (off : Word) (rs2 rs1 : Reg) (f3 : BitVec 3) :
    (encodeS off rs2 rs1 f3).extractLsb' 25 7 = off.extractLsb' 5 7 := by
  change @BitVec.extractLsb' (7+5+5+3+5+7) 25 7 _ = _
  simp only [encodeS, BitVec.extractLsb'_append_eq_ite]; simp

theorem slice20_encodeS (off : Word) (rs2 rs1 : Reg) (f3 : BitVec 3) :
    (encodeS off rs2 rs1 f3).extractLsb' 20 5 = bitsOfReg rs2 := by
  change @BitVec.extractLsb' (7+5+5+3+5+7) 20 5 _ = _
  simp only [encodeS, BitVec.extractLsb'_append_eq_ite]; simp

theorem slice15_encodeS (off : Word) (rs2 rs1 : Reg) (f3 : BitVec 3) :
    (encodeS off rs2 rs1 f3).extractLsb' 15 5 = bitsOfReg rs1 := by
  change @BitVec.extractLsb' (7+5+5+3+5+7) 15 5 _ = _
  simp only [encodeS, BitVec.extractLsb'_append_eq_ite]; simp

theorem slice12_encodeS (off : Word) (rs2 rs1 : Reg) (f3 : BitVec 3) :
    (encodeS off rs2 rs1 f3).extractLsb' 12 3 = f3 := by
  change @BitVec.extractLsb' (7+5+5+3+5+7) 12 3 _ = _
  simp only [encodeS, BitVec.extractLsb'_append_eq_ite]; simp

theorem slice7_encodeS (off : Word) (rs2 rs1 : Reg) (f3 : BitVec 3) :
    (encodeS off rs2 rs1 f3).extractLsb' 7 5 = off.extractLsb' 0 5 := by
  change @BitVec.extractLsb' (7+5+5+3+5+7) 7 5 _ = _
  simp only [encodeS, BitVec.extractLsb'_append_eq_ite]; simp

theorem slice0_encodeS (off : Word) (rs2 rs1 : Reg) (f3 : BitVec 3) :
    (encodeS off rs2 rs1 f3).extractLsb' 0 7 = 0b0100011#7 := by
  change @BitVec.extractLsb' (7+5+5+3+5+7) 0 7 _ = _
  simp only [encodeS, BitVec.extractLsb'_append_eq_ite]; simp

theorem slice31_encodeB (off : Word) (rs2 rs1 : Reg) (f3 : BitVec 3) :
    (encodeB off rs2 rs1 f3).extractLsb' 31 1 = off.extractLsb' 12 1 := by
  change @BitVec.extractLsb' (1+6+5+5+3+4+1+7) 31 1 _ = _
  simp only [encodeB, BitVec.extractLsb'_append_eq_ite]; simp

theorem slice25_encodeB (off : Word) (rs2 rs1 : Reg) (f3 : BitVec 3) :
    (encodeB off rs2 rs1 f3).extractLsb' 25 6 = off.extractLsb' 5 6 := by
  change @BitVec.extractLsb' (1+6+5+5+3+4+1+7) 25 6 _ = _
  simp only [encodeB, BitVec.extractLsb'_append_eq_ite]; simp

theorem slice20_encodeB (off : Word) (rs2 rs1 : Reg) (f3 : BitVec 3) :
    (encodeB off rs2 rs1 f3).extractLsb' 20 5 = bitsOfReg rs2 := by
  change @BitVec.extractLsb' (1+6+5+5+3+4+1+7) 20 5 _ = _
  simp only [encodeB, BitVec.extractLsb'_append_eq_ite]; simp

theorem slice15_encodeB (off : Word) (rs2 rs1 : Reg) (f3 : BitVec 3) :
    (encodeB off rs2 rs1 f3).extractLsb' 15 5 = bitsOfReg rs1 := by
  change @BitVec.extractLsb' (1+6+5+5+3+4+1+7) 15 5 _ = _
  simp only [encodeB, BitVec.extractLsb'_append_eq_ite]; simp

theorem slice12_encodeB (off : Word) (rs2 rs1 : Reg) (f3 : BitVec 3) :
    (encodeB off rs2 rs1 f3).extractLsb' 12 3 = f3 := by
  change @BitVec.extractLsb' (1+6+5+5+3+4+1+7) 12 3 _ = _
  simp only [encodeB, BitVec.extractLsb'_append_eq_ite]; simp

theorem slice8_encodeB (off : Word) (rs2 rs1 : Reg) (f3 : BitVec 3) :
    (encodeB off rs2 rs1 f3).extractLsb' 8 4 = off.extractLsb' 1 4 := by
  change @BitVec.extractLsb' (1+6+5+5+3+4+1+7) 8 4 _ = _
  simp only [encodeB, BitVec.extractLsb'_append_eq_ite]; simp

theorem slice7_encodeB (off : Word) (rs2 rs1 : Reg) (f3 : BitVec 3) :
    (encodeB off rs2 rs1 f3).extractLsb' 7 1 = off.extractLsb' 11 1 := by
  change @BitVec.extractLsb' (1+6+5+5+3+4+1+7) 7 1 _ = _
  simp only [encodeB, BitVec.extractLsb'_append_eq_ite]; simp

theorem slice0_encodeB (off : Word) (rs2 rs1 : Reg) (f3 : BitVec 3) :
    (encodeB off rs2 rs1 f3).extractLsb' 0 7 = 0b1100011#7 := by
  change @BitVec.extractLsb' (1+6+5+5+3+4+1+7) 0 7 _ = _
  simp only [encodeB, BitVec.extractLsb'_append_eq_ite]; simp

theorem slice31_encodeJ (off : Word) (rd : Reg) :
    (encodeJ off rd).extractLsb' 31 1 = off.extractLsb' 20 1 := by
  change @BitVec.extractLsb' (1+10+1+8+5+7) 31 1 _ = _
  simp only [encodeJ, BitVec.extractLsb'_append_eq_ite]; simp

theorem slice21_encodeJ (off : Word) (rd : Reg) :
    (encodeJ off rd).extractLsb' 21 10 = off.extractLsb' 1 10 := by
  change @BitVec.extractLsb' (1+10+1+8+5+7) 21 10 _ = _
  simp only [encodeJ, BitVec.extractLsb'_append_eq_ite]; simp

theorem slice20_encodeJ (off : Word) (rd : Reg) :
    (encodeJ off rd).extractLsb' 20 1 = off.extractLsb' 11 1 := by
  change @BitVec.extractLsb' (1+10+1+8+5+7) 20 1 _ = _
  simp only [encodeJ, BitVec.extractLsb'_append_eq_ite]; simp

theorem slice12_encodeJ (off : Word) (rd : Reg) :
    (encodeJ off rd).extractLsb' 12 8 = off.extractLsb' 12 8 := by
  change @BitVec.extractLsb' (1+10+1+8+5+7) 12 8 _ = _
  simp only [encodeJ, BitVec.extractLsb'_append_eq_ite]; simp

theorem slice7_encodeJ (off : Word) (rd : Reg) :
    (encodeJ off rd).extractLsb' 7 5 = bitsOfReg rd := by
  change @BitVec.extractLsb' (1+10+1+8+5+7) 7 5 _ = _
  simp only [encodeJ, BitVec.extractLsb'_append_eq_ite]; simp

theorem slice0_encodeJ (off : Word) (rd : Reg) :
    (encodeJ off rd).extractLsb' 0 7 = 0b1101111#7 := by
  change @BitVec.extractLsb' (1+10+1+8+5+7) 0 7 _ = _
  simp only [encodeJ, BitVec.extractLsb'_append_eq_ite]; simp

theorem slice12_encodeU (imm : Word) (rd : Reg) :
    (encodeU imm rd).extractLsb' 12 20 = imm.extractLsb' 0 20 := by
  change @BitVec.extractLsb' (20+5+7) 12 20 _ = _
  simp only [encodeU, BitVec.extractLsb'_append_eq_ite]; simp

theorem slice7_encodeU (imm : Word) (rd : Reg) :
    (encodeU imm rd).extractLsb' 7 5 = bitsOfReg rd := by
  change @BitVec.extractLsb' (20+5+7) 7 5 _ = _
  simp only [encodeU, BitVec.extractLsb'_append_eq_ite]; simp

theorem slice0_encodeU (imm : Word) (rd : Reg) :
    (encodeU imm rd).extractLsb' 0 7 = 0b0110111#7 := by
  change @BitVec.extractLsb' (20+5+7) 0 7 _ = _
  simp only [encodeU, BitVec.extractLsb'_append_eq_ite]; simp

/-! ## Fields of encoded words (30_encoding.md R83) -/

@[simp] theorem opcodeOf_encodeR (f7 : BitVec 7) (rs2 rs1 : Reg) (f3 : BitVec 3) (rd : Reg) (op : BitVec 7) : opcodeOf (encodeR f7 rs2 rs1 f3 rd op) = op :=
  slice0_encodeR f7 rs2 rs1 f3 rd op

@[simp] theorem funct3Of_encodeR (f7 : BitVec 7) (rs2 rs1 : Reg) (f3 : BitVec 3) (rd : Reg) (op : BitVec 7) : funct3Of (encodeR f7 rs2 rs1 f3 rd op) = f3 :=
  slice12_encodeR f7 rs2 rs1 f3 rd op

@[simp] theorem funct7Of_encodeR (f7 : BitVec 7) (rs2 rs1 : Reg) (f3 : BitVec 3) (rd : Reg) (op : BitVec 7) : funct7Of (encodeR f7 rs2 rs1 f3 rd op) = f7 :=
  slice25_encodeR f7 rs2 rs1 f3 rd op

@[simp] theorem rdOf_encodeR (f7 : BitVec 7) (rs2 rs1 : Reg) (f3 : BitVec 3) (rd : Reg) (op : BitVec 7) : rdOf (encodeR f7 rs2 rs1 f3 rd op) = rd := by
  rw [rdOf, slice7_encodeR, regOfBits_bitsOfReg]

@[simp] theorem rs1Of_encodeR (f7 : BitVec 7) (rs2 rs1 : Reg) (f3 : BitVec 3) (rd : Reg) (op : BitVec 7) : rs1Of (encodeR f7 rs2 rs1 f3 rd op) = rs1 := by
  rw [rs1Of, slice15_encodeR, regOfBits_bitsOfReg]

@[simp] theorem rs2Of_encodeR (f7 : BitVec 7) (rs2 rs1 : Reg) (f3 : BitVec 3) (rd : Reg) (op : BitVec 7) : rs2Of (encodeR f7 rs2 rs1 f3 rd op) = rs2 := by
  rw [rs2Of, slice20_encodeR, regOfBits_bitsOfReg]

@[simp] theorem opcodeOf_encodeI (imm : Word) (rs1 : Reg) (f3 : BitVec 3) (rd : Reg) (op : BitVec 7) : opcodeOf (encodeI imm rs1 f3 rd op) = op :=
  slice0_encodeI imm rs1 f3 rd op

@[simp] theorem funct3Of_encodeI (imm : Word) (rs1 : Reg) (f3 : BitVec 3) (rd : Reg) (op : BitVec 7) : funct3Of (encodeI imm rs1 f3 rd op) = f3 :=
  slice12_encodeI imm rs1 f3 rd op

@[simp] theorem rdOf_encodeI (imm : Word) (rs1 : Reg) (f3 : BitVec 3) (rd : Reg) (op : BitVec 7) : rdOf (encodeI imm rs1 f3 rd op) = rd := by
  rw [rdOf, slice7_encodeI, regOfBits_bitsOfReg]

@[simp] theorem rs1Of_encodeI (imm : Word) (rs1 : Reg) (f3 : BitVec 3) (rd : Reg) (op : BitVec 7) : rs1Of (encodeI imm rs1 f3 rd op) = rs1 := by
  rw [rs1Of, slice15_encodeI, regOfBits_bitsOfReg]

@[simp] theorem opcodeOf_encodeShift (f6 : BitVec 6) (imm : Word) (rs1 : Reg) (f3 : BitVec 3) (rd : Reg) : opcodeOf (encodeShift f6 imm rs1 f3 rd) = 0b0010011#7 :=
  slice0_encodeShift f6 imm rs1 f3 rd

@[simp] theorem funct3Of_encodeShift (f6 : BitVec 6) (imm : Word) (rs1 : Reg) (f3 : BitVec 3) (rd : Reg) : funct3Of (encodeShift f6 imm rs1 f3 rd) = f3 :=
  slice12_encodeShift f6 imm rs1 f3 rd

@[simp] theorem funct6Of_encodeShift (f6 : BitVec 6) (imm : Word) (rs1 : Reg) (f3 : BitVec 3) (rd : Reg) : funct6Of (encodeShift f6 imm rs1 f3 rd) = f6 :=
  slice26_encodeShift f6 imm rs1 f3 rd

@[simp] theorem rdOf_encodeShift (f6 : BitVec 6) (imm : Word) (rs1 : Reg) (f3 : BitVec 3) (rd : Reg) : rdOf (encodeShift f6 imm rs1 f3 rd) = rd := by
  rw [rdOf, slice7_encodeShift, regOfBits_bitsOfReg]

@[simp] theorem rs1Of_encodeShift (f6 : BitVec 6) (imm : Word) (rs1 : Reg) (f3 : BitVec 3) (rd : Reg) : rs1Of (encodeShift f6 imm rs1 f3 rd) = rs1 := by
  rw [rs1Of, slice15_encodeShift, regOfBits_bitsOfReg]

@[simp] theorem opcodeOf_encodeS (off : Word) (rs2 rs1 : Reg) (f3 : BitVec 3) : opcodeOf (encodeS off rs2 rs1 f3) = 0b0100011#7 :=
  slice0_encodeS off rs2 rs1 f3

@[simp] theorem funct3Of_encodeS (off : Word) (rs2 rs1 : Reg) (f3 : BitVec 3) : funct3Of (encodeS off rs2 rs1 f3) = f3 :=
  slice12_encodeS off rs2 rs1 f3

@[simp] theorem rs1Of_encodeS (off : Word) (rs2 rs1 : Reg) (f3 : BitVec 3) : rs1Of (encodeS off rs2 rs1 f3) = rs1 := by
  rw [rs1Of, slice15_encodeS, regOfBits_bitsOfReg]

@[simp] theorem rs2Of_encodeS (off : Word) (rs2 rs1 : Reg) (f3 : BitVec 3) : rs2Of (encodeS off rs2 rs1 f3) = rs2 := by
  rw [rs2Of, slice20_encodeS, regOfBits_bitsOfReg]

@[simp] theorem opcodeOf_encodeB (off : Word) (rs2 rs1 : Reg) (f3 : BitVec 3) : opcodeOf (encodeB off rs2 rs1 f3) = 0b1100011#7 :=
  slice0_encodeB off rs2 rs1 f3

@[simp] theorem funct3Of_encodeB (off : Word) (rs2 rs1 : Reg) (f3 : BitVec 3) : funct3Of (encodeB off rs2 rs1 f3) = f3 :=
  slice12_encodeB off rs2 rs1 f3

@[simp] theorem rs1Of_encodeB (off : Word) (rs2 rs1 : Reg) (f3 : BitVec 3) : rs1Of (encodeB off rs2 rs1 f3) = rs1 := by
  rw [rs1Of, slice15_encodeB, regOfBits_bitsOfReg]

@[simp] theorem rs2Of_encodeB (off : Word) (rs2 rs1 : Reg) (f3 : BitVec 3) : rs2Of (encodeB off rs2 rs1 f3) = rs2 := by
  rw [rs2Of, slice20_encodeB, regOfBits_bitsOfReg]

@[simp] theorem opcodeOf_encodeJ (off : Word) (rd : Reg) : opcodeOf (encodeJ off rd) = 0b1101111#7 :=
  slice0_encodeJ off rd

@[simp] theorem rdOf_encodeJ (off : Word) (rd : Reg) : rdOf (encodeJ off rd) = rd := by
  rw [rdOf, slice7_encodeJ, regOfBits_bitsOfReg]

@[simp] theorem opcodeOf_encodeU (imm : Word) (rd : Reg) : opcodeOf (encodeU imm rd) = 0b0110111#7 :=
  slice0_encodeU imm rd

@[simp] theorem rdOf_encodeU (imm : Word) (rd : Reg) : rdOf (encodeU imm rd) = rd := by
  rw [rdOf, slice7_encodeU, regOfBits_bitsOfReg]

/-! ## Masks (30_encoding.md R91 to R97) -/

/-- Two words agree in a slice exactly when they agree in each of its bits. -/
theorem slice_eq_iff (w p : InstWord) (a n : Nat) :
    w.extractLsb' a n = p.extractLsb' a n ↔ ∀ i, a ≤ i → i < a + n → w.getLsbD i = p.getLsbD i := by
  constructor
  · intro h i h1 h2
    have := congrArg (fun v => v.getLsbD (i - a)) h
    simp only [BitVec.getLsbD_extractLsb', show i - a < n by omega, decide_true, Bool.true_and,
      show a + (i - a) = i by omega] at this
    exact this
  · intro h
    apply BitVec.eq_of_getLsbD_eq
    intro i hi
    simp [hi, h (a + i) (by omega) (by omega)]

/-- A masked word equals a pattern inside the mask exactly when the bits under the mask agree. -/
theorem masked_eq_iff (w p m : InstWord) (hp : p &&& m = p) :
    w &&& m = p ↔ ∀ i, i < 32 → m.getLsbD i = true → w.getLsbD i = p.getLsbD i := by
  constructor
  · intro h i hi hm
    rw [← h]; simp [hm]
  · intro h
    apply BitVec.eq_of_getLsbD_eq
    intro i hi
    rw [← hp]
    by_cases hm : m.getLsbD i = true
    · simp [hm, h i hi hm]
    · simp [hm]

theorem bits_of_mask_FE00707F (i : Nat) (hi : i < 32) : (0xFE00707F#32).getLsbD i = true ↔ i < 7 ∨ (12 ≤ i ∧ i < 15) ∨ 25 ≤ i := by
  revert i; decide

/-- The mask 0xFE00707F tests funct7, funct3, opcode. -/
theorem mask_FE00707F_iff (w p : InstWord) (hp : p &&& 0xFE00707F = p) :
    w &&& 0xFE00707F = p ↔ funct7Of w = funct7Of p ∧ funct3Of w = funct3Of p ∧ opcodeOf w = opcodeOf p := by
  unfold funct7Of funct3Of opcodeOf
  rw [masked_eq_iff w p _ hp]
  simp only [slice_eq_iff]
  constructor
  · intro h
    refine ⟨fun i h1 h2 => ?_, fun i h1 h2 => ?_, fun i h1 h2 => ?_⟩ <;>
      exact h i (by omega) ((bits_of_mask_FE00707F i (by omega)).2 (by omega))
  · rintro ⟨h1, h2, h3⟩ i hi hm
    rcases (bits_of_mask_FE00707F i hi).1 hm with h | h | h
    · exact h3 i (by omega) (by omega)
    · exact h2 i (by omega) (by omega)
    · exact h1 i (by omega) (by omega)

theorem bits_of_mask_FC00707F (i : Nat) (hi : i < 32) : (0xFC00707F#32).getLsbD i = true ↔ i < 7 ∨ (12 ≤ i ∧ i < 15) ∨ 26 ≤ i := by
  revert i; decide

/-- The mask 0xFC00707F tests funct6, funct3, opcode. -/
theorem mask_FC00707F_iff (w p : InstWord) (hp : p &&& 0xFC00707F = p) :
    w &&& 0xFC00707F = p ↔ funct6Of w = funct6Of p ∧ funct3Of w = funct3Of p ∧ opcodeOf w = opcodeOf p := by
  unfold funct6Of funct3Of opcodeOf
  rw [masked_eq_iff w p _ hp]
  simp only [slice_eq_iff]
  constructor
  · intro h
    refine ⟨fun i h1 h2 => ?_, fun i h1 h2 => ?_, fun i h1 h2 => ?_⟩ <;>
      exact h i (by omega) ((bits_of_mask_FC00707F i (by omega)).2 (by omega))
  · rintro ⟨h1, h2, h3⟩ i hi hm
    rcases (bits_of_mask_FC00707F i hi).1 hm with h | h | h
    · exact h3 i (by omega) (by omega)
    · exact h2 i (by omega) (by omega)
    · exact h1 i (by omega) (by omega)

theorem bits_of_mask_0000707F (i : Nat) (hi : i < 32) : (0x0000707F#32).getLsbD i = true ↔ i < 7 ∨ (12 ≤ i ∧ i < 15) := by
  revert i; decide

/-- The mask 0x0000707F tests funct3, opcode. -/
theorem mask_0000707F_iff (w p : InstWord) (hp : p &&& 0x0000707F = p) :
    w &&& 0x0000707F = p ↔ funct3Of w = funct3Of p ∧ opcodeOf w = opcodeOf p := by
  unfold funct3Of opcodeOf
  rw [masked_eq_iff w p _ hp]
  simp only [slice_eq_iff]
  constructor
  · intro h
    refine ⟨fun i h1 h2 => ?_, fun i h1 h2 => ?_⟩ <;>
      exact h i (by omega) ((bits_of_mask_0000707F i (by omega)).2 (by omega))
  · rintro ⟨h1, h2⟩ i hi hm
    rcases (bits_of_mask_0000707F i hi).1 hm with h | h
    · exact h2 i (by omega) (by omega)
    · exact h1 i (by omega) (by omega)

theorem bits_of_mask_0000007F (i : Nat) (hi : i < 32) : (0x0000007F#32).getLsbD i = true ↔ i < 7 := by
  revert i; decide

/-- The mask 0x0000007F tests opcode. -/
theorem mask_0000007F_iff (w p : InstWord) (hp : p &&& 0x0000007F = p) :
    w &&& 0x0000007F = p ↔ opcodeOf w = opcodeOf p := by
  unfold opcodeOf
  rw [masked_eq_iff w p _ hp]
  simp only [slice_eq_iff]
  constructor
  · intro h
    refine fun i h1 h2 => ?_
    exact h i (by omega) ((bits_of_mask_0000007F i (by omega)).2 (by omega))
  · intro h i hi hm
    exact h i (by omega) (by have := (bits_of_mask_0000007F i hi).1 hm; omega)

/-! ## Immediates (30_encoding.md R84 to R89, R101) -/

/-- A value that fits n + 1 bits is the sign extension of its low n + 1 bits. -/
theorem signExtend_of_fitsSigned (n : Nat) (hn : n + 1 ≤ 64) (v : Word) (h : fitsSigned n v = true) :
    (v.extractLsb' 0 (n + 1)).signExtend 64 = v := by
  simp only [fitsSigned, Bool.and_eq_true, decide_eq_true_eq] at h
  have hd : 2 ^ (n + 1) ∣ 2 ^ 64 := Nat.pow_dvd_pow 2 hn
  have hp : (2 : Int) ^ (n + 1) = 2 * 2 ^ n := by ring
  apply BitVec.eq_of_toInt_eq
  rw [BitVec.toInt_signExtend_of_le hn, ← BitVec.setWidth_eq_extractLsb' hn, BitVec.toInt_setWidth,
    ← Int.bmod_bmod_of_dvd hd, ← BitVec.toInt_eq_toNat_bmod]
  apply Int.bmod_eq_of_le <;> push_cast <;> omega

/-- Conversely, a sign extension from n + 1 bits fits n + 1 bits. -/
theorem fitsSigned_signExtend (n : Nat) (hn : n + 1 ≤ 64) (b : BitVec (n + 1)) :
    fitsSigned n (b.signExtend 64) = true := by
  simp only [fitsSigned, Bool.and_eq_true, decide_eq_true_eq, BitVec.toInt_signExtend_of_le hn]
  have h1 := BitVec.le_toInt b
  have h2 := BitVec.toInt_lt (x := b)
  simp at h1 h2
  omega

/-- The low bits of a sign extension are the bits extended. -/
theorem extract_signExtend (n a m : Nat) (hn : n ≤ 64) (b : BitVec n) (h : a + m ≤ n) :
    (b.signExtend 64).extractLsb' a m = b.extractLsb' a m := by
  apply BitVec.eq_of_getLsbD_eq
  intro i hi
  simp only [BitVec.getLsbD_extractLsb', BitVec.getLsbD_signExtend, show a + i < 64 by omega, show a + i < n by omega,
    decide_true, Bool.true_and, if_true]

/-- A value below 2^n is the zero extension of its low n bits. -/
theorem zeroExtend_of_fitsUnsigned (n : Nat) (v : Word) (h : fitsUnsigned n v = true) :
    (v.extractLsb' 0 n).setWidth 64 = v := by
  simp only [fitsUnsigned, decide_eq_true_eq] at h
  apply BitVec.eq_of_toNat_eq
  simp only [BitVec.toNat_setWidth, BitVec.extractLsb'_toNat, Nat.shiftRight_zero, Nat.mod_eq_of_lt h]
  omega

/-- Conversely, a zero extension from n bits is below 2^n. -/
theorem fitsUnsigned_setWidth (n : Nat) (hn : n ≤ 64) (b : BitVec n) : fitsUnsigned n (b.setWidth 64) = true := by
  have := b.isLt
  have : 2 ^ n ≤ 2 ^ 64 := Nat.pow_le_pow_right (by decide) hn
  simp only [fitsUnsigned, decide_eq_true_eq, BitVec.toNat_setWidth]
  rw [Nat.mod_eq_of_lt (by omega)]; omega

/-- The low bits of a zero extension are the bits extended. -/
theorem extract_setWidth (n a m : Nat) (hn : n ≤ 64) (b : BitVec n) (h : a + m ≤ n) :
    (b.setWidth 64).extractLsb' a m = b.extractLsb' a m := by
  apply BitVec.eq_of_getLsbD_eq
  intro i hi
  simp only [BitVec.getLsbD_extractLsb', BitVec.getLsbD_setWidth, show a + i < 64 by omega, decide_true, Bool.true_and]

/-- A value is even exactly when its bit 0 is clear. -/
theorem even_iff (v : Word) : isEven v = true ↔ v.getLsbD 0 = false := by
  simp only [isEven, decide_eq_true_eq, ← BitVec.testBit_toNat, Nat.testBit_zero, decide_eq_false_iff_not]
  omega

/-- The pieces of an S-immediate (R85). -/
theorem pieces_S (off : Word) : (off.extractLsb' 5 7 ++ off.extractLsb' 0 5 : BitVec 12) = off.extractLsb' 0 12 := by
  apply BitVec.eq_of_getLsbD_eq
  intro i hi
  simp only [BitVec.getLsbD_append, BitVec.getLsbD_extractLsb']
  interval_cases i <;> simp

/-- The pieces of a B-immediate of an even offset (R86). -/
theorem pieces_B (off : Word) (h : isEven off = true) :
    (off.extractLsb' 12 1 ++ off.extractLsb' 11 1 ++ off.extractLsb' 5 6 ++ off.extractLsb' 1 4 ++ 0#1 : BitVec 13) =
      off.extractLsb' 0 13 := by
  have h0 : off[0] = false := (even_iff off).1 h
  apply BitVec.eq_of_getLsbD_eq
  intro i hi
  simp only [BitVec.getLsbD_append, BitVec.getLsbD_extractLsb']
  interval_cases i <;> simp [h0]

/-- The pieces of a J-immediate of an even offset (R87). -/
theorem pieces_J (off : Word) (h : isEven off = true) :
    (off.extractLsb' 20 1 ++ off.extractLsb' 12 8 ++ off.extractLsb' 11 1 ++ off.extractLsb' 1 10 ++ 0#1 : BitVec 21) =
      off.extractLsb' 0 21 := by
  have h0 : off[0] = false := (even_iff off).1 h
  apply BitVec.eq_of_getLsbD_eq
  intro i hi
  simp only [BitVec.getLsbD_append, BitVec.getLsbD_extractLsb']
  interval_cases i <;> simp [h0]

/-! ## Encoding the fields of a word gives the word back -/

/-- The slices of format R (and S) make up the word. -/
theorem concat_R (w : InstWord) :
    (w.extractLsb' 25 7 ++ w.extractLsb' 20 5 ++ w.extractLsb' 15 5 ++ w.extractLsb' 12 3 ++ w.extractLsb' 7 5 ++ w.extractLsb' 0 7 : BitVec 32) = w := by
  apply BitVec.eq_of_getLsbD_eq
  intro i hi
  simp only [BitVec.getLsbD_append, BitVec.getLsbD_extractLsb']
  interval_cases i <;> simp

/-- The slices of format I make up the word. -/
theorem concat_I (w : InstWord) :
    (w.extractLsb' 20 12 ++ w.extractLsb' 15 5 ++ w.extractLsb' 12 3 ++ w.extractLsb' 7 5 ++ w.extractLsb' 0 7 : BitVec 32) = w := by
  apply BitVec.eq_of_getLsbD_eq
  intro i hi
  simp only [BitVec.getLsbD_append, BitVec.getLsbD_extractLsb']
  interval_cases i <;> simp

/-- The slices of format Shift make up the word. -/
theorem concat_Shift (w : InstWord) :
    (w.extractLsb' 26 6 ++ w.extractLsb' 20 6 ++ w.extractLsb' 15 5 ++ w.extractLsb' 12 3 ++ w.extractLsb' 7 5 ++ w.extractLsb' 0 7 : BitVec 32) = w := by
  apply BitVec.eq_of_getLsbD_eq
  intro i hi
  simp only [BitVec.getLsbD_append, BitVec.getLsbD_extractLsb']
  interval_cases i <;> simp

/-- The slices of format B make up the word. -/
theorem concat_B (w : InstWord) :
    (w.extractLsb' 31 1 ++ w.extractLsb' 25 6 ++ w.extractLsb' 20 5 ++ w.extractLsb' 15 5 ++ w.extractLsb' 12 3 ++ w.extractLsb' 8 4 ++ w.extractLsb' 7 1 ++ w.extractLsb' 0 7 : BitVec 32) = w := by
  apply BitVec.eq_of_getLsbD_eq
  intro i hi
  simp only [BitVec.getLsbD_append, BitVec.getLsbD_extractLsb']
  interval_cases i <;> simp

/-- The slices of format J make up the word. -/
theorem concat_J (w : InstWord) :
    (w.extractLsb' 31 1 ++ w.extractLsb' 21 10 ++ w.extractLsb' 20 1 ++ w.extractLsb' 12 8 ++ w.extractLsb' 7 5 ++ w.extractLsb' 0 7 : BitVec 32) = w := by
  apply BitVec.eq_of_getLsbD_eq
  intro i hi
  simp only [BitVec.getLsbD_append, BitVec.getLsbD_extractLsb']
  interval_cases i <;> simp

/-- The slices of format U make up the word. -/
theorem concat_U (w : InstWord) :
    (w.extractLsb' 12 20 ++ w.extractLsb' 7 5 ++ w.extractLsb' 0 7 : BitVec 32) = w := by
  apply BitVec.eq_of_getLsbD_eq
  intro i hi
  simp only [BitVec.getLsbD_append, BitVec.getLsbD_extractLsb']
  interval_cases i <;> simp

/-! ## Immediates of encoded words (30_encoding.md R84 to R89) -/

/-- An I-immediate that fits survives encoding. -/
theorem immI_encodeI (imm : Word) (rs1 : Reg) (f3 : BitVec 3) (rd : Reg) (op : BitVec 7) (h : fitsSigned 11 imm = true) :
    immI (encodeI imm rs1 f3 rd op) = imm := by
  rw [immI, slice20_encodeI, signExtend_of_fitsSigned 11 (by decide) _ h]

/-- An S-immediate that fits survives encoding. -/
theorem immS_encodeS (imm : Word) (rs2 rs1 : Reg) (f3 : BitVec 3) (h : fitsSigned 11 imm = true) :
    immS (encodeS imm rs2 rs1 f3) = imm := by
  rw [immS, slice25_encodeS, slice7_encodeS, pieces_S, signExtend_of_fitsSigned 11 (by decide) _ h]

/-- An even B-immediate that fits survives encoding. -/
theorem immB_encodeB (imm : Word) (rs2 rs1 : Reg) (f3 : BitVec 3) (h : fitsSigned 12 imm = true) (h2 : isEven imm = true) :
    immB (encodeB imm rs2 rs1 f3) = imm := by
  rw [immB, slice31_encodeB, slice7_encodeB, slice25_encodeB, slice8_encodeB, pieces_B _ h2, signExtend_of_fitsSigned 12 (by decide) _ h]

/-- An even J-immediate that fits survives encoding. -/
theorem immJ_encodeJ (imm : Word) (rd : Reg) (h : fitsSigned 20 imm = true) (h2 : isEven imm = true) :
    immJ (encodeJ imm rd) = imm := by
  rw [immJ, slice31_encodeJ, slice12_encodeJ, slice20_encodeJ, slice21_encodeJ, pieces_J _ h2, signExtend_of_fitsSigned 20 (by decide) _ h]

/-- A U-immediate that fits survives encoding. -/
theorem immU_encodeU (imm : Word) (rd : Reg) (h : fitsUnsigned 20 imm = true) : immU (encodeU imm rd) = imm := by
  rw [immU, slice12_encodeU, zeroExtend_of_fitsUnsigned _ _ h]

/-- A shift amount that fits survives encoding. -/
theorem immShift_encodeShift (f6 : BitVec 6) (imm : Word) (rs1 : Reg) (f3 : BitVec 3) (rd : Reg) (h : fitsUnsigned 6 imm = true) :
    immShift (encodeShift f6 imm rs1 f3 rd) = imm := by
  rw [immShift, slice20_encodeShift, zeroExtend_of_fitsUnsigned _ _ h]

/-! ## Words from their fields, format by format (30_encoding.md R82) -/

/-- A word is the R-encoding of its own fields. -/
theorem encodeR_of_fields (w : InstWord) (f7 : BitVec 7) (f3 : BitVec 3) (op : BitVec 7) (h7 : funct7Of w = f7) (h3 : funct3Of w = f3) (ho : opcodeOf w = op) :
    encodeR f7 (rs2Of w) (rs1Of w) f3 (rdOf w) op = w := by
  subst h7 h3 ho
  simp only [encodeR, rs2Of, rs1Of, rdOf, bitsOfReg_regOfBits, funct7Of, funct3Of, opcodeOf]; exact concat_R w

/-- A word is the I-encoding of its own fields. -/
theorem encodeI_of_fields (w : InstWord) (f3 : BitVec 3) (op : BitVec 7) (h3 : funct3Of w = f3) (ho : opcodeOf w = op) :
    encodeI (immI w) (rs1Of w) f3 (rdOf w) op = w := by
  subst h3 ho
  simp only [encodeI, rs1Of, rdOf, bitsOfReg_regOfBits, funct3Of, opcodeOf, immI]
  rw [extract_signExtend 12 0 12 (by decide) _ (by decide), BitVec.extractLsb'_eq_self]; exact concat_I w

/-- A word is the I-shift encoding of its own fields. -/
theorem encodeShift_of_fields (w : InstWord) (f6 : BitVec 6) (f3 : BitVec 3) (h6 : funct6Of w = f6) (h3 : funct3Of w = f3) (ho : opcodeOf w = 0b0010011) :
    encodeShift f6 (immShift w) (rs1Of w) f3 (rdOf w) = w := by
  subst h6 h3
  simp only [encodeShift, rs1Of, rdOf, bitsOfReg_regOfBits, funct6Of, funct3Of, immShift]
  rw [extract_setWidth 6 0 6 (by decide) _ (by decide), BitVec.extractLsb'_eq_self]; rw [show (0b0010011#7) = w.extractLsb' 0 7 from ho.symm]; exact concat_Shift w

/-- A word is the S-encoding of its own fields. -/
theorem encodeS_of_fields (w : InstWord) (f3 : BitVec 3) (h3 : funct3Of w = f3) (ho : opcodeOf w = 0b0100011) :
    encodeS (immS w) (rs2Of w) (rs1Of w) f3 = w := by
  subst h3
  simp only [encodeS, rs1Of, rs2Of, bitsOfReg_regOfBits, funct3Of, immS]
  rw [extract_signExtend 12 _ _ (by decide) _ (by decide), extract_signExtend 12 _ _ (by decide) _ (by decide)]
  have a : BitVec.extractLsb' 5 7 (BitVec.extractLsb' 25 7 w ++ BitVec.extractLsb' 7 5 w : BitVec 12) = BitVec.extractLsb' 25 7 w := by
    rw [BitVec.extractLsb'_append_eq_of_le (by decide)]; simp
  have b : BitVec.extractLsb' 0 5 (BitVec.extractLsb' 25 7 w ++ BitVec.extractLsb' 7 5 w : BitVec 12) = BitVec.extractLsb' 7 5 w := by
    rw [BitVec.extractLsb'_append_eq_of_add_le (by decide)]; simp
  rw [a, b, show (0b0100011#7) = w.extractLsb' 0 7 from ho.symm]; exact concat_R w

/-- A word is the B-encoding of its own fields. -/
theorem encodeB_of_fields (w : InstWord) (f3 : BitVec 3) (h3 : funct3Of w = f3) (ho : opcodeOf w = 0b1100011) :
    encodeB (immB w) (rs2Of w) (rs1Of w) f3 = w := by
  subst h3
  simp only [encodeB, rs1Of, rs2Of, bitsOfReg_regOfBits, funct3Of, immB]
  rw [extract_signExtend 13 _ _ (by decide) _ (by decide), extract_signExtend 13 _ _ (by decide) _ (by decide), extract_signExtend 13 _ _ (by decide) _ (by decide), extract_signExtend 13 _ _ (by decide) _ (by decide)]
  have key : ∀ (a b : BitVec 1) (c : BitVec 6) (d : BitVec 4),
      BitVec.extractLsb' 12 1 (a ++ b ++ c ++ d ++ 0#1 : BitVec 13) = a ∧ BitVec.extractLsb' 11 1 (a ++ b ++ c ++ d ++ 0#1 : BitVec 13) = b ∧ BitVec.extractLsb' 5 6 (a ++ b ++ c ++ d ++ 0#1 : BitVec 13) = c ∧ BitVec.extractLsb' 1 4 (a ++ b ++ c ++ d ++ 0#1 : BitVec 13) = d := by
    intro a b c d
    refine ⟨?_, ?_, ?_, ?_⟩
    · simp only [BitVec.extractLsb'_append_eq_ite]; simp
    · simp only [BitVec.extractLsb'_append_eq_ite]; simp
    · simp only [BitVec.extractLsb'_append_eq_ite]; simp
    · simp only [BitVec.extractLsb'_append_eq_ite]; simp
  obtain ⟨k1, k2, k3, k4⟩ := key (w.extractLsb' 31 1) (w.extractLsb' 7 1) (w.extractLsb' 25 6) (w.extractLsb' 8 4)
  rw [k1, k2, k3, k4]; rw [show (0b1100011#7) = w.extractLsb' 0 7 from ho.symm]; exact concat_B w

/-- A word is the J-encoding of its own fields. -/
theorem encodeJ_of_fields (w : InstWord) (ho : opcodeOf w = 0b1101111) : encodeJ (immJ w) (rdOf w) = w := by
  simp only [encodeJ, rdOf, bitsOfReg_regOfBits, immJ]
  rw [extract_signExtend 21 _ _ (by decide) _ (by decide), extract_signExtend 21 _ _ (by decide) _ (by decide), extract_signExtend 21 _ _ (by decide) _ (by decide), extract_signExtend 21 _ _ (by decide) _ (by decide)]
  have key : ∀ (a : BitVec 1) (b : BitVec 8) (c : BitVec 1) (d : BitVec 10),
      BitVec.extractLsb' 20 1 (a ++ b ++ c ++ d ++ 0#1 : BitVec 21) = a ∧ BitVec.extractLsb' 12 8 (a ++ b ++ c ++ d ++ 0#1 : BitVec 21) = b ∧ BitVec.extractLsb' 11 1 (a ++ b ++ c ++ d ++ 0#1 : BitVec 21) = c ∧ BitVec.extractLsb' 1 10 (a ++ b ++ c ++ d ++ 0#1 : BitVec 21) = d := by
    intro a b c d
    refine ⟨?_, ?_, ?_, ?_⟩
    · simp only [BitVec.extractLsb'_append_eq_ite]; simp
    · simp only [BitVec.extractLsb'_append_eq_ite]; simp
    · simp only [BitVec.extractLsb'_append_eq_ite]; simp
    · simp only [BitVec.extractLsb'_append_eq_ite]; simp
  obtain ⟨k1, k2, k3, k4⟩ := key (w.extractLsb' 31 1) (w.extractLsb' 12 8) (w.extractLsb' 20 1) (w.extractLsb' 21 10)
  rw [k1, k2, k3, k4]; rw [show (0b1101111#7) = w.extractLsb' 0 7 from ho.symm]; exact concat_J w

/-- A word is the U-encoding of its own fields. -/
theorem encodeU_of_fields (w : InstWord) (ho : opcodeOf w = 0b0110111) : encodeU (immU w) (rdOf w) = w := by
  simp only [encodeU, rdOf, bitsOfReg_regOfBits, immU]
  rw [extract_setWidth 20 0 20 (by decide) _ (by decide), BitVec.extractLsb'_eq_self]; rw [show (0b0110111#7) = w.extractLsb' 0 7 from ho.symm]; exact concat_U w

/-- A decoded branch offset is even. -/
theorem isEven_immB (w : InstWord) : isEven (immB w) = true := by
  rw [even_iff, immB, BitVec.getLsbD_signExtend]
  simp only [show (0:Nat) < 64 by decide, show (0:Nat) < 13 by decide, decide_true, Bool.true_and, if_true]
  rw [BitVec.getLsbD_append]; rfl

/-- A decoded `jal` offset is even. -/
theorem isEven_immJ (w : InstWord) : isEven (immJ w) = true := by
  rw [even_iff, immJ, BitVec.getLsbD_signExtend]
  simp only [show (0:Nat) < 64 by decide, show (0:Nat) < 21 by decide, decide_true, Bool.true_and, if_true]
  rw [BitVec.getLsbD_append]; rfl

/-! ## Masks of the opcode table (30_encoding.md R97) -/

/-- A field wholly under the mask of a covered word is the field of the pattern. -/
theorem slice_of_masked (w m p : InstWord) (h : w &&& m = p) (a n : Nat) (hm : m.extractLsb' a n = BitVec.allOnes n) :
    w.extractLsb' a n = p.extractLsb' a n := by
  rw [← h, BitVec.extractLsb'_and, hm, BitVec.and_allOnes]

/-! ## Reduced shift immediates (30_encoding.md R101) -/

/-- Masking keeps the low n bits of a value, for a mask that covers them. -/
theorem extract_and_mask (v m : Word) (n : Nat) (hm : m.extractLsb' 0 n = BitVec.allOnes n) :
    (v &&& m).extractLsb' 0 n = v.extractLsb' 0 n := by
  rw [BitVec.extractLsb'_and, hm, BitVec.and_allOnes]

/-- A value reduced to 6 bits fits them. -/
theorem fitsUnsigned_and63 (v : Word) : fitsUnsigned 6 (v &&& 63) = true := by
  simp only [fitsUnsigned, decide_eq_true_eq, BitVec.toNat_and]
  exact lt_of_le_of_lt Nat.and_le_right (by decide)

/-- Reducing a value that fits 6 bits leaves it as it is. -/
theorem and63_of_fitsUnsigned (v : Word) (h : fitsUnsigned 6 v = true) : v &&& 63 = v := by
  simp only [fitsUnsigned, decide_eq_true_eq] at h
  apply BitVec.eq_of_toNat_eq
  rw [BitVec.toNat_and, show (63 : Word).toNat = 2 ^ 6 - 1 from rfl, Nat.and_two_pow_sub_one_eq_mod, Nat.mod_eq_of_lt h]

/-- The encoder reduces a shift immediate itself. -/
@[simp] theorem encode_reduced (i : Instr) : encode i.reduced = encode i := by
  cases i <;> simp only [Instr.reduced, encode, encodeShift] <;> rw [extract_and_mask _ _ _ (by decide)]

end Sys2Proof
end

