-- ==== Sys2Proof/Laws/Memory.lean ====
section
/-! SUPPORT. The laws of memory: what a byte reads after a write, and that every operation keeps the canonical form. -/

namespace Sys2Proof.Machine

/-! ## One byte -/

/-- An address below every listed one reads as an unlisted one. -/
theorem Memory.read_of_below (m : Memory) (a : Nat) (h : ∀ c ∈ m, a < c.1) : Memory.read m a = Memory.unlisted := by
  induction m with
  | nil => rfl
  | cons c rest ih =>
    obtain ⟨k, v⟩ := c
    have hk : k ≠ a := by have := h (k, v) (by simp); simp at this; omega
    simp only [Memory.read, if_neg hk]
    exact ih (fun c hc => h c (by simp [hc]))

/-- The canonical form, one entry at a time. -/
theorem Memory.wf_cons (k : Nat) (v : Byte) (rest : Memory) :
    Memory.wf ((k, v) :: rest) = true ↔
      v ≠ Memory.unlisted ∧ (∀ c ∈ rest, k < c.1) ∧ Memory.wf rest = true := by
  simp [Memory.wf, and_assoc]

/-- After a write of one byte, that byte reads the value written and every other byte reads as before. -/
theorem Memory.read_write (m : Memory) (a x : Nat) (b : Byte) (h : Memory.wf m = true) :
    Memory.read (Memory.write m a b) x = if x = a then b else Memory.read m x := by
  induction m with
  | nil =>
    unfold Memory.write
    split <;> by_cases hx : x = a
    · simp_all [Memory.read]
    · simp_all [Memory.read]
    · simp [Memory.read, hx]
    · simp [Memory.read, hx, Ne.symm hx]
  | cons c rest ih =>
    obtain ⟨k, v⟩ := c
    obtain ⟨hv, hlt, hw⟩ := (Memory.wf_cons k v rest).1 h
    have ih := ih hw
    unfold Memory.write
    split
    · rename_i hak
      by_cases hb : b = Memory.unlisted
      · rw [if_pos hb]
        by_cases hx : x = a
        · rw [if_pos hx, hx, hb]
          exact Memory.read_of_below _ _ (fun c hc => by
            rcases List.mem_cons.1 hc with h1 | h1
            · rw [h1]; exact hak
            · exact Nat.lt_trans hak (hlt c h1))
        · rw [if_neg hx]
      · rw [if_neg hb]
        by_cases hx : x = a
        · simp [Memory.read, hx]
        · simp [Memory.read, hx, Ne.symm hx]
    · split
      · rename_i _ hak
        subst hak
        by_cases hb : b = Memory.unlisted
        · rw [if_pos hb]
          by_cases hx : x = a
          · rw [if_pos hx, hx, hb]; exact Memory.read_of_below _ _ hlt
          · rw [if_neg hx]; simp [Memory.read, Ne.symm hx]
        · rw [if_neg hb]
          by_cases hx : x = a
          · simp [Memory.read, hx]
          · simp [Memory.read, hx, Ne.symm hx]
      · rename_i h1 h2
        by_cases hx : k = x
        · have : x ≠ a := fun e => h2 (by omega)
          simp [Memory.read, hx, this]
        · simp only [Memory.read, if_neg hx]; exact ih

/-- The listed addresses after a write are those before, and the one written. -/
theorem Memory.mem_write (m : Memory) (a : Nat) (b : Byte) (c : Host.Cell) (h : c ∈ Memory.write m a b) :
    c ∈ m ∨ c.1 = a := by
  induction m with
  | nil => unfold Memory.write at h; split at h <;> simp_all
  | cons d rest ih =>
    obtain ⟨k, v⟩ := d
    unfold Memory.write at h
    split at h
    · split at h <;> simp_all; rcases h with h | h | h <;> simp [h]
    · split at h
      · split at h <;> simp_all; rcases h with h | h <;> simp [h]
      · rcases List.mem_cons.1 h with h | h
        · simp [h]
        · rcases ih h with h | h <;> simp [h]

/-- A write keeps the canonical form. -/
theorem Memory.wf_write (m : Memory) (a : Nat) (b : Byte) (h : Memory.wf m = true) :
    Memory.wf (Memory.write m a b) = true := by
  induction m with
  | nil => unfold Memory.write; split <;> simp_all [Memory.wf]
  | cons d rest ih =>
    obtain ⟨k, v⟩ := d
    obtain ⟨hv, hlt, hw⟩ := (Memory.wf_cons k v rest).1 h
    unfold Memory.write
    split
    · split
      · exact h
      · rename_i hak hb
        exact (Memory.wf_cons _ _ _).2 ⟨hb, fun c hc => by
          rcases List.mem_cons.1 hc with h1 | h1
          · rw [h1]; exact hak
          · exact Nat.lt_trans hak (hlt c h1), h⟩
    · split
      · split
        · exact hw
        · rename_i _ hak hb
          subst hak
          exact (Memory.wf_cons _ _ _).2 ⟨hb, hlt, hw⟩
      · rename_i h1 h2
        exact (Memory.wf_cons _ _ _).2 ⟨hv, fun c hc => by
          rcases Memory.mem_write _ _ _ _ hc with h | h
          · exact hlt c h
          · omega, ih hw⟩

/-- A write below a bound keeps every listed address below it. -/
theorem Memory.within_write (m : Memory) (a bound : Nat) (b : Byte) (h : Memory.within m bound = true)
    (ha : a < bound) : Memory.within (Memory.write m a b) bound = true := by
  simp only [Memory.within, List.all_eq_true, decide_eq_true_eq] at h ⊢
  intro c hc
  rcases Memory.mem_write _ _ _ _ hc with h1 | h1
  · exact h c h1
  · omega

/-! ## Several bytes (20_memory.md R52, R53) -/

/-- A multi-byte write keeps the canonical form. -/
theorem Memory.wf_writeLE (m : Memory) (a n : Nat) (v : Word) (h : Memory.wf m = true) :
    Memory.wf (Memory.writeLE m a v n) = true := by
  induction n with
  | zero => exact h
  | succ n ih => exact Memory.wf_write _ _ _ ih

/-- A multi-byte write below a bound keeps every listed address below it. -/
theorem Memory.within_writeLE (m : Memory) (a n bound : Nat) (v : Word) (h : Memory.within m bound = true)
    (ha : a + n ≤ bound) : Memory.within (Memory.writeLE m a v n) bound = true := by
  induction n with
  | zero => exact h
  | succ n ih => exact Memory.within_write _ _ _ _ (ih (by omega)) (by omega)

/-- After a multi-byte write, the bytes of the access read the bytes of the value, every other byte as before. -/
theorem Memory.read_writeLE (m : Memory) (a n x : Nat) (v : Word) (h : Memory.wf m = true) :
    Memory.read (Memory.writeLE m a v n) x =
      if a ≤ x ∧ x < a + n then byteOf v (x - a) else Memory.read m x := by
  induction n with
  | zero => rw [if_neg (by omega)]; rfl
  | succ n ih =>
    unfold Memory.writeLE
    rw [Memory.read_write _ _ _ _ (Memory.wf_writeLE m a n v h), ih]
    by_cases hx : x = a + n
    · subst hx; rw [if_pos rfl, if_pos (by omega)]; congr 1; omega
    · rw [if_neg hx]
      by_cases hr : a ≤ x ∧ x < a + n
      · rw [if_pos hr, if_pos (by omega)]
      · rw [if_neg hr, if_neg (by omega)]

/-- The value read depends on the bytes of the access alone. -/
theorem Memory.readLE_congr (m m' : Memory) (a n : Nat)
    (h : ∀ k, k < n → Memory.read m (a + k) = Memory.read m' (a + k)) : Memory.readLE m a n = Memory.readLE m' a n := by
  induction n with
  | zero => rfl
  | succ n ih => simp only [Memory.readLE]; rw [ih (fun k hk => h k (by omega)), h n (by omega)]

/-- The value read from n bytes that are those of a value shifted by whole bytes. -/
theorem Memory.readLE_of_bytes (m : Memory) (a n j : Nat) (v : Word)
    (h : ∀ k, k < n → Memory.read m (a + k) = byteOf v (j + k)) :
    Memory.readLE m a n = (v.toNat / 2 ^ (8 * j)) % 2 ^ (8 * n) := by
  induction n with
  | zero => simp [Memory.readLE, Nat.mod_one]
  | succ n ih =>
    simp only [Memory.readLE]
    rw [ih (fun k hk => h k (by omega)), h n (by omega)]
    have hb : (byteOf v (j + n)).toNat = v.toNat / 2 ^ (8 * j) / 2 ^ (8 * n) % 2 ^ 8 := by
      simp only [byteOf, BitVec.extractLsb'_toNat, Nat.shiftRight_eq_div_pow, Nat.div_div_eq_div_mul]
      rw [← Nat.pow_add, Nat.mul_add]
    rw [hb, show 8 * (n + 1) = 8 * n + 8 by ring, Nat.pow_add, Nat.mod_mul]
    ring

/-- The value read is below 2^(8n). -/
theorem Memory.readLE_lt (m : Memory) (a n : Nat) : Memory.readLE m a n < 2 ^ (8 * n) := by
  induction n with
  | zero => simp [Memory.readLE]
  | succ n ih =>
    simp only [Memory.readLE]
    have hb : (Memory.read m (a + n)).toNat < 2 ^ 8 := (Memory.read m (a + n)).isLt
    have : (Memory.read m (a + n)).toNat * 2 ^ (8 * n) ≤ (2 ^ 8 - 1) * 2 ^ (8 * n) :=
      Nat.mul_le_mul_right _ (by omega)
    rw [show 8 * (n + 1) = 8 * n + 8 by ring, Nat.pow_add]
    omega

/-- Bit i of the value read is bit `i % 8` of byte `i / 8` of the access. -/
theorem Memory.testBit_readLE (m : Memory) (a n i : Nat) (hi : i < 8 * n) :
    (Memory.readLE m a n).testBit i = (Memory.read m (a + i / 8)).getLsbD (i % 8) := by
  induction n with
  | zero => omega
  | succ n ih =>
    simp only [Memory.readLE]
    rw [Nat.add_comm, Nat.mul_comm, Nat.testBit_two_pow_mul_add _ (Memory.readLE_lt m a n)]
    split
    · exact ih ‹_›
    · have h1 : i / 8 = n := by omega
      have h2 : i - 8 * n = i % 8 := by omega
      rw [h1, h2]; rfl

end Sys2Proof.Machine
end

