-- ==== Sys2Proof/Laws/State.lean ====
section
/-! SUPPORT. One lemma per field per update of the state, and what registers read after each update. -/

namespace Sys2Proof.Machine

/-! ## `setPc` and `advance` -/

@[simp] theorem State.setPc_cfg (s : State) (t : Word) : (s.setPc t).cfg = s.cfg := rfl
@[simp] theorem State.setPc_regs (s : State) (t : Word) : (s.setPc t).regs = s.regs := rfl
@[simp] theorem State.setPc_pc (s : State) (t : Word) : (s.setPc t).pc = t := rfl
@[simp] theorem State.setPc_prog (s : State) (t : Word) : (s.setPc t).prog = s.prog := rfl
@[simp] theorem State.setPc_labels (s : State) (t : Word) : (s.setPc t).labels = s.labels := rfl
@[simp] theorem State.setPc_mem (s : State) (t : Word) : (s.setPc t).mem = s.mem := rfl
@[simp] theorem State.setPc_breakpoints (s : State) (t : Word) : (s.setPc t).breakpoints = s.breakpoints := rfl
@[simp] theorem State.setPc_flt (s : State) (t : Word) : (s.setPc t).flt = s.flt := rfl

@[simp] theorem State.advance_cfg (s : State) : s.advance.cfg = s.cfg := rfl
@[simp] theorem State.advance_regs (s : State) : s.advance.regs = s.regs := rfl
@[simp] theorem State.advance_pc (s : State) : s.advance.pc = s.pc + 4 := rfl
@[simp] theorem State.advance_prog (s : State) : s.advance.prog = s.prog := rfl
@[simp] theorem State.advance_labels (s : State) : s.advance.labels = s.labels := rfl
@[simp] theorem State.advance_mem (s : State) : s.advance.mem = s.mem := rfl
@[simp] theorem State.advance_breakpoints (s : State) : s.advance.breakpoints = s.breakpoints := rfl
@[simp] theorem State.advance_flt (s : State) : s.advance.flt = s.flt := rfl

/-! ## `writeReg` -/

@[simp] theorem State.writeReg_cfg (s : State) (r : Reg) (v : Word) : (s.writeReg r v).cfg = s.cfg := by
  unfold State.writeReg; split <;> rfl
@[simp] theorem State.writeReg_pc (s : State) (r : Reg) (v : Word) : (s.writeReg r v).pc = s.pc := by
  unfold State.writeReg; split <;> rfl
@[simp] theorem State.writeReg_prog (s : State) (r : Reg) (v : Word) : (s.writeReg r v).prog = s.prog := by
  unfold State.writeReg; split <;> rfl
@[simp] theorem State.writeReg_labels (s : State) (r : Reg) (v : Word) : (s.writeReg r v).labels = s.labels := by
  unfold State.writeReg; split <;> rfl
@[simp] theorem State.writeReg_mem (s : State) (r : Reg) (v : Word) : (s.writeReg r v).mem = s.mem := by
  unfold State.writeReg; split <;> rfl
@[simp] theorem State.writeReg_breakpoints (s : State) (r : Reg) (v : Word) :
    (s.writeReg r v).breakpoints = s.breakpoints := by
  unfold State.writeReg; split <;> rfl
@[simp] theorem State.writeReg_flt (s : State) (r : Reg) (v : Word) : (s.writeReg r v).flt = s.flt := by
  unfold State.writeReg; split <;> rfl

/-! ## `takeFault` -/

@[simp] theorem State.takeFault_cfg (s : State) (f : Fault) : (s.takeFault f).cfg = s.cfg := by
  unfold State.takeFault; split <;> rfl
@[simp] theorem State.takeFault_regs (s : State) (f : Fault) : (s.takeFault f).regs = s.regs := by
  unfold State.takeFault; split <;> rfl
@[simp] theorem State.takeFault_pc (s : State) (f : Fault) : (s.takeFault f).pc = s.pc := by
  unfold State.takeFault; split <;> rfl
@[simp] theorem State.takeFault_prog (s : State) (f : Fault) : (s.takeFault f).prog = s.prog := by
  unfold State.takeFault; split <;> rfl
@[simp] theorem State.takeFault_labels (s : State) (f : Fault) : (s.takeFault f).labels = s.labels := by
  unfold State.takeFault; split <;> rfl
@[simp] theorem State.takeFault_mem (s : State) (f : Fault) : (s.takeFault f).mem = s.mem := by
  unfold State.takeFault; split <;> rfl
@[simp] theorem State.takeFault_breakpoints (s : State) (f : Fault) :
    (s.takeFault f).breakpoints = s.breakpoints := by
  unfold State.takeFault; split <;> rfl

/-- The latch takes the report if it is empty and keeps its first value otherwise. -/
theorem State.takeFault_flt (s : State) (f : Fault) :
    (s.takeFault f).flt = some (s.flt.getD (s.faultReport f)) := by
  unfold State.takeFault; split <;> simp_all

/-! ## What registers read -/

/-- The hard-wired register depends on the parameters alone. -/
theorem State.hardwired_of_cfg {s t : State} (h : t.cfg = s.cfg) (r : Reg) : t.hardwired r = s.hardwired r := by
  simp [State.hardwired, h]

/-- A read depends on the parameters and the register file alone. -/
theorem State.readReg_of_regs {s t : State} (hc : t.cfg = s.cfg) (hr : t.regs = s.regs) (r : Reg) :
    t.readReg r = s.readReg r := by
  simp [State.readReg, State.hardwired, hc, hr]

@[simp] theorem State.readReg_setPc (s : State) (t : Word) (r : Reg) : (s.setPc t).readReg r = s.readReg r := rfl
@[simp] theorem State.readReg_advance (s : State) (r : Reg) : s.advance.readReg r = s.readReg r := rfl
@[simp] theorem State.readReg_takeFault (s : State) (f : Fault) (r : Reg) :
    (s.takeFault f).readReg r = s.readReg r := State.readReg_of_regs (by simp) (by simp) r

/-- A read of a state whose register file was replaced. -/
theorem State.readReg_with_regs (s : State) (regs : Vector Word 32) (r : Reg) :
    State.readReg { s with regs := regs } r = if s.hardwired r then 0 else regs[r] := rfl

/-- Writing a hard-wired register leaves the state as it is. -/
theorem State.writeReg_hardwired (s : State) (r : Reg) (v : Word) (h : s.hardwired r = true) : s.writeReg r v = s := by
  simp [State.writeReg, h]

/-- The register written reads the value, but for a hard-wired one, which reads 0. -/
theorem State.readReg_writeReg_same (s : State) (r : Reg) (v : Word) :
    (s.writeReg r v).readReg r = if s.cfg.x0Hardwired = true ∧ r = 0 then 0 else v := by
  have hh : s.hardwired r = true ↔ s.cfg.x0Hardwired = true ∧ r = 0 := by simp [State.hardwired]
  by_cases h : s.hardwired r = true
  · rw [State.writeReg, if_pos h, State.readReg, if_pos h, if_pos (hh.1 h)]
  · rw [State.writeReg, if_neg h, State.readReg_with_regs, if_neg h, if_neg (fun e => h (hh.2 e))]
    simp

/-- Every other register reads as before. -/
theorem State.readReg_writeReg_other (s : State) (r q : Reg) (v : Word) (h : q ≠ r) :
    (s.writeReg r v).readReg q = s.readReg q := by
  have hv : r.val ≠ q.val := fun e => h (Fin.ext e.symm)
  by_cases hw : s.hardwired r = true
  · rw [State.writeReg_hardwired s r v hw]
  · have e : s.writeReg r v = { s with regs := s.regs.set r v } := by rw [State.writeReg, if_neg hw]
    rw [e, State.readReg_with_regs, State.readReg]
    simp [hv]

/-! ## What bytes read -/

@[simp] theorem State.readByte_setPc (s : State) (t : Word) (a : Nat) : (s.setPc t).readByte a = s.readByte a := rfl
@[simp] theorem State.readByte_advance (s : State) (a : Nat) : s.advance.readByte a = s.readByte a := rfl
@[simp] theorem State.readByte_writeReg (s : State) (r : Reg) (v : Word) (a : Nat) :
    (s.writeReg r v).readByte a = s.readByte a := by simp [State.readByte]
@[simp] theorem State.readByte_takeFault (s : State) (f : Fault) (a : Nat) :
    (s.takeFault f).readByte a = s.readByte a := by simp [State.readByte]

end Sys2Proof.Machine
end

