-- ==== Sys2Proof/Laws/Exec.lean ====
section
/-! SUPPORT. One lemma per shared operation of the engine, saying all it can do. -/

namespace Sys2Proof.Machine

/-! ## Bounds (20_memory.md R54) -/

/-- The bounds check, in naturals: bit 63 clear and the whole access below `MEM_SIZE`. -/
theorem State.inBounds_iff (s : State) (a : Word) (n : Nat) :
    s.inBounds a n = true ↔ a.toNat < 2 ^ 63 ∧ a.toNat + n ≤ s.cfg.memSize := by
  simp only [State.inBounds, Bool.and_eq_true, decide_eq_true_eq, BitVec.toInt_eq_toNat_cond]
  have := a.isLt
  split <;> omega

/-- A bounds check depends on the parameters alone. -/
theorem State.inBounds_of_cfg {s t : State} (h : t.cfg = s.cfg) (a : Word) (n : Nat) :
    t.inBounds a n = s.inBounds a n := by simp [State.inBounds, h]

/-- `MemRead` answers the little-endian value in bounds, the fault out of bounds. -/
theorem State.memRead_of_inBounds (s : State) (a : Word) (n : Nat) (h : s.inBounds a n = true) :
    s.memRead a n = .ok (BitVec.ofNat (8 * n) (Memory.readLE s.mem a.toNat n)) := by simp [State.memRead, h]

theorem State.memRead_of_outOfBounds (s : State) (a : Word) (n : Nat) (h : ¬s.inBounds a n = true) :
    s.memRead a n = .error (.memoryBounds a n) := by simp [State.memRead, h]

/-- `MemWrite` writes all bytes in bounds and none out of bounds. -/
theorem State.memWrite_of_inBounds (s : State) (a : Word) (n : Nat) (v : Word) (h : s.inBounds a n = true) :
    s.memWrite a n v = .ok { s with mem := Memory.writeLE s.mem a.toNat v n } := by simp [State.memWrite, h]

theorem State.memWrite_of_outOfBounds (s : State) (a : Word) (n : Nat) (v : Word) (h : ¬s.inBounds a n = true) :
    s.memWrite a n v = .error (.memoryBounds a n) := by simp [State.memWrite, h]

/-! ## One destination register -/

/-- A register write followed by `pc + 4` changes nothing else. -/
theorem writesOnly_advance (s : State) (rd : Reg) (v : Word) : WritesOnly s (s.writeReg rd v).advance rd v := by
  refine ⟨⟨fun h => ?_, fun r hr => ?_⟩, ?_, fun a => ?_, ?_⟩
  · rw [State.readReg_advance, State.readReg_writeReg_same, if_neg h]
  · rw [State.readReg_advance, State.readReg_writeReg_other _ _ _ _ hr]
  · simp
  · simp
  · simp [SameControl]

/-- A register-register operation always completes, with its result and its frame. -/
theorem registerOp_spec (f : Word → Word → Word) (rd rs1 rs2 : Reg) (s : State) :
    ∃ t, registerOp f rd rs1 rs2 s = .next t ∧ WritesOnly s t rd (f (s.readReg rs1) (s.readReg rs2)) :=
  ⟨_, rfl, writesOnly_advance _ _ _⟩

/-- A register-immediate operation always completes, with its result and its frame. -/
theorem immediateOp_spec (f : Word → Word → Word) (rd rs1 : Reg) (imm : Word) (s : State) :
    ∃ t, immediateOp f rd rs1 imm s = .next t ∧ WritesOnly s t rd (f (s.readReg rs1) imm) :=
  ⟨_, rfl, writesOnly_advance _ _ _⟩

/-! ## Loads and stores -/

/-- A load in bounds completes, with its result and its frame. -/
theorem loadOp_spec (n : Nat) (extend : BitVec (8 * n) → Word) (rd rs1 : Reg) (off : Word) (s : State)
    (h : s.inBounds (s.readReg rs1 + off) n = true) :
    ∃ t, loadOp n extend rd rs1 off s = .next t ∧
      WritesOnly s t rd
        (extend (BitVec.ofNat (8 * n) (Memory.readLE s.mem (s.readReg rs1 + off).toNat n))) := by
  refine ⟨_, ?_, writesOnly_advance _ _ _⟩
  simp [loadOp, State.effectiveAddress, s.memRead_of_inBounds _ _ h]

/-- A load out of bounds faults. -/
theorem loadOp_fault (n : Nat) (extend : BitVec (8 * n) → Word) (rd rs1 : Reg) (off : Word) (s : State)
    (h : ¬s.inBounds (s.readReg rs1 + off) n = true) :
    loadOp n extend rd rs1 off s = .fault (.memoryBounds (s.readReg rs1 + off) n) := by
  simp [loadOp, State.effectiveAddress, s.memRead_of_outOfBounds _ _ h]

/-- A store in bounds answers this state. -/
theorem storeOp_next (n : Nat) (rs2 rs1 : Reg) (off : Word) (s : State)
    (h : s.inBounds (s.readReg rs1 + off) n = true) :
    storeOp n rs2 rs1 off s =
      .next ({ s with mem := Memory.writeLE s.mem (s.readReg rs1 + off).toNat (s.readReg rs2) n } : State).advance := by
  simp [storeOp, State.effectiveAddress, s.memWrite_of_inBounds _ _ _ h]

/-- A store in bounds over canonical memory completes, with the bytes stored and its frame. -/
theorem storeOp_spec (n : Nat) (rs2 rs1 : Reg) (off : Word) (s : State) (hw : Memory.wf s.mem = true)
    (h : s.inBounds (s.readReg rs1 + off) n = true) :
    ∃ t, storeOp n rs2 rs1 off s = .next t ∧
      StoresOnly s t (s.readReg rs1 + off).toNat n (s.readReg rs2) := by
  refine ⟨_, storeOp_next n rs2 rs1 off s h, fun k hk => ?_, fun x hx => ?_, rfl, fun r => rfl, ?_⟩
  · simp only [State.readByte, State.advance_mem]
    rw [Memory.read_writeLE _ _ _ _ _ hw, if_pos (by omega), Nat.add_sub_cancel_left]; rfl
  · simp only [State.readByte, State.advance_mem]
    rw [Memory.read_writeLE _ _ _ _ _ hw, if_neg (by omega)]
  · simp [SameControl]

/-- A store out of bounds faults. -/
theorem storeOp_fault (n : Nat) (rs2 rs1 : Reg) (off : Word) (s : State)
    (h : ¬s.inBounds (s.readReg rs1 + off) n = true) :
    storeOp n rs2 rs1 off s = .fault (.memoryBounds (s.readReg rs1 + off) n) := by
  simp [storeOp, State.effectiveAddress, s.memWrite_of_outOfBounds _ _ _ h]

/-- What a load answers when it completes. -/
theorem loadOp_next_inv {n : Nat} {extend : BitVec (8 * n) → Word} {rd rs1 : Reg} {off : Word} {s t : State}
    (h : loadOp n extend rd rs1 off s = .next t) :
    s.inBounds (s.readReg rs1 + off) n = true ∧ ∃ v, t = (s.writeReg rd v).advance := by
  by_cases hb : s.inBounds (s.readReg rs1 + off) n = true
  · simp only [loadOp, State.effectiveAddress, s.memRead_of_inBounds _ _ hb] at h
    exact ⟨hb, _, (Host.Outcome.next.inj h).symm⟩
  · rw [loadOp_fault _ _ _ _ _ _ hb] at h; cases h

/-- What a store answers when it completes. -/
theorem storeOp_next_inv {n : Nat} {rs2 rs1 : Reg} {off : Word} {s t : State} (h : storeOp n rs2 rs1 off s = .next t) :
    s.inBounds (s.readReg rs1 + off) n = true ∧
      t = ({ s with mem := Memory.writeLE s.mem (s.readReg rs1 + off).toNat (s.readReg rs2) n } : State).advance := by
  by_cases hb : s.inBounds (s.readReg rs1 + off) n = true
  · rw [storeOp_next _ _ _ _ _ hb] at h
    exact ⟨hb, (Host.Outcome.next.inj h).symm⟩
  · rw [storeOp_fault _ _ _ _ _ hb] at h; cases h

/-! ## Branches -/

/-- Setting pc changes nothing else. -/
theorem setsOnlyPc_setPc (s : State) (target : Word) : SetsOnlyPc s (s.setPc target) target :=
  ⟨rfl, fun _ => rfl, fun _ => rfl, rfl, rfl, rfl, rfl, rfl⟩

/-- A branch always completes and sets only pc. -/
theorem branchOp_spec (cond : Word → Word → Bool) (rs1 rs2 : Reg) (off : Word) (s : State) :
    ∃ t, branchOp cond rs1 rs2 off s = .next t ∧
      SetsOnlyPc s t (if cond (s.readReg rs1) (s.readReg rs2) = true then s.pc + off else s.pc + 4) := by
  refine ⟨_, rfl, ?_⟩
  by_cases h : cond (s.readReg rs1) (s.readReg rs2) = true
  · rw [if_pos h, if_pos h]; exact setsOnlyPc_setPc s (s.pc + off)
  · rw [if_neg h, if_neg h]; exact setsOnlyPc_setPc s (s.pc + 4)

/-! ## Fetch (10_state.md R27) -/

/-- An element is fetched exactly from the slot of a non-negative, aligned pc. -/
theorem State.fetch_element_iff (s : State) (src : Source) :
    s.fetch = .element src ↔
      0 ≤ s.pc.toInt ∧ s.pc.extractLsb' 0 2 = 0 ∧ s.prog[s.pc.toNat / 4]? = some src := by
  unfold State.fetch
  by_cases h1 : s.pc.toInt < 0
  · simp [h1, Int.not_le.2 h1]
  · by_cases h2 : s.pc.extractLsb' 0 2 = 0
    · rw [if_neg h1, if_neg (by simpa using h2)]
      cases hp : s.prog[s.pc.toNat / 4]? <;> simp [Int.not_lt.1 h1]; simp at h2; simp [h2]
    · rw [if_neg h1, if_pos h2]
      exact ⟨fun h => (by cases h), fun h => absurd h.2.1 h2⟩

/-- A fetch depends on pc and the program store alone. -/
theorem State.fetch_of_eq {s t : State} (hp : t.pc = s.pc) (hg : t.prog = s.prog) : t.fetch = s.fetch := by
  simp [State.fetch, hp, hg]

/-- A report depends on pc and the program store alone. -/
theorem State.faultReport_of_eq {s t : State} (hp : t.pc = s.pc) (hg : t.prog = s.prog) (f : Fault) :
    t.faultReport f = s.faultReport f := by
  simp [State.faultReport, State.fetch_of_eq hp hg, hp]

/-! ## Placing an element -/

/-- The slot placed holds the element. -/
theorem placeAt_get (l : List Source) (n : Nat) (x : Source) : (placeAt l n x)[n]? = some x := by
  induction n generalizing l with
  | zero => cases l <;> simp [placeAt]
  | succ n ih => cases l <;> simp [placeAt, ih]

/-! ## Shift amounts (41_alu_immediate.md R145) -/

/-- A mask that covers the low 5 bits of a shift source changes no shift amount. -/
theorem shiftAmount_and (v m : Word) (hm : m.extractLsb' 0 5 = BitVec.allOnes 5) : shiftAmount (v &&& m) = shiftAmount v := by
  rw [shiftAmount, extract_and_mask _ _ _ hm, shiftAmount]

end Sys2Proof.Machine
end

