-- ==== Sys2Proof/Laws/Debug.lean ====
section
/-! SUPPORT. The laws of the debug controller: the breakpoint set, the data image, the loop of `run` one cycle at a time, and duplicate labels. -/

namespace Sys2Proof.Machine

/-! ## The breakpoint set -/

/-- A value is in the set after an insertion exactly if it was before, or is the one inserted. -/
theorem mem_insertBreakpoint (b x : Nat) (bs : List Nat) : x ∈ insertBreakpoint b bs ↔ x = b ∨ x ∈ bs := by
  induction bs with
  | nil => simp [insertBreakpoint]
  | cons y ys ih =>
    unfold insertBreakpoint
    split
    · simp
    · split
      · rename_i _ h; subst h; simp
      · simp only [List.mem_cons, ih]; exact or_left_comm

/-- An insertion keeps the set strictly rising. -/
theorem pairwise_insertBreakpoint (b : Nat) (bs : List Nat) (h : bs.Pairwise (fun a c => a < c)) :
    (insertBreakpoint b bs).Pairwise (fun a c => a < c) := by
  induction bs with
  | nil => simp [insertBreakpoint]
  | cons y ys ih =>
    obtain ⟨hy, hys⟩ := List.pairwise_cons.1 h
    unfold insertBreakpoint
    split
    · rename_i hb
      exact List.pairwise_cons.2 ⟨fun c hc => by
        rcases List.mem_cons.1 hc with h1 | h1
        · omega
        · have := hy c h1; omega, h⟩
    · split
      · exact h
      · rename_i h1 h2
        exact List.pairwise_cons.2 ⟨fun c hc => by
          rcases (mem_insertBreakpoint b c ys).1 hc with h3 | h3
          · omega
          · exact hy c h3, ih hys⟩

/-! ## The data image (20_memory.md R61) -/

/-- An image keeps the canonical form. -/
theorem Memory.wf_writeImage (m : Memory) (base : Nat) (bs : List Byte) (h : Memory.wf m = true) :
    Memory.wf (Memory.writeImage m base bs) = true := by
  induction bs generalizing m base with
  | nil => exact h
  | cons b bs ih => exact ih _ _ (Memory.wf_write _ _ _ h)

/-- An image that fits keeps every listed address below the bound. -/
theorem Memory.within_writeImage (m : Memory) (base bound : Nat) (bs : List Byte) (h : Memory.within m bound = true)
    (hb : base + bs.length ≤ bound) : Memory.within (Memory.writeImage m base bs) bound = true := by
  induction bs generalizing m base with
  | nil => exact h
  | cons b bs ih =>
    simp only [List.length_cons] at hb
    exact ih _ _ (Memory.within_write _ _ _ _ h (by omega)) (by omega)

/-- After an image is written, its bytes stand at their addresses and every other byte reads as before. -/
theorem Memory.read_writeImage (m : Memory) (base x : Nat) (bs : List Byte) (h : Memory.wf m = true) :
    Memory.read (Memory.writeImage m base bs) x =
      if base ≤ x ∧ x < base + bs.length then bs.getD (x - base) 0 else Memory.read m x := by
  induction bs generalizing m base with
  | nil => rw [if_neg (by simp)]; rfl
  | cons b bs ih =>
    unfold Memory.writeImage
    rw [ih _ _ (Memory.wf_write _ _ _ h), Memory.read_write _ _ _ _ h]
    simp only [List.length_cons]
    by_cases hx : x = base
    · subst hx; rw [if_neg (by omega), if_pos rfl, if_pos (by omega)]; simp
    · rw [if_neg hx]
      by_cases hr : base + 1 ≤ x ∧ x < base + 1 + bs.length
      · rw [if_pos hr, if_pos (by omega), show x - base = (x - (base + 1)) + 1 by omega]; simp
      · rw [if_neg hr, if_neg (by omega)]

/-! ## The loop of `run` (R237) -/

/-- `run` where the loop stops. -/
theorem runCommand_stop (n : Nat) (s : State) (reply : Reply) (h : s.runCheck = .inl reply) :
    runCommand n s = .replied reply := by
  unfold runCommand; rw [h]

/-- `run` where an element is to be executed and no fuel is left. -/
theorem runCommand_zero (s : State) (src : Source) (h : s.runCheck = .inr src) : runCommand 0 s = .outOfFuel s [] := by
  unfold runCommand; rw [h]

/-- `run` where an element is executed. -/
theorem runCommand_succ (n : Nat) (s : State) (src : Source) (h : s.runCheck = .inr src) :
    runCommand (n + 1) s =
      match execSource src s with
      | .next t => (runCommand n t).after [⟨s.pc, src⟩]
      | .fault f => .replied (s.faultReply f [⟨s.pc, src⟩])
      | .refused r => .replied ⟨s, .engineRefused r, [⟨s.pc, src⟩]⟩ := by
  rw [runCommand, h] <;> rfl

/-- The loop executes an element exactly at a pc that is no breakpoint and where an element is fetched. -/
theorem State.runCheck_inr_iff (s : State) (src : Source) :
    s.runCheck = .inr src ↔ s.pc.toNat ∉ s.breakpoints ∧ s.fetch = .element src := by
  unfold State.runCheck State.atBreakpoint
  by_cases hb : s.pc.toNat ∈ s.breakpoints
  · simp [hb]
  · simp only [hb, decide_false, Bool.false_eq_true, if_false, not_false_eq_true, true_and]
    cases s.fetch <;> simp

/-! ## Duplicate labels (48_debug_controller.md R234) -/

/-- A load finds no duplicate exactly if no name repeats (10_state.md R31). -/
theorem firstDuplicate_eq_none_iff (ns : List Text) : ∀ seen : List Text,
    firstDuplicate seen ns = none ↔ ns.Nodup ∧ ∀ n ∈ ns, n ∉ seen := by
  induction ns with
  | nil => simp [firstDuplicate]
  | cons n ns ih =>
    intro seen
    by_cases h : n ∈ seen
    · simp [firstDuplicate, h]
    · simp only [firstDuplicate, h, if_false, ih, List.nodup_cons, List.mem_cons]
      constructor
      · rintro ⟨h1, h2⟩
        refine ⟨⟨fun hn => (h2 n hn) (.inl rfl), h1⟩, ?_⟩
        rintro m (rfl | hm)
        · exact h
        · exact fun hs => h2 m hm (.inr hs)
      · rintro ⟨⟨h1, h2⟩, h3⟩
        refine ⟨h2, fun m hm => ?_⟩
        rintro (rfl | hs)
        · exact h1 hm
        · exact h3 m (.inr hm) hs

/-- The duplicate found is the first name that repeats an earlier one (log entry 11). -/
theorem firstDuplicate_some (ns : List Text) (name : Text) : ∀ seen : List Text,
    firstDuplicate seen ns = some name → ∃ k : Nat, ns[k]? = some name ∧ (ns.take k).Nodup ∧
      (∀ n ∈ ns.take k, n ∉ seen) ∧ (name ∈ seen ∨ name ∈ ns.take k) := by
  induction ns with
  | nil => simp [firstDuplicate]
  | cons n ns ih =>
    intro seen h
    by_cases hs : n ∈ seen
    · simp only [firstDuplicate, hs, if_true, Option.some.injEq] at h; subst h
      exact ⟨0, by simp [hs]⟩
    · simp only [firstDuplicate, hs, if_false] at h
      obtain ⟨k, h1, h2, h3, h4⟩ := ih _ h
      refine ⟨k + 1, by simpa using h1, ?_, ?_, ?_⟩
      · rw [List.take_succ_cons, List.nodup_cons]; exact ⟨fun hn => h3 n hn (by simp), h2⟩
      · rw [List.take_succ_cons]; intro m hm
        rcases List.mem_cons.1 hm with rfl | hm
        · exact hs
        · exact fun hm' => h3 m hm (by simp [hm'])
      · rw [List.take_succ_cons]
        rcases h4 with h4 | h4
        · rcases List.mem_cons.1 h4 with rfl | h4
          · exact .inr (by simp)
          · exact .inl h4
        · exact .inr (by simp [h4])

end Sys2Proof.Machine
end

