-- ==== Sys2Proof/Laws/PerInstr.lean ====
section
/-! SUPPORT. The family EncodesItsRow: every instruction's encoded word belongs to the row of the opcode table that has its mnemonic (30_encoding.md R91 to R96). -/

namespace Sys2Proof

/-- The word of the instruction belongs to a row of the opcode table with the instruction's mnemonic. -/
def Laws.EncodesItsRow.Statement (i : Instr) : Prop :=
  ∃ r ∈ opcodeTable, r.mnemonic = i.mnemonic ∧ r.covers (encode i) = true

/-- Membership of a row in the table, and the mask test, give the statement. -/
theorem Laws.EncodesItsRow.of_row (i : Instr) (r : OpcodeRow) (hr : r ∈ opcodeTable) (hm : r.mnemonic = i.mnemonic)
    (hc : encode i &&& r.mask = r.pattern) : Laws.EncodesItsRow.Statement i :=
  ⟨r, hr, hm, by simp [OpcodeRow.covers, hc]⟩

theorem Laws.EncodesItsRow.add (rd rs1 rs2 : Reg) : Laws.EncodesItsRow.Statement (.add rd rs1 rs2) :=
  of_row _ ⟨"add", 0xFE00707F, 0x00000033⟩ (by decide) rfl
    ((mask_FE00707F_iff _ _ (by decide)).2 (by simp [encode]; decide))

theorem Laws.EncodesItsRow.sub (rd rs1 rs2 : Reg) : Laws.EncodesItsRow.Statement (.sub rd rs1 rs2) :=
  of_row _ ⟨"sub", 0xFE00707F, 0x40000033⟩ (by decide) rfl
    ((mask_FE00707F_iff _ _ (by decide)).2 (by simp [encode]; decide))

theorem Laws.EncodesItsRow.and (rd rs1 rs2 : Reg) : Laws.EncodesItsRow.Statement (.and rd rs1 rs2) :=
  of_row _ ⟨"and", 0xFE00707F, 0x00007033⟩ (by decide) rfl
    ((mask_FE00707F_iff _ _ (by decide)).2 (by simp [encode]; decide))

theorem Laws.EncodesItsRow.or (rd rs1 rs2 : Reg) : Laws.EncodesItsRow.Statement (.or rd rs1 rs2) :=
  of_row _ ⟨"or", 0xFE00707F, 0x00006033⟩ (by decide) rfl
    ((mask_FE00707F_iff _ _ (by decide)).2 (by simp [encode]; decide))

theorem Laws.EncodesItsRow.xor (rd rs1 rs2 : Reg) : Laws.EncodesItsRow.Statement (.xor rd rs1 rs2) :=
  of_row _ ⟨"xor", 0xFE00707F, 0x00004033⟩ (by decide) rfl
    ((mask_FE00707F_iff _ _ (by decide)).2 (by simp [encode]; decide))

theorem Laws.EncodesItsRow.sll (rd rs1 rs2 : Reg) : Laws.EncodesItsRow.Statement (.sll rd rs1 rs2) :=
  of_row _ ⟨"sll", 0xFE00707F, 0x00001033⟩ (by decide) rfl
    ((mask_FE00707F_iff _ _ (by decide)).2 (by simp [encode]; decide))

theorem Laws.EncodesItsRow.srl (rd rs1 rs2 : Reg) : Laws.EncodesItsRow.Statement (.srl rd rs1 rs2) :=
  of_row _ ⟨"srl", 0xFE00707F, 0x00005033⟩ (by decide) rfl
    ((mask_FE00707F_iff _ _ (by decide)).2 (by simp [encode]; decide))

theorem Laws.EncodesItsRow.sra (rd rs1 rs2 : Reg) : Laws.EncodesItsRow.Statement (.sra rd rs1 rs2) :=
  of_row _ ⟨"sra", 0xFE00707F, 0x40005033⟩ (by decide) rfl
    ((mask_FE00707F_iff _ _ (by decide)).2 (by simp [encode]; decide))

theorem Laws.EncodesItsRow.slt (rd rs1 rs2 : Reg) : Laws.EncodesItsRow.Statement (.slt rd rs1 rs2) :=
  of_row _ ⟨"slt", 0xFE00707F, 0x00002033⟩ (by decide) rfl
    ((mask_FE00707F_iff _ _ (by decide)).2 (by simp [encode]; decide))

theorem Laws.EncodesItsRow.sltu (rd rs1 rs2 : Reg) : Laws.EncodesItsRow.Statement (.sltu rd rs1 rs2) :=
  of_row _ ⟨"sltu", 0xFE00707F, 0x00003033⟩ (by decide) rfl
    ((mask_FE00707F_iff _ _ (by decide)).2 (by simp [encode]; decide))

theorem Laws.EncodesItsRow.addi (rd rs1 : Reg) (imm : Word) : Laws.EncodesItsRow.Statement (.addi rd rs1 imm) :=
  of_row _ ⟨"addi", 0x0000707F, 0x00000013⟩ (by decide) rfl
    ((mask_0000707F_iff _ _ (by decide)).2 (by simp [encode]; decide))

theorem Laws.EncodesItsRow.andi (rd rs1 : Reg) (imm : Word) : Laws.EncodesItsRow.Statement (.andi rd rs1 imm) :=
  of_row _ ⟨"andi", 0x0000707F, 0x00007013⟩ (by decide) rfl
    ((mask_0000707F_iff _ _ (by decide)).2 (by simp [encode]; decide))

theorem Laws.EncodesItsRow.ori (rd rs1 : Reg) (imm : Word) : Laws.EncodesItsRow.Statement (.ori rd rs1 imm) :=
  of_row _ ⟨"ori", 0x0000707F, 0x00006013⟩ (by decide) rfl
    ((mask_0000707F_iff _ _ (by decide)).2 (by simp [encode]; decide))

theorem Laws.EncodesItsRow.xori (rd rs1 : Reg) (imm : Word) : Laws.EncodesItsRow.Statement (.xori rd rs1 imm) :=
  of_row _ ⟨"xori", 0x0000707F, 0x00004013⟩ (by decide) rfl
    ((mask_0000707F_iff _ _ (by decide)).2 (by simp [encode]; decide))

theorem Laws.EncodesItsRow.slli (rd rs1 : Reg) (imm : Word) : Laws.EncodesItsRow.Statement (.slli rd rs1 imm) :=
  of_row _ ⟨"slli", 0xFC00707F, 0x00001013⟩ (by decide) rfl
    ((mask_FC00707F_iff _ _ (by decide)).2 (by simp [encode]; decide))

theorem Laws.EncodesItsRow.srli (rd rs1 : Reg) (imm : Word) : Laws.EncodesItsRow.Statement (.srli rd rs1 imm) :=
  of_row _ ⟨"srli", 0xFC00707F, 0x00005013⟩ (by decide) rfl
    ((mask_FC00707F_iff _ _ (by decide)).2 (by simp [encode]; decide))

theorem Laws.EncodesItsRow.srai (rd rs1 : Reg) (imm : Word) : Laws.EncodesItsRow.Statement (.srai rd rs1 imm) :=
  of_row _ ⟨"srai", 0xFC00707F, 0x40005013⟩ (by decide) rfl
    ((mask_FC00707F_iff _ _ (by decide)).2 (by simp [encode]; decide))

theorem Laws.EncodesItsRow.ld (rd rs1 : Reg) (off : Word) : Laws.EncodesItsRow.Statement (.ld rd rs1 off) :=
  of_row _ ⟨"ld", 0x0000707F, 0x00003003⟩ (by decide) rfl
    ((mask_0000707F_iff _ _ (by decide)).2 (by simp [encode]; decide))

theorem Laws.EncodesItsRow.lw (rd rs1 : Reg) (off : Word) : Laws.EncodesItsRow.Statement (.lw rd rs1 off) :=
  of_row _ ⟨"lw", 0x0000707F, 0x00002003⟩ (by decide) rfl
    ((mask_0000707F_iff _ _ (by decide)).2 (by simp [encode]; decide))

theorem Laws.EncodesItsRow.lh (rd rs1 : Reg) (off : Word) : Laws.EncodesItsRow.Statement (.lh rd rs1 off) :=
  of_row _ ⟨"lh", 0x0000707F, 0x00001003⟩ (by decide) rfl
    ((mask_0000707F_iff _ _ (by decide)).2 (by simp [encode]; decide))

theorem Laws.EncodesItsRow.lb (rd rs1 : Reg) (off : Word) : Laws.EncodesItsRow.Statement (.lb rd rs1 off) :=
  of_row _ ⟨"lb", 0x0000707F, 0x00000003⟩ (by decide) rfl
    ((mask_0000707F_iff _ _ (by decide)).2 (by simp [encode]; decide))

theorem Laws.EncodesItsRow.lwu (rd rs1 : Reg) (off : Word) : Laws.EncodesItsRow.Statement (.lwu rd rs1 off) :=
  of_row _ ⟨"lwu", 0x0000707F, 0x00006003⟩ (by decide) rfl
    ((mask_0000707F_iff _ _ (by decide)).2 (by simp [encode]; decide))

theorem Laws.EncodesItsRow.lhu (rd rs1 : Reg) (off : Word) : Laws.EncodesItsRow.Statement (.lhu rd rs1 off) :=
  of_row _ ⟨"lhu", 0x0000707F, 0x00005003⟩ (by decide) rfl
    ((mask_0000707F_iff _ _ (by decide)).2 (by simp [encode]; decide))

theorem Laws.EncodesItsRow.lbu (rd rs1 : Reg) (off : Word) : Laws.EncodesItsRow.Statement (.lbu rd rs1 off) :=
  of_row _ ⟨"lbu", 0x0000707F, 0x00004003⟩ (by decide) rfl
    ((mask_0000707F_iff _ _ (by decide)).2 (by simp [encode]; decide))

theorem Laws.EncodesItsRow.sd (rs2 rs1 : Reg) (off : Word) : Laws.EncodesItsRow.Statement (.sd rs2 rs1 off) :=
  of_row _ ⟨"sd", 0x0000707F, 0x00003023⟩ (by decide) rfl
    ((mask_0000707F_iff _ _ (by decide)).2 (by simp [encode]; decide))

theorem Laws.EncodesItsRow.sw (rs2 rs1 : Reg) (off : Word) : Laws.EncodesItsRow.Statement (.sw rs2 rs1 off) :=
  of_row _ ⟨"sw", 0x0000707F, 0x00002023⟩ (by decide) rfl
    ((mask_0000707F_iff _ _ (by decide)).2 (by simp [encode]; decide))

theorem Laws.EncodesItsRow.sh (rs2 rs1 : Reg) (off : Word) : Laws.EncodesItsRow.Statement (.sh rs2 rs1 off) :=
  of_row _ ⟨"sh", 0x0000707F, 0x00001023⟩ (by decide) rfl
    ((mask_0000707F_iff _ _ (by decide)).2 (by simp [encode]; decide))

theorem Laws.EncodesItsRow.sb (rs2 rs1 : Reg) (off : Word) : Laws.EncodesItsRow.Statement (.sb rs2 rs1 off) :=
  of_row _ ⟨"sb", 0x0000707F, 0x00000023⟩ (by decide) rfl
    ((mask_0000707F_iff _ _ (by decide)).2 (by simp [encode]; decide))

theorem Laws.EncodesItsRow.beq (rs1 rs2 : Reg) (off : Word) : Laws.EncodesItsRow.Statement (.beq rs1 rs2 off) :=
  of_row _ ⟨"beq", 0x0000707F, 0x00000063⟩ (by decide) rfl
    ((mask_0000707F_iff _ _ (by decide)).2 (by simp [encode]; decide))

theorem Laws.EncodesItsRow.bne (rs1 rs2 : Reg) (off : Word) : Laws.EncodesItsRow.Statement (.bne rs1 rs2 off) :=
  of_row _ ⟨"bne", 0x0000707F, 0x00001063⟩ (by decide) rfl
    ((mask_0000707F_iff _ _ (by decide)).2 (by simp [encode]; decide))

theorem Laws.EncodesItsRow.blt (rs1 rs2 : Reg) (off : Word) : Laws.EncodesItsRow.Statement (.blt rs1 rs2 off) :=
  of_row _ ⟨"blt", 0x0000707F, 0x00004063⟩ (by decide) rfl
    ((mask_0000707F_iff _ _ (by decide)).2 (by simp [encode]; decide))

theorem Laws.EncodesItsRow.bge (rs1 rs2 : Reg) (off : Word) : Laws.EncodesItsRow.Statement (.bge rs1 rs2 off) :=
  of_row _ ⟨"bge", 0x0000707F, 0x00005063⟩ (by decide) rfl
    ((mask_0000707F_iff _ _ (by decide)).2 (by simp [encode]; decide))

theorem Laws.EncodesItsRow.bgeu (rs1 rs2 : Reg) (off : Word) : Laws.EncodesItsRow.Statement (.bgeu rs1 rs2 off) :=
  of_row _ ⟨"bgeu", 0x0000707F, 0x00007063⟩ (by decide) rfl
    ((mask_0000707F_iff _ _ (by decide)).2 (by simp [encode]; decide))

theorem Laws.EncodesItsRow.bltu (rs1 rs2 : Reg) (off : Word) : Laws.EncodesItsRow.Statement (.bltu rs1 rs2 off) :=
  of_row _ ⟨"bltu", 0x0000707F, 0x00006063⟩ (by decide) rfl
    ((mask_0000707F_iff _ _ (by decide)).2 (by simp [encode]; decide))

theorem Laws.EncodesItsRow.jal (rd : Reg) (off : Word) : Laws.EncodesItsRow.Statement (.jal rd off) :=
  of_row _ ⟨"jal", 0x0000007F, 0x0000006F⟩ (by decide) rfl
    ((mask_0000007F_iff _ _ (by decide)).2 (by simp [encode]; decide))

theorem Laws.EncodesItsRow.jalr (rd rs1 : Reg) (off : Word) : Laws.EncodesItsRow.Statement (.jalr rd rs1 off) :=
  of_row _ ⟨"jalr", 0x0000707F, 0x00000067⟩ (by decide) rfl
    ((mask_0000707F_iff _ _ (by decide)).2 (by simp [encode]; decide))

theorem Laws.EncodesItsRow.lui (rd : Reg) (imm : Word) : Laws.EncodesItsRow.Statement (.lui rd imm) :=
  of_row _ ⟨"lui", 0x0000007F, 0x00000037⟩ (by decide) rfl
    ((mask_0000007F_iff _ _ (by decide)).2 (by simp [encode]; decide))

end Sys2Proof
end

