-- ==== Sys2Proof/Laws/Step.lean ====
section
/-! SUPPORT. What an instruction, a step and the `step` command can do, said once: the lemmas the whole-machine statements rest on. -/

namespace Sys2Proof.Machine

/-- What a branch answers. -/
theorem branchOp_next_inv {cond : Word → Word → Bool} {rs1 rs2 : Reg} {off : Word} {s t : State}
    (h : branchOp cond rs1 rs2 off s = .next t) :
    (cond (s.readReg rs1) (s.readReg rs2) = true ∧ t = s.setPc (s.pc + off)) ∨
      (cond (s.readReg rs1) (s.readReg rs2) = false ∧ t = s.advance) := by
  have h := (Host.Outcome.next.inj h).symm
  cases hc : cond (s.readReg rs1) (s.readReg rs2) <;> simp only [hc] at h
  · exact .inr ⟨rfl, h⟩
  · exact .inl ⟨rfl, h⟩

/-- What an instruction that completes leaves: a register write and `pc + 4`, a store and `pc + 4`, or a new pc, with the
link write of a jump before it. -/
theorem exec_next_cases {i : Instr} {s t : State} (h : exec i s = .next t) :
    (∃ rd v, destination i = some rd ∧ familyOf i ≠ .store ∧ familyOf i ≠ .branch ∧ familyOf i ≠ .jump ∧
      t = (s.writeReg rd v).advance) ∨
    (∃ a n v, familyOf i = .store ∧ s.inBounds a n = true ∧
      t = ({ s with mem := Memory.writeLE s.mem a.toNat v n } : State).advance) ∨
    (familyOf i = .branch ∧ ((BranchTaken s i ∧ ∃ p, t = s.setPc p) ∨ (¬BranchTaken s i ∧ t = s.advance))) ∨
    (familyOf i = .jump ∧ ((∃ rd v p, destination i = some rd ∧ t = (s.writeReg rd v).setPc p) ∨
      ∃ p, destination i = none ∧ t = s.setPc p)) := by
  cases i
  case ld | lw | lh | lb | lwu | lhu | lbu =>
    obtain ⟨-, v, rfl⟩ := loadOp_next_inv h
    exact .inl ⟨_, v, rfl, nofun, nofun, nofun, rfl⟩
  case sd | sw | sh | sb =>
    obtain ⟨hb, rfl⟩ := storeOp_next_inv h
    exact .inr (.inl ⟨_, _, _, rfl, hb, rfl⟩)
  case beq | bne | blt | bge | bgeu | bltu =>
    simp only [exec, execBeq, execBne, execBlt, execBge, execBgeu, execBltu] at h
    rcases branchOp_next_inv h with ⟨hc, rfl⟩ | ⟨hc, rfl⟩
    · exact .inr (.inr (.inl ⟨rfl, .inl ⟨by simpa [BranchTaken, lessSigned, lessUnsigned] using hc, _, rfl⟩⟩))
    · exact .inr (.inr (.inl ⟨rfl, .inr ⟨by simpa [BranchTaken, lessSigned, lessUnsigned] using hc, rfl⟩⟩))
  case jal rd off => cases h; exact .inr (.inr (.inr ⟨rfl, .inl ⟨_, _, _, rfl, rfl⟩⟩))
  case jalr rd rs1 off =>
    cases h
    refine .inr (.inr (.inr ⟨rfl, ?_⟩))
    by_cases hr : rd = 0
    · exact .inr ⟨_, by simp [destination, hr], by rw [if_pos hr]⟩
    · exact .inl ⟨rd, s.nextPc, _, by simp [destination, hr], by rw [if_neg hr]⟩
  all_goals cases h; exact .inl ⟨_, _, rfl, nofun, nofun, nofun, rfl⟩

/-- A load that faults is out of bounds. -/
theorem loadOp_fault_inv {n : Nat} {extend : BitVec (8 * n) → Word} {rd rs1 : Reg} {off : Word} {s : State} {f : Fault}
    (h : loadOp n extend rd rs1 off s = .fault f) :
    ∃ a k, f = .memoryBounds a k ∧ s.inBounds a k = false := by
  by_cases hb : s.inBounds (s.readReg rs1 + off) n = true
  · obtain ⟨t, ht, -⟩ := loadOp_spec n extend rd rs1 off s hb
    rw [ht] at h; cases h
  · rw [loadOp_fault _ _ _ _ _ _ hb] at h; cases h; exact ⟨_, _, rfl, by simpa using hb⟩

/-- A store that faults is out of bounds. -/
theorem storeOp_fault_inv {n : Nat} {rs2 rs1 : Reg} {off : Word} {s : State} {f : Fault}
    (h : storeOp n rs2 rs1 off s = .fault f) : ∃ a k, f = .memoryBounds a k ∧ s.inBounds a k = false := by
  by_cases hb : s.inBounds (s.readReg rs1 + off) n = true
  · rw [storeOp_next _ _ _ _ _ hb] at h; cases h
  · rw [storeOp_fault _ _ _ _ _ hb] at h; cases h; exact ⟨_, _, rfl, by simpa using hb⟩

/-- An instruction never faults but for a load or store out of bounds. -/
theorem exec_fault_cases {i : Instr} {s : State} {f : Fault} (h : exec i s = .fault f) :
    (familyOf i = .load ∨ familyOf i = .store) ∧ ∃ a n, f = .memoryBounds a n ∧ s.inBounds a n = false := by
  cases i
  case ld | lw | lh | lb | lwu | lhu | lbu => exact ⟨.inl rfl, loadOp_fault_inv h⟩
  case sd | sw | sh | sb => exact ⟨.inr rfl, storeOp_fault_inv h⟩
  all_goals cases h

/-- No instruction is refused. -/
theorem exec_not_refused (i : Instr) (s : State) (r : Refusal) : exec i s ≠ .refused r := by
  intro h
  cases i
  case ld rd rs1 off | lw rd rs1 off | lh rd rs1 off | lb rd rs1 off | lwu rd rs1 off | lhu rd rs1 off | lbu rd rs1 off =>
    simp only [exec, execLd, execLw, execLh, execLb, execLwu, execLhu, execLbu, loadOp] at h
    split at h <;> cases h
  case sd rs2 rs1 off | sw rs2 rs1 off | sh rs2 rs1 off | sb rs2 rs1 off =>
    simp only [exec, execSd, execSw, execSh, execSb, storeOp] at h
    split at h <;> cases h
  all_goals cases h

/-! ## One step -/

/-- What a step that completes did: nothing at the end of the program, an instruction, or an unknown word or line under the permissive policy. -/
theorem step_next_cases {s t : State} (h : step s = .next t) :
    (s.fetch = .endOfProgram ∧ t = s) ∨
    (∃ src i, s.fetch = .element src ∧ decodeSource s.labels s.pc src = .instr i ∧ exec i s = .next t) ∨
    (∃ src raw, s.fetch = .element src ∧ decodeSource s.labels s.pc src = .unknown raw ∧
      s.cfg.unknownPolicy = .permissive ∧ t = s.advance) := by
  unfold step executionCycle at h
  cases hf : s.fetch with
  | outOfRange => rw [hf] at h; cases h
  | misaligned => rw [hf] at h; cases h
  | endOfProgram => rw [hf] at h; exact .inl ⟨rfl, (Host.Outcome.next.inj h).symm⟩
  | element src =>
    simp only [hf, execSource] at h
    cases hd : decodeSource s.labels s.pc src with
    | instr i => rw [hd] at h; exact .inr (.inl ⟨src, i, rfl, hd, h⟩)
    | unknown raw =>
      simp only [hd, execDecoded, execUnknown] at h
      cases hp : s.cfg.unknownPolicy <;> rw [hp] at h <;> cases h
      exact .inr (.inr ⟨src, raw, rfl, hd, rfl, rfl⟩)
    | malformed c raw => rw [hd] at h; cases h

/-- What a step that faults met. -/
theorem step_fault_cases {s : State} {f : Fault} (h : step s = .fault f) :
    (s.fetch = .outOfRange ∧ f = .pcOutOfRange s.pc) ∨ (s.fetch = .misaligned ∧ f = .pcMisaligned s.pc) ∨
    ∃ src, s.fetch = .element src ∧
      ((∃ i, decodeSource s.labels s.pc src = .instr i ∧ exec i s = .fault f) ∨
       (∃ raw, decodeSource s.labels s.pc src = .unknown raw ∧ s.cfg.unknownPolicy = .strict ∧ f = .unknownOpcode raw) ∨
       (∃ cause raw, decodeSource s.labels s.pc src = .malformed cause raw ∧ f = malformedFault cause raw)) := by
  unfold step executionCycle at h
  cases hf : s.fetch with
  | outOfRange => rw [hf] at h; cases h; exact .inl ⟨rfl, rfl⟩
  | misaligned => rw [hf] at h; cases h; exact .inr (.inl ⟨rfl, rfl⟩)
  | endOfProgram => rw [hf] at h; cases h
  | element src =>
    refine .inr (.inr ⟨src, rfl, ?_⟩)
    simp only [hf, execSource] at h
    cases hd : decodeSource s.labels s.pc src with
    | instr i => rw [hd] at h; exact .inl ⟨i, rfl, h⟩
    | unknown raw =>
      simp only [hd, execDecoded, execUnknown] at h
      cases hp : s.cfg.unknownPolicy <;> rw [hp] at h <;> cases h
      exact .inr (.inl ⟨raw, rfl, rfl, rfl⟩)
    | malformed c raw => rw [hd] at h; cases h; exact .inr (.inr ⟨c, raw, rfl, rfl⟩)

/-- No step is refused. -/
theorem step_not_refused (s : State) (r : Refusal) : step s ≠ .refused r := by
  intro h
  unfold step executionCycle at h
  cases hf : s.fetch with
  | element src =>
    simp only [hf, execSource] at h
    cases hd : decodeSource s.labels s.pc src with
    | instr i => rw [hd] at h; exact exec_not_refused i s r h
    | unknown raw => simp only [hd, execDecoded, execUnknown] at h; cases hp : s.cfg.unknownPolicy <;> rw [hp] at h <;> cases h
    | malformed c raw => rw [hd] at h; cases h
  | _ => rw [hf] at h; cases h

/-- A text line's `Unknown` or `Malformed` holds the whole line, a word's `Unknown` the word. -/
theorem decodeSource_raw (labels : LabelTable) (p : Word) (src : Source) :
    (∀ raw, decodeSource labels p src = .unknown raw → raw = src) ∧
    (∀ cause raw, decodeSource labels p src = .malformed cause raw → src = .text raw) := by
  cases src with
  | word w =>
    simp only [decodeSource, decodeWord]
    constructor
    · intro raw h; split at h <;> cases h; rfl
    · intro c raw h; split at h <;> cases h
  | text line =>
    simp only [decodeSource, decodeText]
    constructor
    · intro raw h
      split at h
      · cases h; rfl
      · split at h
        · cases h; rfl
        · split at h <;> cases h
    · intro c raw h
      split at h
      · cases h
      · split at h
        · cases h
        · split at h <;> cases h
          rfl

/-- The `step` command is the step, with its response and its event. -/
theorem stepCommand_of_step_fault {s : State} {f : Fault} (h : step s = .fault f) :
    (stepCommand s).state = s.takeFault f ∧ (stepCommand s).response = .faulted (s.faultReport f) := by
  unfold step executionCycle at h
  unfold stepCommand
  cases hf : s.fetch <;> rw [hf] at h <;> first | (cases h; done) | (cases h; exact ⟨rfl, rfl⟩) | (simp only at h ⊢; rw [h]; exact ⟨rfl, rfl⟩)

/-- The events of a `step` command: that of the element fetched, if one was (48_debug_controller.md R241). -/
theorem stepCommand_trace (s : State) : (∀ src, s.fetch = .element src → (stepCommand s).trace = [⟨s.pc, src⟩]) ∧
    ((∀ src, s.fetch ≠ .element src) → (stepCommand s).trace = []) := by
  unfold stepCommand
  cases hf : s.fetch with
  | element src =>
    refine ⟨fun q h => ?_, fun h => absurd rfl (h src)⟩
    cases h
    show (s.cycleReply _ (execSource src s)).trace = _
    cases execSource src s <;> rfl
  | _ => exact ⟨fun q h => (by cases h), fun _ => rfl⟩

/-- A step with an element fetched executes it. -/
theorem step_of_element {s : State} {src : Source} (h : s.fetch = .element src) : step s = execSource src s := by
  unfold step executionCycle; rw [h]

/-- A run of k + 1 steps whose first step completes is a run of k steps from there. -/
theorem run_of_step_next (M : Host.Core) (k : Nat) (s t : M.State) (h : M.step s = .next t) : M.run (k + 1) s = M.run k t := by
  rw [Host.Core.run, h]

/-- The same of this machine. -/
theorem core_run_succ (k : Nat) {s t : State} (h : step s = .next t) :
    Sys2Proof.core.run (k + 1) s = Sys2Proof.core.run k t :=
  run_of_step_next Sys2Proof.core k s t h

/-! ## Frames -/

/-- Taking a fault, as one update. -/
theorem State.takeFault_eq (s : State) (f : Fault) :
    s.takeFault f = { s with flt := some (s.flt.getD (s.faultReport f)) } := by
  unfold State.takeFault; cases s with | mk cfg regs pc prog labels mem bp flt => cases flt <;> rfl

/-- An instruction leaves parameters, program, labels, breakpoints and latch as they are. -/
theorem exec_sameControl {i : Instr} {s t : State} (h : exec i s = .next t) : SameControl s t := by
  rcases exec_next_cases h with ⟨rd, v, -, -, -, -, rfl⟩ | ⟨a, n, v, -, -, rfl⟩ | ⟨-, ⟨-, p, rfl⟩ | ⟨-, rfl⟩⟩ |
    ⟨-, ⟨rd, v, p, -, rfl⟩ | ⟨p, -, rfl⟩⟩ <;> simp [SameControl]

/-- So does a step. -/
theorem step_sameControl {s t : State} (h : step s = .next t) : SameControl s t := by
  rcases step_next_cases h with ⟨-, rfl⟩ | ⟨src, i, -, -, h⟩ | ⟨src, raw, -, -, -, rfl⟩
  · simp [SameControl]
  · exact exec_sameControl h
  · simp [SameControl]

/-- An instruction keeps memory canonical and within its bound. -/
theorem exec_memory {i : Instr} {s t : State} (h : exec i s = .next t) (hc : Memory.wf s.mem = true)
    (hb : Memory.within s.mem s.cfg.memSize = true) :
    Memory.wf t.mem = true ∧ Memory.within t.mem s.cfg.memSize = true := by
  rcases exec_next_cases h with ⟨rd, v, -, -, -, -, rfl⟩ | ⟨a, n, v, -, hi, rfl⟩ | ⟨-, ⟨-, p, rfl⟩ | ⟨-, rfl⟩⟩ |
    ⟨-, ⟨rd, v, p, -, rfl⟩ | ⟨p, -, rfl⟩⟩
  · simp [hc, hb]
  · rw [State.inBounds_iff] at hi
    exact ⟨Memory.wf_writeLE _ _ _ _ hc, Memory.within_writeLE _ _ _ _ _ hb hi.2⟩
  all_goals simp [hc, hb]

/-! ## The breakpoint set and the latch are out of the engine's sight -/

/-- The state with another breakpoint set and another latch. -/
def withControl (bs : List Nat) (fl : Option FaultReport) (s : State) : State := { s with breakpoints := bs, flt := fl }

/-- An outcome with its next state changed. -/
def mapNext (f : State → State) : Host.Outcome State Fault Refusal → Host.Outcome State Fault Refusal
  | .next t => .next (f t)
  | .fault e => .fault e
  | .refused r => .refused r

/-- Such a change commutes with a register write. -/
theorem withControl_writeReg (bs : List Nat) (fl : Option FaultReport) (s : State) (r : Reg) (v : Word) : (withControl bs fl s).writeReg r v = withControl bs fl (s.writeReg r v) := by
  have h : (withControl bs fl s).hardwired r = s.hardwired r := rfl
  unfold State.writeReg
  rw [h]; split <;> rfl

/-- No instruction reads or writes the breakpoint set or the latch. -/
theorem exec_withControl (bs : List Nat) (fl : Option FaultReport) (i : Instr) (s : State) : exec i (withControl bs fl s) = mapNext (withControl bs fl) (exec i s) := by
  have hreg : ∀ f rd rs1 rs2, registerOp f rd rs1 rs2 (withControl bs fl s) = mapNext (withControl bs fl) (registerOp f rd rs1 rs2 s) := by
    intro f rd rs1 rs2; simp only [registerOp, withControl_writeReg]; rfl
  have himm : ∀ f rd rs1 rs2, immediateOp f rd rs1 rs2 (withControl bs fl s) = mapNext (withControl bs fl) (immediateOp f rd rs1 rs2 s) := by
    intro f rd rs1 rs2; simp only [immediateOp, withControl_writeReg]; rfl
  have hld : ∀ n e rd rs1 off, loadOp n e rd rs1 off (withControl bs fl s) = mapNext (withControl bs fl) (loadOp n e rd rs1 off s) := by
    intro n e rd rs1 off
    simp only [loadOp, withControl_writeReg]
    change (match s.memRead (s.effectiveAddress rs1 off) n with | .error f => _ | .ok v => _) = _
    cases s.memRead (s.effectiveAddress rs1 off) n <;> rfl
  have hst : ∀ n rd rs1 off, storeOp n rd rs1 off (withControl bs fl s) = mapNext (withControl bs fl) (storeOp n rd rs1 off s) := by
    intro n rd rs1 off
    by_cases h : s.inBounds (s.readReg rs1 + off) n = true
    · rw [storeOp_next _ _ _ _ _ h, storeOp_next _ _ _ _ (withControl bs fl s) h]; rfl
    · rw [storeOp_fault _ _ _ _ _ h, storeOp_fault _ _ _ _ (withControl bs fl s) h]; rfl
  have hbr : ∀ c rd rs1 off, branchOp c rd rs1 off (withControl bs fl s) = mapNext (withControl bs fl) (branchOp c rd rs1 off s) := by
    intro n rd rs1 off
    simp only [branchOp, mapNext]
    congr 1
    change (if n (s.readReg rd) (s.readReg rs1) = true then _ else _) = _
    split <;> rfl
  cases i
  case jal rd off => simp only [exec, execJal, withControl_writeReg]; rfl
  case jalr rd rs1 off =>
    simp only [exec, execJalr, withControl_writeReg, mapNext]
    congr 1
    split <;> rfl
  case lui rd off => simp only [exec, execLui, withControl_writeReg]; rfl
  case add | sub | and | or | xor | sll | srl | sra | slt | sltu =>
    simp only [exec, execAdd, execSub, execAnd, execOr, execXor, execSll, execSrl, execSra, execSlt, execSltu, hreg]
  case addi | andi | ori | xori | slli | srli | srai =>
    simp only [exec, execAddi, execAndi, execOri, execXori, execSlli, execSrli, execSrai, himm]
  case ld | lw | lh | lb | lwu | lhu | lbu => exact hld _ _ _ _ _
  case sd | sw | sh | sb => exact hst _ _ _ _
  case beq | bne | blt | bge | bgeu | bltu => simp only [exec, execBeq, execBne, execBlt, execBge, execBgeu, execBltu, hbr]

/-- Nor does any element. -/
theorem execSource_withControl (bs : List Nat) (fl : Option FaultReport) (src : Source) (s : State) : execSource src (withControl bs fl s) = mapNext (withControl bs fl) (execSource src s) := by
  unfold execSource
  change execDecoded (decodeSource s.labels s.pc src) _ = _
  cases decodeSource s.labels s.pc src with
  | instr i => exact exec_withControl bs fl i s
  | unknown raw =>
    simp only [execDecoded, execUnknown]
    change (match s.cfg.unknownPolicy with | .strict => _ | .permissive => _) = _
    cases s.cfg.unknownPolicy <;> rfl
  | malformed c raw => rfl

/-- Nor does a step. -/
theorem step_withControl (bs : List Nat) (fl : Option FaultReport) (s : State) : step (withControl bs fl s) = mapNext (withControl bs fl) (step s) := by
  unfold step executionCycle
  rw [show (withControl bs fl s).fetch = s.fetch from rfl]
  cases s.fetch with
  | element src => exact execSource_withControl bs fl src s
  | _ => rfl

end Sys2Proof.Machine
end

