-- ==== Sys2Proof/Tests/Slice0.lean ====
section
/-! SUPPORT. The model's own tests: expected values are those of 95_test_vectors.md (cited by vector) or written out from the encodings of 30_encoding.md, and, at the end, one witness per hypothesis of the obligations. -/

namespace Sys2Proof.Tests

open Sys2Proof Sys2Proof.Machine

/-! ## Helpers -/

/-- The power-on state with some registers set. -/
def start (regs : List (Reg × Word)) : State := regs.foldl (fun s p => s.writeReg p.1 p.2) State.reset

/-- The power-on state with memory cells, then registers, set. -/
def startMem (mem : Memory) (regs : List (Reg × Word)) : State := { start regs with mem := mem }

/-- The state holds a program and a pc. -/
def withProgram (prog : List Source) (pc : Word) (s : State) : State := { s with prog := prog, pc := pc }

/-- A program of one text line. -/
def line (t : String) : State := withProgram [.text t.toList] 0 State.reset

/-- The outcome is a next state with this property. -/
def nextHas (o : Host.Outcome State Fault Refusal) (p : State → Bool) : Bool :=
  match o with
  | .next t => p t
  | .fault _ => false
  | .refused _ => false

/-- The outcome is this fault. -/
def faultIs (o : Host.Outcome State Fault Refusal) (f : Fault) : Bool :=
  match o with
  | .next _ => false
  | .fault g => decide (g = f)
  | .refused _ => false

/-- Register 7 after an instruction on x[5] and x[6], with pc at 4. -/
def result (i : Instr) (a b v : Word) : Bool :=
  nextHas (exec i (start [(5, a), (6, b)])) (fun t => t.readReg 7 == v && t.pc == 4)

/-! ## Well-formedness (30_encoding.md R101): each check refuses an ill-formed term -/

theorem test_wellFormed_immediate_refuses : (Instr.addi 7 5 2048).wellFormed = false ∧
    (Instr.andi 7 5 (-2049)).wellFormed = false ∧ (Instr.ori 7 5 2048).wellFormed = false ∧
    (Instr.xori 7 5 (-2049)).wellFormed = false := by decide

theorem test_wellFormed_shift_refuses : (Instr.slli 7 5 64).wellFormed = false ∧
    (Instr.srli 7 5 64).wellFormed = false ∧ (Instr.srai 7 5 (-1)).wellFormed = false := by decide

/-- A shift whose immediate is out of the 6 bits still has a word, that of `imm & 63`; other ranges are limits (R101). -/
theorem test_hasWord : (Instr.slli 7 5 64).hasWord = true ∧ (Instr.slli 7 5 64).reduced = .slli 7 5 0 ∧
    (Instr.srai 7 5 (-1)).hasWord = true ∧ (Instr.srai 7 5 (-1)).reduced = .srai 7 5 63 ∧
    encode (.srai 7 5 (-1)) = 0b010000_111111_00101_101_00111_0010011#32 ∧ (Instr.addi 7 5 2048).hasWord = false ∧
    (Instr.lui 7 0x100000).hasWord = false ∧ (Instr.beq 5 6 1).hasWord = false := by decide

theorem test_wellFormed_load_refuses : (Instr.ld 7 5 2048).wellFormed = false ∧
    (Instr.lw 7 5 (-2049)).wellFormed = false ∧ (Instr.lh 7 5 2048).wellFormed = false ∧
    (Instr.lb 7 5 (-2049)).wellFormed = false ∧ (Instr.lwu 7 5 2048).wellFormed = false ∧
    (Instr.lhu 7 5 (-2049)).wellFormed = false ∧ (Instr.lbu 7 5 2048).wellFormed = false := by decide

theorem test_wellFormed_store_refuses : (Instr.sd 7 5 2048).wellFormed = false ∧
    (Instr.sw 7 5 (-2049)).wellFormed = false ∧ (Instr.sh 7 5 2048).wellFormed = false ∧
    (Instr.sb 7 5 (-2049)).wellFormed = false := by decide

theorem test_wellFormed_branch_range_refuses : (Instr.beq 5 6 4096).wellFormed = false ∧
    (Instr.bne 5 6 (-4098)).wellFormed = false ∧ (Instr.blt 5 6 4096).wellFormed = false ∧
    (Instr.bge 5 6 (-4098)).wellFormed = false ∧ (Instr.bgeu 5 6 4096).wellFormed = false ∧
    (Instr.bltu 5 6 (-4098)).wellFormed = false := by decide

theorem test_wellFormed_branch_odd_refuses : (Instr.beq 5 6 3).wellFormed = false ∧
    (Instr.bne 5 6 3).wellFormed = false ∧ (Instr.blt 5 6 3).wellFormed = false ∧
    (Instr.bge 5 6 3).wellFormed = false ∧ (Instr.bgeu 5 6 3).wellFormed = false ∧
    (Instr.bltu 5 6 3).wellFormed = false := by decide

theorem test_wellFormed_jump_refuses : (Instr.jal 1 1048576).wellFormed = false ∧
    (Instr.jal 1 5).wellFormed = false ∧ (Instr.jalr 1 5 2048).wellFormed = false ∧
    (Instr.lui 5 0x100000).wellFormed = false := by decide

/-! ## Decoding and encoding, word by word -/

/-- Words written out field by field (30_encoding.md R82, R91). -/
theorem test_decode_register :
    decodeWord 0b0000000_00110_00101_000_00111_0110011#32 = .instr (.add 7 5 6) ∧
    decodeWord 0b0100000_00110_00101_000_00111_0110011#32 = .instr (.sub 7 5 6) ∧
    decodeWord 0b0000000_00110_00101_111_00111_0110011#32 = .instr (.and 7 5 6) ∧
    decodeWord 0b0000000_00110_00101_110_00111_0110011#32 = .instr (.or 7 5 6) ∧
    decodeWord 0b0000000_00110_00101_100_00111_0110011#32 = .instr (.xor 7 5 6) ∧
    decodeWord 0b0000000_00110_00101_001_00111_0110011#32 = .instr (.sll 7 5 6) ∧
    decodeWord 0b0000000_00110_00101_101_00111_0110011#32 = .instr (.srl 7 5 6) ∧
    decodeWord 0b0100000_00110_00101_101_00111_0110011#32 = .instr (.sra 7 5 6) ∧
    decodeWord 0b0000000_00110_00101_010_00111_0110011#32 = .instr (.slt 7 5 6) ∧
    decodeWord 0b0000000_00110_00101_011_00111_0110011#32 = .instr (.sltu 7 5 6) := by
  decide

/-- The encoder gives those words back. -/
theorem test_encode_register :
    encode (.add 7 5 6) = 0b0000000_00110_00101_000_00111_0110011#32 ∧
    encode (.sub 7 5 6) = 0b0100000_00110_00101_000_00111_0110011#32 ∧
    encode (.and 7 5 6) = 0b0000000_00110_00101_111_00111_0110011#32 ∧
    encode (.or 7 5 6) = 0b0000000_00110_00101_110_00111_0110011#32 ∧
    encode (.xor 7 5 6) = 0b0000000_00110_00101_100_00111_0110011#32 ∧
    encode (.sll 7 5 6) = 0b0000000_00110_00101_001_00111_0110011#32 ∧
    encode (.srl 7 5 6) = 0b0000000_00110_00101_101_00111_0110011#32 ∧
    encode (.sra 7 5 6) = 0b0100000_00110_00101_101_00111_0110011#32 ∧
    encode (.slt 7 5 6) = 0b0000000_00110_00101_010_00111_0110011#32 ∧
    encode (.sltu 7 5 6) = 0b0000000_00110_00101_011_00111_0110011#32 := by
  decide

/-- Words written out field by field (30_encoding.md R82, R92). -/
theorem test_decode_immediate :
    decodeWord 0b100000000000_00101_000_00111_0010011#32 = .instr (.addi 7 5 (-2048)) ∧
    decodeWord 0b000011111111_00101_111_00111_0010011#32 = .instr (.andi 7 5 255) ∧
    decodeWord 0b011111111111_00101_110_00111_0010011#32 = .instr (.ori 7 5 2047) ∧
    decodeWord 0b010101010101_00101_100_00111_0010011#32 = .instr (.xori 7 5 1365) ∧
    decodeWord 0b000000_101000_00101_001_00111_0010011#32 = .instr (.slli 7 5 40) ∧
    decodeWord 0b000000_100001_00101_101_00111_0010011#32 = .instr (.srli 7 5 33) ∧
    decodeWord 0b010000_111111_00101_101_00111_0010011#32 = .instr (.srai 7 5 63) := by
  decide

/-- The encoder gives those words back. -/
theorem test_encode_immediate :
    encode (.addi 7 5 (-2048)) = 0b100000000000_00101_000_00111_0010011#32 ∧
    encode (.andi 7 5 255) = 0b000011111111_00101_111_00111_0010011#32 ∧
    encode (.ori 7 5 2047) = 0b011111111111_00101_110_00111_0010011#32 ∧
    encode (.xori 7 5 1365) = 0b010101010101_00101_100_00111_0010011#32 ∧
    encode (.slli 7 5 40) = 0b000000_101000_00101_001_00111_0010011#32 ∧
    encode (.srli 7 5 33) = 0b000000_100001_00101_101_00111_0010011#32 ∧
    encode (.srai 7 5 63) = 0b010000_111111_00101_101_00111_0010011#32 := by
  decide

/-- Words written out field by field (30_encoding.md R82, R93). -/
theorem test_decode_load :
    decodeWord 0b000000000001_00101_011_00111_0000011#32 = .instr (.ld 7 5 1) ∧
    decodeWord 0b000000000010_00101_010_00111_0000011#32 = .instr (.lw 7 5 2) ∧
    decodeWord 0b111111111111_00101_001_00111_0000011#32 = .instr (.lh 7 5 (-1)) ∧
    decodeWord 0b100000000000_00101_000_00111_0000011#32 = .instr (.lb 7 5 (-2048)) ∧
    decodeWord 0b000000000100_00101_110_00111_0000011#32 = .instr (.lwu 7 5 4) ∧
    decodeWord 0b000000000110_00101_101_00111_0000011#32 = .instr (.lhu 7 5 6) ∧
    decodeWord 0b011111111111_00101_100_00111_0000011#32 = .instr (.lbu 7 5 2047) := by
  decide

/-- The encoder gives those words back. -/
theorem test_encode_load :
    encode (.ld 7 5 1) = 0b000000000001_00101_011_00111_0000011#32 ∧
    encode (.lw 7 5 2) = 0b000000000010_00101_010_00111_0000011#32 ∧
    encode (.lh 7 5 (-1)) = 0b111111111111_00101_001_00111_0000011#32 ∧
    encode (.lb 7 5 (-2048)) = 0b100000000000_00101_000_00111_0000011#32 ∧
    encode (.lwu 7 5 4) = 0b000000000100_00101_110_00111_0000011#32 ∧
    encode (.lhu 7 5 6) = 0b000000000110_00101_101_00111_0000011#32 ∧
    encode (.lbu 7 5 2047) = 0b011111111111_00101_100_00111_0000011#32 := by
  decide

/-- Words written out field by field (30_encoding.md R82, R94). -/
theorem test_decode_store :
    decodeWord 0b1111111_01010_00101_011_11000_0100011#32 = .instr (.sd 10 5 (-8)) ∧
    decodeWord 0b0000000_01010_00101_010_01100_0100011#32 = .instr (.sw 10 5 12) ∧
    decodeWord 0b0111111_01010_00101_001_11111_0100011#32 = .instr (.sh 10 5 2047) ∧
    decodeWord 0b1000000_01010_00101_000_00000_0100011#32 = .instr (.sb 10 5 (-2048)) := by
  decide

/-- The encoder gives those words back. -/
theorem test_encode_store :
    encode (.sd 10 5 (-8)) = 0b1111111_01010_00101_011_11000_0100011#32 ∧
    encode (.sw 10 5 12) = 0b0000000_01010_00101_010_01100_0100011#32 ∧
    encode (.sh 10 5 2047) = 0b0111111_01010_00101_001_11111_0100011#32 ∧
    encode (.sb 10 5 (-2048)) = 0b1000000_01010_00101_000_00000_0100011#32 := by
  decide

/-- Words written out field by field (30_encoding.md R82, R95). -/
theorem test_decode_branch :
    decodeWord 0b1_111111_00110_00101_000_1010_1_1100011#32 = .instr (.beq 5 6 (-12)) ∧
    decodeWord 0b0_000000_00110_00101_001_0100_0_1100011#32 = .instr (.bne 5 6 8) ∧
    decodeWord 0b1_000000_00110_00101_100_0000_0_1100011#32 = .instr (.blt 5 6 (-4096)) ∧
    decodeWord 0b0_111111_00110_00101_101_1111_1_1100011#32 = .instr (.bge 5 6 4094) ∧
    decodeWord 0b0_000000_00110_00101_111_0000_1_1100011#32 = .instr (.bgeu 5 6 2048) ∧
    decodeWord 0b1_111111_00110_00101_110_1111_1_1100011#32 = .instr (.bltu 5 6 (-2)) := by
  decide

/-- The encoder gives those words back. -/
theorem test_encode_branch :
    encode (.beq 5 6 (-12)) = 0b1_111111_00110_00101_000_1010_1_1100011#32 ∧
    encode (.bne 5 6 8) = 0b0_000000_00110_00101_001_0100_0_1100011#32 ∧
    encode (.blt 5 6 (-4096)) = 0b1_000000_00110_00101_100_0000_0_1100011#32 ∧
    encode (.bge 5 6 4094) = 0b0_111111_00110_00101_101_1111_1_1100011#32 ∧
    encode (.bgeu 5 6 2048) = 0b0_000000_00110_00101_111_0000_1_1100011#32 ∧
    encode (.bltu 5 6 (-2)) = 0b1_111111_00110_00101_110_1111_1_1100011#32 := by
  decide

/-- Words written out field by field (30_encoding.md R82, R96). -/
theorem test_decode_jump :
    decodeWord 0b0_0000000110_0_00000000_00001_1101111#32 = .instr (.jal 1 12) ∧
    decodeWord 0b1_0000000000_0_00000000_00001_1101111#32 = .instr (.jal 1 (-1048576)) ∧
    decodeWord 0b0_0000000000_1_00000000_00001_1101111#32 = .instr (.jal 1 2048) ∧
    decodeWord 0b111111111101_00110_000_00001_1100111#32 = .instr (.jalr 1 6 (-3)) ∧
    decodeWord 0b11111111111111111111_00101_0110111#32 = .instr (.lui 5 0xFFFFF) := by
  decide

/-- The encoder gives those words back. -/
theorem test_encode_jump :
    encode (.jal 1 12) = 0b0_0000000110_0_00000000_00001_1101111#32 ∧
    encode (.jal 1 (-1048576)) = 0b1_0000000000_0_00000000_00001_1101111#32 ∧
    encode (.jal 1 2048) = 0b0_0000000000_1_00000000_00001_1101111#32 ∧
    encode (.jalr 1 6 (-3)) = 0b111111111101_00110_000_00001_1100111#32 ∧
    encode (.lui 5 0xFFFFF) = 0b11111111111111111111_00101_0110111#32 := by
  decide

/-- Vectors X1w to X15w: no row matches. -/
theorem test_decode_unknown : ([0x0012A393, 0x0012B393, 0x00000073, 0x00100073, 0x026283B3, 0x0012839B, 0x00001297,
    0x0FF0000F, 0x00000000, 0xFFFFFFFF, 0x00004501, 0x0062F003, 0x00001067, 0x0800D393, 0x2062D3B3] : List InstWord).all
    (fun w => decide (decodeWord w = .unknown (.word w))) = true := by decide

/-- Vectors B14, J2 and P4 through the opcode table's bit numbering. -/
theorem test_decodeTableWord : decodeTableWord 32 0xFE628AE3 = some (.beq 5 6 (-12)) ∧
    decodeTableWord 32 0xFF9FF06F = some (.jal 0 (-8)) ∧ decodeTableWord 32 0x00008067 = some (.jalr 0 1 0) ∧
    decodeTableWord 32 0x73 = none := by decide

/-! ## The textual form -/

/-- Vectors B17, B18, B22 and B14: a label, the same label from elsewhere, a label that looks like a number, a count. -/
theorem test_text_targets :
    decodeText [("L".toList, 3)] 0 "beq x0, x0, L".toList = .instr (.beq 0 0 12) ∧
    decodeText [("L".toList, 3)] 0x14 "beq x0, x0, L".toList = .instr (.beq 0 0 (-8)) ∧
    decodeText [("8".toList, 1)] 8 "beq x0, x0, 8".toList = .instr (.beq 0 0 (-4)) ∧
    decodeText [] 0x10 "beq t0, t1, -3".toList = .instr (.beq 5 6 (-12)) := by decide

/-- Section 3 and vectors U3, U7, U8: immediates that need no binary word. -/
theorem test_text_immediates :
    decodeText [] 0 "addi t2, t0, 100000".toList = .instr (.addi 7 5 100000) ∧
    decodeText [] 0 "addi t2, x0, -9223372036854775808".toList = .instr (.addi 7 0 0x8000000000000000) ∧
    decodeText [] 0 "addi t2, x0, 9223372036854775808".toList =
      .malformed .immediate "addi t2, x0, 9223372036854775808".toList ∧
    decodeText [] 0 "lui t0, 16".toList = .instr (.lui 5 16) ∧
    decodeText [] 0 "lui t0, -1".toList = .instr (.lui 5 (-1)) ∧
    decodeText [] 0 "lui t0, 0x100000".toList = .instr (.lui 5 0x100000) := by decide

/-- Every operand form (30_encoding.md R103), with and without commas. -/
theorem test_text_forms :
    decodeText [] 0 "add a2, a0, a1".toList = .instr (.add 12 10 11) ∧
    decodeText [] 0 "  srai  t2 x5 17".toList = .instr (.srai 7 5 17) ∧
    decodeText [] 0 "sd a0, -8(sp)".toList = .instr (.sd 10 2 (-8)) ∧
    decodeText [] 0 "jalr x0, 0(ra)".toList = .instr (.jalr 0 1 0) ∧
    decodeText [] 0x20 "jal x0, -2".toList = .instr (.jal 0 (-8)) := by decide

/-- Vectors X7, X9, X11, X14, X3: the cause of each defect. -/
theorem test_text_defects :
    decodeText [] 0 "addi a0, x32, 5".toList = .malformed .register "addi a0, x32, 5".toList ∧
    decodeText [] 0 "ld a0, 8[sp]".toList = .malformed .immediate "ld a0, 8[sp]".toList ∧
    decodeText [] 0 "ld a0, 8(q1)".toList = .malformed .register "ld a0, 8(q1)".toList ∧
    decodeText [] 0 "addi q0, x0, 5x".toList = .malformed .register "addi q0, x0, 5x".toList ∧
    decodeText [] 0 "mul t2, t0, t1".toList = .unknown (.text "mul t2, t0, t1".toList) := by decide

/-! ## Register-register instructions (section 2) -/

theorem test_add_wraps : result (.add 7 5 6) 0xFFFFFFFFFFFFFFFF 1 0 = true := by decide
theorem test_add_reads_before_write :
    nextHas (exec (.add 5 5 5) (start [(5, 7)])) (fun t => t.readReg 5 == 14) = true := by decide
theorem test_sub_order : result (.sub 7 5 6) 0 1 0xFFFFFFFFFFFFFFFF = true := by decide
theorem test_and : result (.and 7 5 6) 0xFFFFFFFFFFFFFFFF 0x7FFFFFFFFFFFFFFF 0x7FFFFFFFFFFFFFFF = true := by decide
theorem test_or : result (.or 7 5 6) 0x8000000000000000 0x7FFFFFFFFFFFFFFF 0xFFFFFFFFFFFFFFFF = true := by decide
theorem test_xor : result (.xor 7 5 6) 0xFFFFFFFFFFFFFFFF 0x8000000000000000 0x7FFFFFFFFFFFFFFF = true := by decide
/-- A10. -/
theorem test_sll_64_bits : result (.sll 7 5 6) 0x0000000100000000 0x1F 0x8000000000000000 = true := by decide
/-- A7. -/
theorem test_sll_masks_amount : result (.sll 7 5 6) 1 0x3F 0x80000000 = true := by decide
/-- A13. -/
theorem test_srl_low_32_bits : result (.srl 7 5 6) 0x123456789ABCDEF0 8 0x009ABCDE = true := by decide
/-- A14. -/
theorem test_srl_masks_amount : result (.srl 7 5 6) 0xFFFFFFFFFFFFFFFF 0x20 0xFFFFFFFF = true := by decide
/-- A18. -/
theorem test_sra_masks_amount : result (.sra 7 5 6) 0x8000000000000000 0x3F 0xFFFFFFFF00000000 = true := by decide
/-- A22. -/
theorem test_sra_64_bits : result (.sra 7 5 6) 0x123456789ABCDEF0 8 0x00123456789ABCDE = true := by decide
/-- A24, A25. -/
theorem test_slt_signed : result (.slt 7 5 6) 0xFFFFFFFFFFFFFFFF 0 1 = true ∧
    result (.slt 7 5 6) 0 0xFFFFFFFFFFFFFFFF 0 = true := by decide
/-- A26, A27. -/
theorem test_sltu_low_32_bits : result (.sltu 7 5 6) 0x100000000 1 1 = true ∧
    result (.sltu 7 5 6) 1 0x100000000 0 = true := by decide
/-- A34: register 0 under both settings. -/
theorem test_register_zero :
    nextHas (exec (.add 0 5 5) (start [(5, 7)])) (fun t => t.readReg 0 == 14) = true ∧
    nextHas (exec (.add 0 5 5) { start [(5, 7)] with cfg := { x0Hardwired := true } })
      (fun t => t.readReg 0 == 0 && t.pc == 4) = true := by decide

/-! ## Register-immediate instructions (section 3) -/

/-- I3. -/
theorem test_addi : result (.addi 7 5 (-1)) 0x8000000000000000 0 0x7FFFFFFFFFFFFFFF = true := by decide
/-- I8. -/
theorem test_andi : result (.andi 7 5 (-2048)) 0xFFFFFFFFFFFFFFFF 0 0xFFFFFFFFFFFFF800 = true := by decide
/-- I11. -/
theorem test_ori : result (.ori 7 5 2047) 0x8000000000000000 0 0x80000000000007FF = true := by decide
/-- I14. -/
theorem test_xori : result (.xori 7 5 1365) 0x7FFFFFFFFFFFFFFF 0 0x7FFFFFFFFFFFFAAA = true := by decide
/-- I17. -/
theorem test_slli : result (.slli 7 5 40) 1 0 0x100 = true := by decide
/-- I24. -/
theorem test_srli : result (.srli 7 5 33) 0xFFFFFFFFFFFFFFFF 0 0x7FFFFFFF = true := by decide
/-- I29. -/
theorem test_srai : result (.srai 7 5 4) 0x8000000080000000 0 0xF800000008000000 = true := by decide

/-! ## Loads and stores (section 4) -/

/-- Memory after the doubleword 0x1122334455667788 is stored at 0x10020. -/
def stored : Memory :=
  [(0x10020, 0x88), (0x10021, 0x77), (0x10022, 0x66), (0x10023, 0x55), (0x10024, 0x44), (0x10025, 0x33), (0x10026, 0x22),
    (0x10027, 0x11)]

/-- A load from x[5] = 0x10020 gives this value. -/
def loads (i : Instr) (v : Word) : Bool :=
  nextHas (exec i (startMem stored [(5, 0x10020)])) (fun t => t.readReg 7 == v && t.pc == 4)

/-- W1 to W9. -/
theorem test_lb : loads (.lb 7 5 0) 0xFFFFFFFFFFFFFF88 = true := by decide
theorem test_lbu : loads (.lbu 7 5 0) 0x88 = true := by decide
theorem test_lh : loads (.lh 7 5 1) 0x6677 = true ∧ loads (.lh 7 5 7) 0x11 = true := by decide
theorem test_lhu : loads (.lhu 7 5 6) 0x1122 = true := by decide
theorem test_lw : loads (.lw 7 5 2) 0x33445566 = true ∧ loads (.lw 7 5 5) 0x00112233 = true := by decide
theorem test_lwu : loads (.lwu 7 5 4) 0x11223344 = true := by decide
theorem test_ld : loads (.ld 7 5 1) 0x0011223344556677 = true := by decide
/-- M23, M24, M21: the sign bits of a word and a half. -/
theorem test_load_extensions :
    nextHas (exec (.lw 7 5 0) (startMem [(0x10023, 0x80)] [(5, 0x10020)])) (fun t => t.readReg 7 == 0xFFFFFFFF80000000) = true ∧
    nextHas (exec (.lwu 7 5 0) (startMem [(0x10023, 0x80)] [(5, 0x10020)])) (fun t => t.readReg 7 == 0x80000000) = true ∧
    nextHas (exec (.lh 7 5 0) (startMem [(0x10021, 0x80)] [(5, 0x10020)])) (fun t => t.readReg 7 == 0xFFFFFFFFFFFF8000) = true := by
  decide

/-- A store of x[10] = 0x1122334455667788 leaves this memory. -/
def stores (i : Instr) (m : Memory) : Bool :=
  nextHas (exec i (start [(5, 0x10020), (10, 0x1122334455667788)])) (fun t => decide (t.mem = m) && t.pc == 4)

/-- M1 to M6. -/
theorem test_sd : stores (.sd 10 5 0) stored = true := by decide
theorem test_sw : stores (.sw 10 5 0) (stored.take 4) = true := by decide
theorem test_sh : stores (.sh 10 5 0) (stored.take 2) = true := by decide
theorem test_sb : stores (.sb 10 5 0) (stored.take 1) = true := by decide
/-- Storing zero removes the entries: memory stays canonical. -/
theorem test_store_zero_canonical :
    nextHas (exec (.sw 0 5 2) (startMem stored [(5, 0x10020)]))
      (fun t => decide (t.mem = stored.take 2 ++ stored.drop 6) && Memory.wf t.mem) = true := by decide

/-- K1, K2, K12, K18, K19, K21: bounds of a load. -/
theorem test_load_bounds :
    nextHas (exec (.ld 7 5 0) (start [(5, 0x61A78)])) (fun t => t.readReg 7 == 0) = true ∧
    faultIs (exec (.ld 7 5 0) (start [(5, 0x61A79)])) (.memoryBounds 0x61A79 8) = true ∧
    faultIs (exec (.ld 7 5 (-8)) (start [(5, 0)])) (.memoryBounds 0xFFFFFFFFFFFFFFF8 8) = true ∧
    nextHas (exec (.lb 7 5 1) (start [(5, 0xFFFFFFFFFFFFFFFF)])) (fun t => t.readReg 7 == 0) = true ∧
    faultIs (exec (.ld 7 5 0) (start [(5, 0x8000000000000000)])) (.memoryBounds 0x8000000000000000 8) = true := by decide

/-- K14, K16, K17, K18: bounds of a store. -/
theorem test_store_bounds :
    faultIs (exec (.sd 10 5 0) (start [(5, 0x61A79)])) (.memoryBounds 0x61A79 8) = true ∧
    faultIs (exec (.sb 10 5 0) (start [(5, 0x61A80)])) (.memoryBounds 0x61A80 1) = true ∧
    faultIs (exec (.sw 10 5 (-4)) (start [(5, 2)])) (.memoryBounds 0xFFFFFFFFFFFFFFFE 4) = true ∧
    faultIs (exec (.sd 10 5 8) (start [(5, 0x7FFFFFFFFFFFFFFF)])) (.memoryBounds 0x8000000000000007 8) = true := by decide

/-! ## Branches (section 5) -/

/-- A branch at pc 0x10 on x[5] and x[6] leaves this pc. -/
def branches (i : Instr) (a b p : Word) : Bool :=
  nextHas (exec i { start [(5, a), (6, b)] with pc := 0x10 }) (fun t => t.pc == p)

/-- B10, B2. -/
theorem test_beq : branches (.beq 5 6 8) 0x100000000 0 0x14 = true ∧ branches (.beq 5 6 8) 5 5 0x18 = true := by decide
theorem test_bne : branches (.bne 5 6 8) 0x100000000 0 0x18 = true ∧ branches (.bne 5 6 8) 5 5 0x14 = true := by decide
/-- B3, B4. -/
theorem test_blt : branches (.blt 5 6 8) 0xFFFFFFFFFFFFFFFF 0 0x18 = true ∧
    branches (.blt 5 6 8) 0 0xFFFFFFFFFFFFFFFF 0x14 = true := by decide
/-- B1, B5. -/
theorem test_bge : branches (.bge 5 6 8) 0 0 0x18 = true ∧
    branches (.bge 5 6 8) 0x8000000000000000 0x7FFFFFFFFFFFFFFF 0x14 = true := by decide
/-- B8, B9. -/
theorem test_bltu : branches (.bltu 5 6 8) 0x100000000 1 0x14 = true ∧
    branches (.bltu 5 6 8) 1 0x100000000 0x18 = true := by decide
theorem test_bgeu : branches (.bgeu 5 6 8) 0x100000000 1 0x18 = true ∧
    branches (.bgeu 5 6 8) 1 0x100000000 0x14 = true := by decide

/-! ## Jumps and lui (sections 6, 7) -/

/-- J2, both settings of the parameter. -/
theorem test_jal_register_zero :
    nextHas (exec (.jal 0 (-8)) { start [] with pc := 0x20 }) (fun t => t.readReg 0 == 0x24 && t.pc == 0x18) = true ∧
    nextHas (exec (.jal 0 (-8)) { start [] with pc := 0x20, cfg := { x0Hardwired := true } })
      (fun t => t.readReg 0 == 0 && t.pc == 0x18) = true := by decide
/-- J8, J13. -/
theorem test_jalr :
    nextHas (exec (.jalr 6 5 0) { start [(5, 0x1001)] with pc := 0x20 }) (fun t => t.readReg 6 == 0x24 && t.pc == 0x1000) = true ∧
    nextHas (exec (.jalr 5 5 0) { start [(5, 0x14)] with pc := 4 }) (fun t => t.readReg 5 == 8 && t.pc == 0x14) = true := by decide
/-- J7. -/
theorem test_jalr_register_zero :
    nextHas (exec (.jalr 0 1 0) { start [(1, 0xC)] with pc := 0x18 }) (fun t => t.readReg 0 == 0 && t.pc == 0xC) = true := by
  decide
/-- U5, U7. -/
theorem test_lui :
    nextHas (exec (.lui 5 0x80000) (start [])) (fun t => t.readReg 5 == 0x80000000) = true ∧
    nextHas (exec (.lui 5 (-1)) (start [])) (fun t => t.readReg 5 == 0xFFFFFFFFFFFFF000) = true := by decide

/-! ## Fetch, faults and the latch (section 8, J10, J11) -/

theorem test_fetch_faults :
    faultIs (step { start [] with pc := 2 }) (.pcMisaligned 2) = true ∧
    faultIs (step { start [] with pc := 0xFFFFFFFFFFFFFFFC }) (.pcOutOfRange 0xFFFFFFFFFFFFFFFC) = true ∧
    nextHas (step State.reset) (fun t => decide (t = State.reset)) = true := by decide

/-- X1, X2: both policies. -/
theorem test_unknown_policies :
    faultIs (step (withProgram [.word 0x73] 0 State.reset)) (.unknownOpcode (.word 0x73)) = true ∧
    nextHas (step (withProgram [.word 0x73] 0 { State.reset with cfg := { unknownPolicy := .permissive } }))
      (fun t => t.pc == 4) = true := by decide

/-- X5, X6, X8. -/
theorem test_malformed_faults :
    faultIs (step (line "addi a0, x0, 5x")) (.malformedImmediate "addi a0, x0, 5x".toList) = true ∧
    faultIs (step (line "addi a0, q0, 5")) (.unknownRegister "addi a0, q0, 5".toList) = true ∧
    faultIs (step (line "bne a0, x0, nowhere")) (.unresolvedTarget "bne a0, x0, nowhere".toList) = true := by decide

/-- X17: the same fault again, and the latch keeps its first value. -/
theorem test_latch :
    (stepCommand (line "addi a0, q0, 5")).response =
      .faulted ⟨.unknownRegister "addi a0, q0, 5".toList, 0, some (.text "addi a0, q0, 5".toList)⟩ ∧
    (stepCommand (stepCommand (line "addi a0, q0, 5")).state) = stepCommand (line "addi a0, q0, 5") ∧
    (stepCommand (line "addi a0, q0, 5")).state.flt =
      some ⟨.unknownRegister "addi a0, q0, 5".toList, 0, some (.text "addi a0, q0, 5".toList)⟩ := by decide

/-- The codes of 60_exceptions.md R260. -/
theorem test_fault_codes : [Fault.memoryBounds 0 1, .unknownOpcode (.word 0), .malformedImmediate [], .unknownRegister [],
    .unresolvedTarget [], .pcMisaligned 2, .pcOutOfRange (-4)].map faultCode = [1, 2, 3, 4, 5, 6, 7] := by decide

/-- The power-on memory is canonical. -/
theorem test_reset_memory : Memory.wf State.reset.mem = true ∧ Config.wf State.reset.cfg = true := by decide

/-! ## The debug controller (section 9) -/

/-- The first two lines of program Q. -/
def programQ : List Text := ["addi a0, x0, 1".toList, "addi a0, a0, 1".toList]

/-- Program Q's two lines, loaded. -/
def loadedQ : State := (loadCommand (.lines programQ [] []) State.reset).state

/-- D1, D3, on two lines. -/
theorem test_run_to_end : runCommand 2 loadedQ =
    .replied ⟨(loadedQ.writeReg 10 2).setPc 8, .endOfProgram,
      [⟨0, .text "addi a0, x0, 1".toList⟩, ⟨4, .text "addi a0, a0, 1".toList⟩]⟩ := by decide

/-- D5, D8. -/
theorem test_breakpoints :
    (setBreakCommand 2 loadedQ).state.breakpoints = [4] ∧
    (setBreakCommand 2 (setBreakCommand 2 loadedQ).state).response = .breakAlreadySet ∧
    (delBreakCommand 4 (setBreakCommand 2 loadedQ).state).response = .noBreakpointSet ∧
    (setBreakCommand 3 loadedQ).response = .invalidLine ∧
    runCommand 0 (setBreakCommand 1 loadedQ).state =
      .replied ⟨(setBreakCommand 1 loadedQ).state, .stoppedAtBreakpoint 0, []⟩ := by decide

/-- D7. -/
theorem test_mem_command :
    (memCommand 0x90000 1 State.reset).response = .outOfBounds ∧
    (memCommand 399999 1 State.reset).response = .bytes [0] ∧
    (memCommand 399999 2 State.reset).response = .outOfBounds ∧
    (memCommand 400000 0 State.reset).response = .bytes [] ∧
    (memCommand (-1) 1 State.reset).response = .outOfBounds ∧
    (memCommand 0 (-1) State.reset).response = .outOfBounds := by decide

/-- D12: a failed load changes nothing. -/
theorem test_load_fails :
    (loadCommand (.lines programQ [("loop".toList, 0), ("loop".toList, 1)] []) loadedQ) =
      ⟨loadedQ, .loadFailed (.duplicateLabel "loop".toList), []⟩ := by decide

/-- D14: an endless loop runs out of fuel. -/
theorem test_run_out_of_fuel :
    runCommand 1 (withProgram [.word 0x000002EF] 0 State.reset) =
      .outOfFuel ((withProgram [.word 0x000002EF] 0 State.reset).writeReg 5 4) [⟨0, .word 0x000002EF⟩] := by decide

/-- P3's data directive. -/
theorem test_data_image : dataImage [.word [10, 20, -5, 7]] =
    [0x0A, 0, 0, 0, 0x14, 0, 0, 0, 0xFB, 0xFF, 0xFF, 0xFF, 0x07, 0, 0, 0] := by decide

/-- D13: a session at power-on. -/
theorem test_session : (session 1 [.run, .step, .setBreak 1, .mem 0 2] State.reset) =
    [.replied ⟨State.reset, .endOfProgram, []⟩, .replied ⟨State.reset, .nothingToStep, []⟩,
      .replied ⟨State.reset, .invalidLine, []⟩, .replied ⟨State.reset, .bytes [0, 0], []⟩] := by decide

/-! ## Witnesses: a state and operands for the hypotheses of each obligation

Each named after its obligation, a clause at a time where a statement has several. -/

/-- The power-on state with the word `addi x7, x5, -2048` in slot 0. -/
def wordState : State := withProgram [.word 0x80028393] 0 State.reset

/-- The power-on state under the permissive policy, with an unknown word in slot 0. -/
def permissiveState : State := withProgram [.word 0x73] 0 { State.reset with cfg := { unknownPolicy := .permissive } }

/-- The power-on state with a hard-wired register 0. -/
def hardwiredState : State := { State.reset with cfg := { x0Hardwired := true } }

theorem witness_DecodeOfEncodeIsIdentity : (Instr.add 0 31 31).wellFormed = true ∧ (Instr.addi 7 5 (-2048)).wellFormed = true ∧
    (Instr.lbu 7 5 2047).wellFormed = true ∧ (Instr.srai 7 5 63).wellFormed = true ∧
    (Instr.sd 7 5 (-2048)).wellFormed = true ∧ (Instr.bgeu 5 6 (-4096)).wellFormed = true ∧
    (Instr.beq 5 6 4094).wellFormed = true ∧ (Instr.jal 1 (-1048576)).wellFormed = true ∧
    (Instr.jal 1 1048574).wellFormed = true ∧ (Instr.jalr 1 5 (-2048)).wellFormed = true ∧
    (Instr.lui 5 0xFFFFF).wellFormed = true := by decide

theorem witness_EncodeOfDecodeIsIdentity : decodeWord 0x80028393 = .instr (.addi 7 5 (-2048)) := by decide

/-- Shifts on both sides of the 6 bits, each of the three constructors, and a form that is not a shift, at its bound. -/
theorem witness_BinaryFormUpToShiftReduction : (Instr.slli 7 5 63).wellFormed = true ∧ (Instr.srli 7 5 64).hasWord = true ∧
    (Instr.srli 7 5 64).wellFormed = false ∧ (Instr.lui 7 0xFFFFF).hasWord = true ∧
    Instr.slli ∈ [Instr.slli, .srli, .srai] ∧ Instr.srli ∈ [Instr.slli, .srli, .srai] ∧ Instr.srai ∈ [Instr.slli, .srli, .srai] ∧
    decodeWord 0b000000_111111_00101_001_00111_0010011#32 = .instr (Instr.slli 7 5 (-1)).reduced :=
  ⟨by decide, by decide, by decide, by decide, by simp, by simp, by simp, by decide⟩

theorem witness_DecoderFollowsOpcodeTable :
    (∃ r ∈ opcodeTable, r.covers 0x80028393 = true) ∧ decodeWord 0x73 = .unknown (.word 0x73) ∧
    ∀ r ∈ opcodeTable, r.covers 0x73 = false := by decide

/-- Also the witness of every `RowDecodes`: a row's pattern is a word of the row. -/
theorem witness_OpcodeRowsAreDisjoint : ∀ r ∈ opcodeTable, r.pattern &&& r.mask = r.pattern ∧ r.covers r.pattern = true := by
  decide

theorem witness_LiteralsAreSigned64 : parseLiteral "-9223372036854775808".toList = some (-(2 : Int) ^ 63) ∧
    parseLiteral "0x7fffffffffffffff".toList = some ((2 : Int) ^ 63 - 1) := by decide

theorem witness_BranchTargetLaw : ([("8".toList, 0)] : LabelTable).lookup "8".toList = some 0 ∧
    ([] : LabelTable).lookup "0".toList = none ∧ parseLiteral "0".toList = some 0 ∧ parseLiteral "1".toList = some 1 ∧
    parseLiteral "nowhere".toList = none ∧ BranchTaken State.reset (.beq 5 6 8) ∧
    BranchTaken (start [(5, 1)]) (.bne 5 6 8) ∧ BranchTaken (start [(5, -1)]) (.blt 5 6 8) ∧
    BranchTaken State.reset (.bge 5 6 8) ∧ BranchTaken State.reset (.bgeu 5 6 8) ∧
    BranchTaken (start [(6, 1)]) (.bltu 5 6 8) := by
  unfold BranchTaken; decide

theorem witness_DecodingAtExecutionAgreesWithStore : wordState.fetch = .element (.word 0x80028393) ∧
    (line "frob").fetch = .element (.text "frob".toList) := by decide

/-- In bounds at the highest legal address and out of bounds one above it and below 0, for each width. -/
theorem witness_LoadResult_StoreResult : Memory.wf State.reset.mem = true ∧
    (∀ n ∈ [1, 2, 4, 8], InMemory (start [(5, BitVec.ofNat 64 (400000 - n))]) ((start [(5, BitVec.ofNat 64 (400000 - n))]).readReg 5 + 0) n ∧
      ¬InMemory (start [(5, BitVec.ofNat 64 (400001 - n))]) ((start [(5, BitVec.ofNat 64 (400001 - n))]).readReg 5 + 0) n ∧
      ¬InMemory State.reset (State.reset.readReg 5 + -1) n) := by
  unfold InMemory; decide

theorem witness_StoreThenLoadRoundTrip : Memory.wf State.reset.mem = true ∧
    ¬(State.reset.cfg.x0Hardwired = true ∧ (7 : Reg) = 0) ∧ ¬(hardwiredState.cfg.x0Hardwired = true ∧ (7 : Reg) = 0) ∧
    InMemory (start [(5, 399992)]) ((start [(5, 399992)]).readReg 5 + 0) 8 ∧
    InMemory (start [(5, 399996)]) ((start [(5, 399996)]).readReg 5 + 0) 4 ∧
    InMemory (start [(5, 399998)]) ((start [(5, 399998)]).readReg 5 + 0) 2 ∧
    InMemory (start [(5, 399999)]) ((start [(5, 399999)]).readReg 5 + 0) 1 := by
  unfold InMemory; decide

/-- The doubleword at the highest legal address, with the narrow loads at their largest displacement. -/
theorem witness_NarrowLoadsSeeStoredBytes : Memory.wf (start [(5, 399992)]).mem = true ∧
    ¬((start [(5, 399992)]).cfg.x0Hardwired = true ∧ (7 : Reg) = 0) ∧
    InMemory (start [(5, 399992)]) ((start [(5, 399992)]).readReg 5 + 0) 8 ∧
    InMemory (start [(5, 399992)]) ((start [(5, 399992)]).readReg 5 + (0 + BitVec.ofNat 64 4)) 4 ∧
    InMemory (start [(5, 399992)]) ((start [(5, 399992)]).readReg 5 + (0 + BitVec.ofNat 64 6)) 2 ∧
    InMemory (start [(5, 399992)]) ((start [(5, 399992)]).readReg 5 + (0 + BitVec.ofNat 64 7)) 1 := by
  unfold InMemory; decide

/-- Each condition of `BranchResult` holds on one pair of values and fails on another. -/
theorem witness_BranchResult : ((1 : Word).toNat = (1 : Word).toNat ∧ ¬(1 : Word).toNat = (2 : Word).toNat) ∧
    ((-1 : Word).toInt < (0 : Word).toInt ∧ ¬(0 : Word).toInt < (-1 : Word).toInt) ∧
    ((0 : Word).toNat < (-1 : Word).toNat ∧ ¬(-1 : Word).toNat < (0 : Word).toNat) ∧
    (start [(5, -1)]).readReg 5 = -1 := by decide

theorem witness_JalrLinksAndJumps : (0 : Reg) = 0 ∧ (1 : Reg) ≠ 0 ∧ (31 : Reg) ≠ 1 := by decide

theorem witness_LuiShiftsWithoutSignExtension : (0xFFFFF : Word).toNat < 2 ^ 20 := by decide

theorem witness_UnknownOpcodePolicies :
    (withProgram [.word 0x73] 0 State.reset).fetch = .element (.word 0x73) ∧
    decodeSource [] 0 (.word 0x73) = .unknown (.word 0x73) ∧
    (withProgram [.word 0x73] 0 State.reset).cfg.unknownPolicy = .strict ∧
    permissiveState.fetch = .element (.word 0x73) ∧ permissiveState.cfg.unknownPolicy = .permissive := by decide

theorem witness_MalformedAlwaysFaults :
    (line "add a0, a1").fetch = .element (.text "add a0, a1".toList) ∧
    decodeSource [] 0 (.text "add a0, a1".toList) = .malformed .register "add a0, a1".toList ∧
    (line "lui a0, z").fetch = .element (.text "lui a0, z".toList) ∧
    decodeSource [] 0 (.text "lui a0, z".toList) = .malformed .immediate "lui a0, z".toList ∧
    (line "jal a0, z").fetch = .element (.text "jal a0, z".toList) ∧
    decodeSource [] 0 (.text "jal a0, z".toList) = .malformed .target "jal a0, z".toList := by decide

theorem witness_FetchCases :
    ({ State.reset with pc := 0x8000000000000000 } : State).pc.toInt < 0 ∧
    (0 ≤ (0x7FFFFFFFFFFFFFFF : Word).toInt ∧ (0x7FFFFFFFFFFFFFFF : Word).toNat % 4 ≠ 0) ∧
    (0 ≤ State.reset.pc.toInt ∧ State.reset.pc.toNat % 4 = 0 ∧ State.reset.prog.length ≤ State.reset.pc.toNat / 4) ∧
    (0 ≤ wordState.pc.toInt ∧ wordState.pc.toNat % 4 = 0 ∧
      wordState.prog[wordState.pc.toNat / 4]? = some (.word 0x80028393)) := by decide

theorem witness_StepRunsDecodedInstruction :
    (0 ≤ wordState.pc.toInt ∧ wordState.pc.toNat % 4 = 0 ∧
      wordState.prog[wordState.pc.toNat / 4]? = some (.word 0x80028393) ∧
      decodeSource wordState.labels wordState.pc (.word 0x80028393) = .instr (.addi 7 5 (-2048))) ∧
    (0 ≤ (line "lui t0, 16").pc.toInt ∧ (line "lui t0, 16").pc.toNat % 4 = 0 ∧
      (line "lui t0, 16").prog[(line "lui t0, 16").pc.toNat / 4]? = some (.text "lui t0, 16".toList) ∧
      decodeSource (line "lui t0, 16").labels (line "lui t0, 16").pc (.text "lui t0, 16".toList) =
        .instr (.lui 5 16)) := by decide

theorem witness_PlacedWordRunsNext :
    decodeTableWord 32 (0x80028393 : InstWord).toNat = some (.addi 7 5 (-2048)) := by decide

theorem witness_NextPcRule :
    (∃ t, exec (.beq 5 6 8) (start [(5, 1)]) = .next t) ∧ ¬BranchTaken (start [(5, 1)]) (.beq 5 6 8) ∧
    familyOf (.beq 5 6 8) ≠ .jump ∧ permissiveState.fetch = .element (.word 0x73) ∧
    decodeSource permissiveState.labels permissiveState.pc (.word 0x73) = .unknown (.word 0x73) ∧
    permissiveState.cfg.unknownPolicy = .permissive ∧ (∃ t, step permissiveState = .next t) ∧
    ∃ f, step (line "frob") = .fault f :=
  ⟨⟨_, rfl⟩, by unfold BranchTaken; decide, by decide, by decide, by decide, by decide, ⟨_, rfl⟩, ⟨_, rfl⟩⟩

theorem witness_ProgramStoreChangesOnlyByLoad :
    (∃ t, exec (.sb 10 5 0) State.reset = .next t) ∧ (∃ t, step wordState = .next t) ∧ Command.run.isLoad = false ∧
    (Command.delBreak 1).isLoad = false := ⟨⟨_, rfl⟩, ⟨_, rfl⟩, rfl, rfl⟩

theorem witness_OnlyDestinationsChange :
    (∃ t, exec (.jalr 0 1 0) State.reset = .next t) ∧ destination (.jalr 0 1 0) ≠ some 0 ∧
    familyOf (.jalr 0 1 0) ≠ .store ∧ (∃ t, exec (.add 7 5 6) State.reset = .next t) ∧
    destination (.add 7 5 6) ≠ some 5 := ⟨⟨_, rfl⟩, by decide, by decide, ⟨_, rfl⟩, by decide⟩

theorem witness_RegisterZeroParameter : hardwiredState.cfg.x0Hardwired = true ∧
    State.reset.cfg.x0Hardwired = false ∧ (1 : Reg) ≠ 0 := by decide

theorem witness_OnlyBoundsFaults_HardwiredRegisterZero :
    (∃ f, exec (.ld 7 5 (-8)) State.reset = .fault f) ∧ accessOf State.reset (.ld 7 5 (-8)) = some (-8, 8) ∧
    ¬InMemory State.reset (-8) 8 ∧ (∃ ea n, step (line "lb a0, -1(sp)") = .fault (.memoryBounds ea n)) ∧
    hardwiredState.cfg.x0Hardwired = true ∧ (∃ t, exec (.lb 0 5 0) hardwiredState = .next t) ∧
    destination (.lb 0 5 0) = some 0 ∧ accessOf hardwiredState (.lb 0 5 0) = some (0, 1) ∧
    InMemory hardwiredState 0 1 ∧ accessOf hardwiredState (.lb 0 5 (-1)) = some (-1, 1) ∧
    ¬InMemory hardwiredState (-1) 1 :=
  ⟨⟨_, rfl⟩, by decide, by unfold InMemory; decide, ⟨-1, 1, rfl⟩, rfl, ⟨_, rfl⟩, rfl, by decide, by unfold InMemory; decide,
    by decide, by unfold InMemory; decide⟩

/-- A fault with an empty latch, one with a full latch, and a fetch fault. -/
theorem witness_FaultEntry_FaultRepeats :
    (∃ f, step (line "frob") = .fault f) ∧ (∃ f, step (stepCommand (line "frob")).state = .fault f) ∧
    ∃ f, step { State.reset with pc := 2 } = .fault f := ⟨⟨_, rfl⟩, ⟨_, rfl⟩, ⟨_, rfl⟩⟩

/-- Loads that succeed (of words and of lines, the image fitting exactly) and loads that fail, one byte more among them. -/
theorem witness_loads :
    (loadCommand (.words [0x13] [1, 2]) { State.reset with cfg := { memSize := 0x10002 } }).response = .loaded ∧
    (loadCommand (.lines programQ [("a".toList, 2)] []) State.reset).response = .loaded ∧
    ([("a".toList, 0), ("b".toList, 0)].map (fun l => l.1) : List Text).Nodup ∧
    ({ State.reset with cfg := { memSize := 0x10002 } } : State).cfg.dataBase + [1, 2].length ≤ 0x10002 ∧
    (loadCommand (.words [] [1, 2, 3]) { State.reset with cfg := { memSize := 0x10002 } }).response =
      .loadFailed .dataImageTooLarge ∧
    (loadCommand (.lines [] [("a".toList, 0), ("a".toList, 0)] []) State.reset).response =
      .loadFailed (.duplicateLabel "a".toList) ∧
    (loadCommand .unreadable State.reset).response ≠ .loaded := by decide

/-- The clauses on a load of lines: distinct names with an image that just fits and one that does not, and names of which
the third repeats the first before the fourth repeats the second, with an image too large as well. -/
theorem witness_FailedLoadChangesNothing :
    (loadCommand (.lines [] [("a".toList, 0), ("b".toList, 9)] [1, 2]) { State.reset with cfg := { memSize := 0x10002 } }).response =
      .loaded ∧
    (loadCommand (.lines [] [("a".toList, 0), ("b".toList, 9)] [1, 2, 3]) { State.reset with cfg := { memSize := 0x10002 } }).response =
      .loadFailed .dataImageTooLarge ∧
    ¬([("b".toList, 0), ("a".toList, 0), ("b".toList, 0), ("a".toList, 0)].map (fun l => l.1) : List Text).Nodup ∧
    (loadCommand (.lines [] [("b".toList, 0), ("a".toList, 0), ("b".toList, 0), ("a".toList, 0)] [1, 2, 3])
      { State.reset with cfg := { memSize := 0x10002 } }).response = .loadFailed (.duplicateLabel "b".toList) := by decide

theorem witness_DataImageLayout : 1 < 2 ∧ 3 < 4 ∧ 7 < 8 := by decide

/-- The first and the last line, unset and set, and the lines below and above. -/
theorem witness_SetBreakCommand_DelBreakCommand : loadedQ.prog.length = 2 ∧ (((1 : Int) - 1) * 4).toNat ∉ loadedQ.breakpoints ∧
    (((2 : Int) - 1) * 4).toNat ∉ loadedQ.breakpoints ∧ (((2 : Int) - 1) * 4).toNat ∈ (setBreakCommand 2 loadedQ).state.breakpoints ∧
    (0 : Int) < 1 ∧ (loadedQ.prog.length : Int) < 3 := by decide

theorem witness_InspectionCommands : 399999 + 1 ≤ State.reset.cfg.memSize ∧ 400000 + 0 ≤ State.reset.cfg.memSize ∧
    (-1 : Int) < 0 ∧ (State.reset.cfg.memSize : Int) < 399999 + 2 := by decide

theorem witness_InspectionAndBreakpointsAreReadOnly : ∃ c : Command,
    c = .regs ∨ (∃ addr count, c = .mem addr count) ∨ (∃ l, c = .setBreak l) ∨ (∃ l, c = .delBreak l) := ⟨.regs, .inl rfl⟩

theorem witness_StepCommandCases : State.reset.fetch = .endOfProgram ∧ wordState.fetch = .element (.word 0x80028393) ∧
    (∃ t, step wordState = .next t) ∧ (line "frob").fetch = .element (.text "frob".toList) ∧
    (∃ f, step (line "frob") = .fault f) ∧ ({ State.reset with pc := 2 } : State).fetch = .misaligned ∧
    ({ State.reset with pc := -4 } : State).fetch = .outOfRange :=
  ⟨by decide, by decide, ⟨_, rfl⟩, by decide, ⟨_, rfl⟩, by decide, by decide⟩

theorem witness_RunAtBreakpointStops :
    (setBreakCommand 1 loadedQ).state.pc.toNat ∈ (setBreakCommand 1 loadedQ).state.breakpoints := by decide

/-- One run for each of the three ends, the first two without a fault. -/
theorem witness_runs : (∃ reply, runCommand 2 loadedQ = .replied reply ∧ reply.response = .endOfProgram ∧ reply.trace.length = 2) ∧
    (∃ reply, runCommand 1 (setBreakCommand 2 loadedQ).state = .replied reply ∧ reply.response = .stoppedAtBreakpoint 4) ∧
    (∃ reply rep, runCommand 1 (line "frob") = .replied reply ∧ reply.response = .faulted rep) :=
  ⟨⟨_, rfl, by decide, by decide⟩, ⟨_, rfl, by decide⟩, ⟨_, _, rfl, rfl⟩⟩

/-- A program whose second element is unknown. -/
def faultsSecond : State := withProgram [.text "addi a0, x0, 1".toList, .text "frob".toList] 0 State.reset

/-- Runs that end with a fault: at a fetched element after a completed step, at the fetch itself, and with a latch that
holds an earlier fault, which it keeps. -/
theorem witness_faulting_runs :
    (∃ reply rep, runCommand 2 faultsSecond = .replied reply ∧ reply.response = .faulted rep ∧ rep.pc = 4 ∧
      reply.trace.map (fun e => e.pc) = [0, 4] ∧ reply.state.readReg 10 = 1 ∧ reply.state.pc = 4) ∧
    (∃ reply rep, runCommand 1 { State.reset with pc := 2 } = .replied reply ∧ reply.response = .faulted rep ∧ reply.trace = []) ∧
    (∃ reply rep, runCommand 2 { faultsSecond with flt := some ⟨.unknownOpcode (.text "frob".toList), 8, none⟩ } = .replied reply ∧
      reply.response = .faulted rep ∧ rep.pc = 4 ∧
      reply.state.flt = some ⟨.unknownOpcode (.text "frob".toList), 8, none⟩) :=
  ⟨⟨_, _, rfl, rfl, by decide, by decide, by decide, by decide⟩, ⟨_, _, rfl, rfl, by decide⟩, ⟨_, _, rfl, rfl, by decide, by decide⟩⟩

theorem witness_RunFunctionAgreesWithRelation : (∃ reply, Runs State.reset reply) ∧
    (∃ reply, runCommand 0 State.reset = .replied reply) ∧ 0 ≤ 1 :=
  ⟨⟨_, .endOfProgram State.reset (by decide) (by decide)⟩, ⟨_, rfl⟩, by decide⟩

/-- A state that meets the invariant, has listed memory, labels, breakpoints and a full latch, and completes a step. -/
def invariantState : State :=
  { wordState with
    labels := [("loop".toList, 0)], mem := [(0x10000, 1)], breakpoints := [0]
    flt := some ⟨.unknownOpcode (.word 0x80028393), 0, some (.word 0x80028393)⟩ }

theorem witness_StepKeepsInvariant_CommandsKeepInvariant : State.Inv invariantState ∧ ∃ t, step invariantState = .next t :=
  ⟨{ config := by decide, canonical := by decide, bounded := by decide, breakpoints := by unfold breakpointsWf; decide
     labels := by decide
     latch := by intro r h; cases h; exact ⟨rfl, rfl⟩ }, ⟨_, rfl⟩⟩

end Sys2Proof.Tests
end

section
/-! The next-pc rule (10_state.md R28), clause by clause. -/

namespace Sys2Proof.Machine

/-- Of the ways an instruction completes (`exec_next_cases`), only a taken branch and a jump do not end in `advance`. -/
theorem exec_pc_of_not_taken {i : Instr} {s t : State} (h : exec i s = .next t) (htaken : ¬BranchTaken s i)
    (hjump : familyOf i ≠ .jump) : t.pc = s.pc + 4 := by
  rcases exec_next_cases h with ⟨rd, v, -, -, -, -, rfl⟩ | ⟨a, n, v, -, -, rfl⟩ | ⟨-, hbranch⟩ | ⟨hj, -⟩
  · simp
  · simp
  · rcases hbranch with ⟨ht, -⟩ | ⟨-, rfl⟩
    · exact absurd ht htaken
    · simp
  · exact absurd hj hjump

/-- Under the permissive policy a step over an unknown element only advances (46_lui_and_unknown.md R222). -/
theorem step_of_unknown_permissive {s : State} {src raw : Source} (hf : s.fetch = .element src)
    (hd : decodeSource s.labels s.pc src = .unknown raw) (hp : s.cfg.unknownPolicy = .permissive) :
    step s = .next s.advance := by
  rw [step_of_element hf, execSource, hd]
  simp [execDecoded, execUnknown, hp]

/-- A fault is precise: the `step` command that met it leaves pc (60_exceptions.md R266). -/
theorem stepCommand_pc_of_step_fault {s : State} {f : Fault} (h : step s = .fault f) :
    (stepCommand s).state.pc = s.pc := by
  rw [(stepCommand_of_step_fault h).1, State.takeFault_pc]

/-- Settles O36: a completed instruction advances unless it is a taken branch or a jump, a permissive unknown element
advances, and taking a fault sets only the latch. -/
theorem nextPcRule : Obligations.NextPcRule := by
  refine ⟨fun s t i h htaken hjump => exec_pc_of_not_taken h htaken hjump, ?_,
    fun s f h => stepCommand_pc_of_step_fault h⟩
  intro s t src raw hf hd hp h
  obtain rfl : s.advance = t := Host.Outcome.next.inj ((step_of_unknown_permissive hf hd hp).symm.trans h)
  exact s.advance_pc

end Sys2Proof.Machine
end

section
/-! The program store and the label table change only by a load (20_memory.md R66). What `step` and `run` keep is said once,
for any predicate that completing and faulting steps keep. -/

namespace Sys2Proof.Machine

/-! ## What the commands that execute keep (48_debug_controller.md R236, R237) -/

/-- Events put before a result leave its state. -/
@[simp] theorem CommandResult.finalState_after (tr : List ExecEvent) (r : CommandResult) :
    (r.after tr).finalState = r.finalState := by
  cases r <;> rfl

/-- Where the loop of `run` stops, the state is as it was, or a fault of the fetch was taken. -/
theorem State.runCheck_inl_cases {s : State} {reply : Reply} (h : s.runCheck = .inl reply) :
    reply.state = s ∨ ∃ f, step s = .fault f ∧ reply.state = s.takeFault f := by
  unfold State.runCheck at h
  unfold step executionCycle
  split at h
  · cases h; exact .inl rfl
  · cases hf : s.fetch with
    | outOfRange => rw [hf] at h; cases h; exact .inr ⟨_, rfl, rfl⟩
    | misaligned => rw [hf] at h; cases h; exact .inr ⟨_, rfl, rfl⟩
    | endOfProgram => rw [hf] at h; cases h; exact .inl rfl
    | element src => rw [hf] at h; cases h

/-- The `step` command leaves the state its step leads to: the next one, the one with the fault taken, or the same. -/
theorem stepCommand_state (s : State) :
    (stepCommand s).state =
      match step s with
      | .next t => t
      | .fault f => s.takeFault f
      | .refused _ => s := by
  unfold stepCommand step executionCycle
  cases s.fetch with
  | element src => simp only; cases execSource src s <;> rfl
  | _ => rfl

section Keeps

variable {P : State → Prop} (hfault : ∀ (s : State) (f : Fault), P s → step s = .fault f → P (s.takeFault f))
include hfault

/-- Where the loop of `run` stops, it keeps what faulting steps keep. -/
theorem State.runCheck_keeps {s : State} {reply : Reply} (hs : P s) (h : s.runCheck = .inl reply) : P reply.state := by
  obtain h | ⟨f, hf, h⟩ := State.runCheck_inl_cases h
  · rw [h]; exact hs
  · rw [h]; exact hfault s f hs hf

variable (hnext : ∀ s t : State, P s → step s = .next t → P t)
include hnext

/-- The `step` command keeps what completing and faulting steps keep. -/
theorem stepCommand_keeps {s : State} (hs : P s) : P (stepCommand s).state := by
  rw [stepCommand_state]
  cases h : step s with
  | next t => exact hnext s t hs h
  | fault f => exact hfault s f hs h
  | refused r => exact hs

/-- So does `run`, at every fuel: by induction on it. -/
theorem runCommand_keeps (fuel : Nat) {s : State} (hs : P s) : P (runCommand fuel s).finalState := by
  induction fuel generalizing s with
  | zero =>
    cases hc : s.runCheck with
    | inl reply => rw [runCommand_stop _ _ _ hc]; exact State.runCheck_keeps hfault hs hc
    | inr src => rw [runCommand_zero _ _ hc]; exact hs
  | succ n ih =>
    cases hc : s.runCheck with
    | inl reply => rw [runCommand_stop _ _ _ hc]; exact State.runCheck_keeps hfault hs hc
    | inr src =>
      have hstep := step_of_element ((State.runCheck_inr_iff s src).1 hc).2
      rw [runCommand_succ _ _ _ hc]
      cases he : execSource src s with
      | next t =>
        rw [CommandResult.finalState_after]
        exact ih (hnext s t hs (hstep.trans he))
      | fault f => exact hfault s f hs (hstep.trans he)
      | refused r => exact hs

end Keeps

/-! ## The commands that execute nothing (R243 to R246) -/

/-- The command `break` changes at most the breakpoint set. -/
theorem setBreakCommand_state (line : Int) (s : State) :
    ∃ bs, (setBreakCommand line s).state = { s with breakpoints := bs } := by
  unfold setBreakCommand
  split
  · split <;> exact ⟨_, rfl⟩
  · exact ⟨_, rfl⟩

/-- So does `del break`. -/
theorem delBreakCommand_state (line : Int) (s : State) :
    ∃ bs, (delBreakCommand line s).state = { s with breakpoints := bs } := by
  unfold delBreakCommand
  split <;> exact ⟨_, rfl⟩

/-- The command `mem` changes nothing. -/
@[simp] theorem memCommand_state (addr count : Int) (s : State) : (memCommand addr count s).state = s := by
  unfold memCommand
  split <;> rfl

/-! ## The program store and the label table -/

/-- The program store and the label table are as before. -/
def SameProgram (s t : State) : Prop := t.prog = s.prog ∧ t.labels = s.labels

theorem SameProgram.refl (s : State) : SameProgram s s := ⟨rfl, rfl⟩

theorem SameProgram.trans {s t u : State} (h : SameProgram s t) (h' : SameProgram t u) : SameProgram s u :=
  ⟨h'.1.trans h.1, h'.2.trans h.2⟩

theorem SameControl.sameProgram {s t : State} (h : SameControl s t) : SameProgram s t := by
  obtain ⟨-, hprog, hlabels, -, -⟩ := h
  exact ⟨hprog, hlabels⟩

theorem sameProgram_takeFault (s : State) (f : Fault) : SameProgram s (s.takeFault f) :=
  ⟨s.takeFault_prog f, s.takeFault_labels f⟩

/-- No command but a load changes the program store or the label table. -/
theorem command_sameProgram (fuel : Nat) (c : Command) (s : State) (hc : c.isLoad = false) :
    SameProgram s (command fuel c s).finalState := by
  have hnext : ∀ t u : State, SameProgram s t → step t = .next u → SameProgram s u :=
    fun _ _ h hu => h.trans (step_sameControl hu).sameProgram
  have hfault : ∀ (t : State) (f : Fault), SameProgram s t → step t = .fault f → SameProgram s (t.takeFault f) :=
    fun t f h _ => h.trans (sameProgram_takeFault t f)
  cases c with
  | load request => cases hc
  | run => exact runCommand_keeps hfault hnext fuel (.refl s)
  | step => exact stepCommand_keeps hfault hnext (.refl s)
  | regs => exact .refl s
  | mem addr count =>
    change SameProgram s (memCommand addr count s).state
    rw [memCommand_state]
    exact .refl s
  | setBreak line =>
    obtain ⟨bs, h⟩ := setBreakCommand_state line s
    change SameProgram s (setBreakCommand line s).state
    rw [h]
    exact .refl s
  | delBreak line =>
    obtain ⟨bs, h⟩ := delBreakCommand_state line s
    change SameProgram s (delBreakCommand line s).state
    rw [h]
    exact .refl s

/-- Settles O37: instructions and steps keep the control part of the state, `run` and `step` what steps and faults keep,
and the other commands write at most the breakpoint set. -/
theorem programStoreChangesOnlyByLoad : Obligations.ProgramStoreChangesOnlyByLoad :=
  ⟨fun _ _ _ h => (exec_sameControl h).sameProgram, fun _ _ h => (step_sameControl h).sameProgram,
    command_sameProgram⟩

end Sys2Proof.Machine
end

section
/-! The register-register instructions (40_alu_register.md): what a row of format R decodes to, what the shared operation
says of an instruction, and the operations as numbers. -/

namespace Sys2Proof.Machine

/-! ## Forms of the statements -/

/-- A row of opcode 0x33 whose pattern has these funct7 and funct3 decodes to what the register family answers for them
(30_encoding.md R91). -/
theorem rowDecodes_register {pattern : InstWord} {mk : InstWord → Instr} (f7 : BitVec 7) (f3 : BitVec 3)
    (hpattern : encodeR f7 0 0 f3 0 0b0110011 = pattern)
    (hfamily : ∀ w, funct7Of w = f7 → funct3Of w = f3 → decodeRegister w = some (mk w)) :
    RowDecodes 0xFE00707F pattern mk := by
  subst hpattern
  intro w hw
  have h7 : funct7Of w = f7 := (slice_of_masked w _ _ hw 25 7 (by decide)).trans (funct7Of_encodeR ..)
  have h3 : funct3Of w = f3 := (slice_of_masked w _ _ hw 12 3 (by decide)).trans (funct3Of_encodeR ..)
  have hop : opcodeOf w = 0b0110011 := (slice_of_masked w _ _ hw 0 7 (by decide)).trans (opcodeOf_encodeR ..)
  simp [decodeWord, decodeInstr, hop, hfamily w h7 h3]

/-- An instruction that is a register-register operation has the results of that operation (R120). -/
theorem registerResult_of_registerOp {mk : Reg → Reg → Reg → Instr} {result : Word → Word → Word → Prop}
    (f : Word → Word → Word) (hexec : ∀ rd rs1 rs2 s, exec (mk rd rs1 rs2) s = registerOp f rd rs1 rs2 s)
    (hresult : ∀ a b, result a b (f a b)) : RegisterResult mk result := by
  intro s rd rs1 rs2
  refine ⟨_, hresult _ _, ?_⟩
  rw [hexec]
  exact registerOp_spec f rd rs1 rs2 s

/-! ## The operations as numbers -/

/-- Subtraction modulo 2^64, said by the sum it undoes (R122). -/
theorem toNat_sub_add_mod (a b : Word) : ((a - b).toNat + b.toNat) % 2 ^ 64 = a.toNat := by
  rw [← BitVec.toNat_add, BitVec.sub_add_cancel]

/-- The shift amount is the source modulo 32 (R126, R128). -/
theorem shiftAmount_eq_mod (v : Word) : shiftAmount v = v.toNat % 32 := by
  simp [shiftAmount, BitVec.extractLsb'_toNat]

/-- The low 32 bits are the value modulo 2^32 (R130). -/
@[simp] theorem toNat_low32 (v : Word) : (low32 v).toNat = v.toNat % 2 ^ 32 := by
  simp [low32, BitVec.extractLsb'_toNat]

/-- A left shift multiplies modulo 2^64 (R126). -/
theorem toNat_shiftLeft (a b : Word) : (shiftLeft a b).toNat = a.toNat * 2 ^ (b.toNat % 32) % 2 ^ 64 := by
  rw [shiftLeft, BitVec.toNat_shiftLeft, shiftAmount_eq_mod, Nat.shiftLeft_eq]

/-- An arithmetic right shift divides the signed value, rounding down (R128). -/
theorem toInt_shiftRightArithmetic (a b : Word) :
    (shiftRightArithmetic a b).toInt = a.toInt / 2 ^ (b.toNat % 32) := by
  rw [shiftRightArithmetic, BitVec.toInt_sshiftRight, shiftAmount_eq_mod, Int.shiftRight_eq_div_pow, Int.natCast_pow,
    Int.cast_ofNat_Int]

/-- The word of a decided comparison is 1 or 0. -/
theorem toNat_boolWord_decide (p : Prop) [Decidable p] : (boolWord (decide p)).toNat = if p then 1 else 0 := by
  by_cases hp : p <;> simp [boolWord, hp]

/-- `slt` compares the signed values (R129). -/
theorem toNat_boolWord_lessSigned (a b : Word) :
    (boolWord (lessSigned a b)).toNat = if a.toInt < b.toInt then 1 else 0 :=
  toNat_boolWord_decide _

/-- `sltu` compares the values modulo 2^32 (R130). -/
theorem toNat_boolWord_lessUnsigned32 (a b : Word) :
    (boolWord (lessUnsigned32 a b)).toNat = if a.toNat % 2 ^ 32 < b.toNat % 2 ^ 32 then 1 else 0 := by
  rw [lessUnsigned32, toNat_boolWord_decide, toNat_low32, toNat_low32]

/-! ## The instructions -/

/-- Settles O12: both are register-register operations, with the sum and the difference of 64-bit words. -/
theorem addAndSubWrap : Obligations.AddAndSubWrap := by
  refine ⟨rowDecodes_register 0b0000000 0b000 (by decide) ?_,
    registerResult_of_registerOp (fun a b => a + b) (fun _ _ _ _ => rfl) BitVec.toNat_add,
    rowDecodes_register 0b0100000 0b000 (by decide) ?_,
    registerResult_of_registerOp (fun a b => a - b) (fun _ _ _ _ => rfl) toNat_sub_add_mod⟩ <;>
  · intro w h7 h3
    simp [decodeRegister, h7, h3]

/-- Settles O13: the three are register-register operations, bit by bit. -/
theorem logicIsBitwise : Obligations.LogicIsBitwise := by
  refine ⟨rowDecodes_register 0b0000000 0b111 (by decide) ?_,
    registerResult_of_registerOp (fun a b => a &&& b) (fun _ _ _ _ => rfl) (fun _ _ _ _ => BitVec.getLsbD_and),
    rowDecodes_register 0b0000000 0b110 (by decide) ?_,
    registerResult_of_registerOp (fun a b => a ||| b) (fun _ _ _ _ => rfl) (fun _ _ _ _ => BitVec.getLsbD_or),
    rowDecodes_register 0b0000000 0b100 (by decide) ?_,
    registerResult_of_registerOp (fun a b => a ^^^ b) (fun _ _ _ _ => rfl) (fun _ _ _ _ => BitVec.getLsbD_xor)⟩ <;>
  · intro w h7 h3
    simp [decodeRegister, h7, h3]

/-- Settles O14: the amount is the source modulo 32, and the shifts multiply and divide by its power of two. -/
theorem sllAndSraShiftByFiveBits : Obligations.SllAndSraShiftByFiveBits := by
  refine ⟨rowDecodes_register 0b0000000 0b001 (by decide) ?_,
    registerResult_of_registerOp shiftLeft (fun _ _ _ _ => rfl) toNat_shiftLeft,
    rowDecodes_register 0b0100000 0b101 (by decide) ?_,
    registerResult_of_registerOp shiftRightArithmetic (fun _ _ _ _ => rfl) toInt_shiftRightArithmetic⟩ <;>
  · intro w h7 h3
    simp [decodeRegister, h7, h3]

/-- Settles O16: the comparison of the signed values, or of the values modulo 2^32, written as 1 or 0. -/
theorem setLessThan : Obligations.SetLessThan := by
  refine ⟨rowDecodes_register 0b0000000 0b010 (by decide) ?_,
    registerResult_of_registerOp (fun a b => boolWord (lessSigned a b)) (fun _ _ _ _ => rfl) toNat_boolWord_lessSigned,
    rowDecodes_register 0b0000000 0b011 (by decide) ?_,
    registerResult_of_registerOp (fun a b => boolWord (lessUnsigned32 a b)) (fun _ _ _ _ => rfl)
      toNat_boolWord_lessUnsigned32⟩ <;>
  · intro w h7 h3
    simp [decodeRegister, h7, h3]

end Sys2Proof.Machine
end

section
/-! The register-immediate instructions (41_alu_immediate.md): what a row of opcode 0x13 decodes to, and what the shared
operation says of an instruction. The operations as numbers are those of the register-register instructions (R140). -/

namespace Sys2Proof.Machine

/-! ## Forms of the statements -/

/-- A word of opcode 0x13 decodes to what the immediate family answers for it (30_encoding.md R92). -/
theorem decodeWord_of_decodeImmediate {w : InstWord} {i : Instr} (hop : opcodeOf w = 0b0010011)
    (hi : decodeImmediate w = some i) : decodeWord w = .instr i := by
  simp [decodeWord, decodeInstr, hop, hi]

/-- A row with a 12-bit immediate, which fixes funct3, decodes to what the immediate family answers for it. -/
theorem rowDecodes_immediate {pattern : InstWord} {mk : InstWord → Instr} (f3 : BitVec 3)
    (hpattern : encodeI 0 0 f3 0 0b0010011 = pattern)
    (hfamily : ∀ w, funct3Of w = f3 → decodeImmediate w = some (mk w)) : RowDecodes 0x0000707F pattern mk := by
  subst hpattern
  intro w hw
  have h3 : funct3Of w = f3 := (slice_of_masked w _ _ hw 12 3 (by decide)).trans (funct3Of_encodeI ..)
  have hop : opcodeOf w = 0b0010011 := (slice_of_masked w _ _ hw 0 7 (by decide)).trans (opcodeOf_encodeI ..)
  exact decodeWord_of_decodeImmediate hop (hfamily w h3)

/-- A row with a 6-bit shift amount, which fixes funct6 and funct3, decodes to what the immediate family answers for
them. -/
theorem rowDecodes_shift {pattern : InstWord} {mk : InstWord → Instr} (f6 : BitVec 6) (f3 : BitVec 3)
    (hpattern : encodeShift f6 0 0 f3 0 = pattern)
    (hfamily : ∀ w, funct6Of w = f6 → funct3Of w = f3 → decodeImmediate w = some (mk w)) :
    RowDecodes 0xFC00707F pattern mk := by
  subst hpattern
  intro w hw
  have h6 : funct6Of w = f6 := (slice_of_masked w _ _ hw 26 6 (by decide)).trans (funct6Of_encodeShift ..)
  have h3 : funct3Of w = f3 := (slice_of_masked w _ _ hw 12 3 (by decide)).trans (funct3Of_encodeShift ..)
  have hop : opcodeOf w = 0b0010011 := (slice_of_masked w _ _ hw 0 7 (by decide)).trans (opcodeOf_encodeShift ..)
  exact decodeWord_of_decodeImmediate hop (hfamily w h6 h3)

/-- An instruction that is a register-immediate operation has the results of that operation (R140). -/
theorem immediateResult_of_immediateOp {mk : Reg → Reg → Word → Instr} {result : Word → Word → Word → Prop}
    (f : Word → Word → Word) (hexec : ∀ rd rs1 imm s, exec (mk rd rs1 imm) s = immediateOp f rd rs1 imm s)
    (hresult : ∀ a b, result a b (f a b)) : ImmediateResult mk result := by
  intro s rd rs1 imm
  refine ⟨_, hresult _ _, ?_⟩
  rw [hexec]
  exact immediateOp_spec f rd rs1 imm s

/-! ## The instructions -/

/-- Settles O17: the four are register-immediate operations, with the 64-bit sum and the three bitwise operations. -/
theorem immediateArithmeticAndLogic : Obligations.ImmediateArithmeticAndLogic := by
  refine ⟨rowDecodes_immediate 0b000 (by decide) ?_,
    immediateResult_of_immediateOp (fun a b => a + b) (fun _ _ _ _ => rfl) BitVec.toNat_add,
    rowDecodes_immediate 0b111 (by decide) ?_,
    immediateResult_of_immediateOp (fun a b => a &&& b) (fun _ _ _ _ => rfl) (fun _ _ _ _ => BitVec.getLsbD_and),
    rowDecodes_immediate 0b110 (by decide) ?_,
    immediateResult_of_immediateOp (fun a b => a ||| b) (fun _ _ _ _ => rfl) (fun _ _ _ _ => BitVec.getLsbD_or),
    rowDecodes_immediate 0b100 (by decide) ?_,
    immediateResult_of_immediateOp (fun a b => a ^^^ b) (fun _ _ _ _ => rfl) (fun _ _ _ _ => BitVec.getLsbD_xor)⟩ <;>
  · intro w h3
    simp [decodeImmediate, h3]

/-- Settles O18: the amount is the immediate modulo 32, and the shifts multiply and divide by its power of two. -/
theorem slliAndSraiShiftByFiveBits : Obligations.SlliAndSraiShiftByFiveBits := by
  refine ⟨rowDecodes_shift 0b000000 0b001 (by decide) ?_,
    immediateResult_of_immediateOp shiftLeft (fun _ _ _ _ => rfl) toNat_shiftLeft,
    rowDecodes_shift 0b010000 0b101 (by decide) ?_,
    immediateResult_of_immediateOp shiftRightArithmetic (fun _ _ _ _ => rfl) toInt_shiftRightArithmetic⟩ <;>
  · intro w h6 h3
    simp [decodeImmediate, h6, h3]

end Sys2Proof.Machine
end

section
/-! The loads (42_loads.md): what a row of opcode 0x03 decodes to, the extended value of the bytes read, and what the
shared operation says of an instruction. -/

namespace Sys2Proof.Machine

/-! ## Decoding -/

/-- A word of a row that fixes funct3 and the opcode alone has the funct3 and the opcode of the row's pattern (R82). -/
theorem fields_of_masked_encodeI {w : InstWord} {f3 : BitVec 3} {op : BitVec 7}
    (hw : w &&& 0x0000707F = encodeI 0 0 f3 0 op) : funct3Of w = f3 ∧ opcodeOf w = op :=
  ⟨(slice_of_masked w _ _ hw 12 3 (by decide)).trans (funct3Of_encodeI ..),
    (slice_of_masked w _ _ hw 0 7 (by decide)).trans (opcodeOf_encodeI ..)⟩

/-- A row of opcode 0x03, which fixes funct3, decodes to what the load family answers for it (30_encoding.md R93). -/
theorem rowDecodes_load {pattern : InstWord} {mk : InstWord → Instr} (f3 : BitVec 3)
    (hpattern : encodeI 0 0 f3 0 0b0000011 = pattern)
    (hfamily : ∀ w, funct3Of w = f3 → decodeLoad w = some (mk w)) : RowDecodes 0x0000707F pattern mk := by
  intro w hw
  obtain ⟨h3, hop⟩ := fields_of_masked_encodeI (hw.trans hpattern.symm)
  simp [decodeWord, decodeInstr, hop, hfamily w h3]

/-! ## The value read -/

/-- Bit i of the n bytes read is bit `i % 8` of byte `i / 8` of the access (20_memory.md R51, R52). -/
theorem getLsbD_readLE (s : State) (a n i : Nat) (hi : i < 8 * n) :
    (BitVec.ofNat (8 * n) (Memory.readLE s.mem a n)).getLsbD i = (s.readByte (a + i / 8)).getLsbD (i % 8) := by
  rw [BitVec.getLsbD_ofNat, Memory.testBit_readLE _ _ _ _ hi, decide_eq_true hi, Bool.true_and, State.readByte]

/-- The top bit of the bytes read is bit 7 of the last byte. -/
theorem msb_readLE (s : State) (a n : Nat) (hn : 0 < n) :
    (BitVec.ofNat (8 * n) (Memory.readLE s.mem a n)).msb = (s.readByte (a + (n - 1))).getLsbD 7 := by
  have hbyte : (8 * n - 1) / 8 = n - 1 := by omega
  have hbit : (8 * n - 1) % 8 = 7 := by omega
  rw [BitVec.msb_eq_getLsbD_last, getLsbD_readLE _ _ _ _ (by omega), hbyte, hbit]

/-- Zero extension puts zeros above the bytes read (R168). -/
theorem extendedBytes_zeroExtended (n : Nat) (s : State) (a : Nat) :
    ExtendedBytes s a n false (zeroExtended (BitVec.ofNat (8 * n) (Memory.readLE s.mem a n))) := by
  intro i hi
  rw [zeroExtended, BitVec.getLsbD_setWidth, decide_eq_true hi, Bool.true_and]
  split
  next hlow => exact getLsbD_readLE s a n i hlow
  next hhigh => exact BitVec.getLsbD_of_ge _ _ (Nat.not_lt.1 hhigh)

/-- Sign extension copies the top bit of the last byte above the bytes read (R168). -/
theorem extendedBytes_signExtended {n : Nat} (hn : 0 < n) (s : State) (a : Nat) :
    ExtendedBytes s a n true (signExtended (BitVec.ofNat (8 * n) (Memory.readLE s.mem a n))) := by
  intro i hi
  rw [signExtended, BitVec.getLsbD_signExtend, decide_eq_true hi, Bool.true_and]
  split
  next hlow => exact getLsbD_readLE s a n i hlow
  next hhigh => exact msb_readLE s a n hn

/-! ## The shared operation -/

/-- The model's bounds check decides whether the access is in memory (20_memory.md R54). -/
theorem State.inBounds_iff_inMemory (s : State) (a : Word) (n : Nat) : s.inBounds a n = true ↔ InMemory s a n := by
  simp [State.inBounds, InMemory]

/-- An instruction that is a load operation has the results of that operation, where the extension gives the extended
value of the bytes read (R160). -/
theorem loadResult_of_loadOp {mk : Reg → Reg → Word → Instr} {n : Nat} {signed : Bool} (extend : BitVec (8 * n) → Word)
    (hexec : ∀ rd rs1 off s, exec (mk rd rs1 off) s = loadOp n extend rd rs1 off s)
    (hextend : ∀ s a, ExtendedBytes s a n signed (extend (BitVec.ofNat (8 * n) (Memory.readLE s.mem a n)))) :
    LoadResult mk n signed := by
  intro s rd rs1 off
  rw [hexec, ← State.inBounds_iff_inMemory]
  exact ⟨fun hin => ⟨_, hextend s _, loadOp_spec n extend rd rs1 off s hin⟩, loadOp_fault n extend rd rs1 off s⟩

/-! ## The instructions -/

/-- Settles O20: the three are load operations, with the sign extension of the bytes read. -/
theorem signedLoads : Obligations.SignedLoads := by
  refine ⟨rowDecodes_load 0b010 (by decide) ?_,
    loadResult_of_loadOp signExtended (fun _ _ _ _ => rfl) (extendedBytes_signExtended (by decide)),
    rowDecodes_load 0b001 (by decide) ?_,
    loadResult_of_loadOp signExtended (fun _ _ _ _ => rfl) (extendedBytes_signExtended (by decide)),
    rowDecodes_load 0b000 (by decide) ?_,
    loadResult_of_loadOp signExtended (fun _ _ _ _ => rfl) (extendedBytes_signExtended (by decide))⟩ <;>
  · intro w h3
    simp [decodeLoad, h3]

/-- Settles O21: the four are load operations, with the zero extension of the bytes read. -/
theorem unsignedLoads : Obligations.UnsignedLoads := by
  refine ⟨rowDecodes_load 0b011 (by decide) ?_,
    loadResult_of_loadOp zeroExtended (fun _ _ _ _ => rfl) (extendedBytes_zeroExtended 8),
    rowDecodes_load 0b110 (by decide) ?_,
    loadResult_of_loadOp zeroExtended (fun _ _ _ _ => rfl) (extendedBytes_zeroExtended 4),
    rowDecodes_load 0b101 (by decide) ?_,
    loadResult_of_loadOp zeroExtended (fun _ _ _ _ => rfl) (extendedBytes_zeroExtended 2),
    rowDecodes_load 0b100 (by decide) ?_,
    loadResult_of_loadOp zeroExtended (fun _ _ _ _ => rfl) (extendedBytes_zeroExtended 1)⟩ <;>
  · intro w h3
    simp [decodeLoad, h3]

end Sys2Proof.Machine
end

section
/-! The stores (43_stores.md): what a row of opcode 0x23 decodes to, and what the shared operation says of an
instruction. -/

namespace Sys2Proof.Machine

/-- A row of opcode 0x23, which fixes funct3, decodes to what the store family answers for it (30_encoding.md R94). -/
theorem rowDecodes_store {pattern : InstWord} {mk : InstWord → Instr} (f3 : BitVec 3)
    (hpattern : encodeS 0 0 0 f3 = pattern)
    (hfamily : ∀ w, funct3Of w = f3 → decodeStore w = some (mk w)) : RowDecodes 0x0000707F pattern mk := by
  subst hpattern
  intro w hw
  have h3 : funct3Of w = f3 := (slice_of_masked w _ _ hw 12 3 (by decide)).trans (funct3Of_encodeS ..)
  have hop : opcodeOf w = 0b0100011 := (slice_of_masked w _ _ hw 0 7 (by decide)).trans (opcodeOf_encodeS ..)
  simp [decodeWord, decodeInstr, hop, hfamily w h3]

/-- An instruction that is a store operation has the results of that operation (R180). -/
theorem storeResult_of_storeOp {mk : Reg → Reg → Word → Instr} (n : Nat)
    (hexec : ∀ rs2 rs1 off s, exec (mk rs2 rs1 off) s = storeOp n rs2 rs1 off s) : StoreResult mk n := by
  intro s rs2 rs1 off
  rw [hexec, ← State.inBounds_iff_inMemory]
  exact ⟨storeOp_spec n rs2 rs1 off s, storeOp_fault n rs2 rs1 off s⟩

/-- Settles O22: the four are store operations, of 8, 4, 2 and 1 bytes. -/
theorem storesWriteTheirBytes : Obligations.StoresWriteTheirBytes := by
  refine ⟨rowDecodes_store 0b011 (by decide) ?_, storeResult_of_storeOp 8 (fun _ _ _ _ => rfl),
    rowDecodes_store 0b010 (by decide) ?_, storeResult_of_storeOp 4 (fun _ _ _ _ => rfl),
    rowDecodes_store 0b001 (by decide) ?_, storeResult_of_storeOp 2 (fun _ _ _ _ => rfl),
    rowDecodes_store 0b000 (by decide) ?_, storeResult_of_storeOp 1 (fun _ _ _ _ => rfl)⟩ <;>
  · intro w h3
    simp [decodeStore, h3]

end Sys2Proof.Machine
end

section
/-! The conditional branches (44_branches.md): what a row of opcode 0x63 decodes to, what the shared operation says of an
instruction, and where a textual target leads. -/

namespace Sys2Proof.Machine

/-! ## Forms of the statements -/

/-- A row of opcode 0x63, which fixes funct3, decodes to what the branch family answers for it (30_encoding.md R95). A
pattern without operand bits is the same word in format I as in format B. -/
theorem rowDecodes_branch {pattern : InstWord} {mk : InstWord → Instr} (f3 : BitVec 3)
    (hpattern : encodeI 0 0 f3 0 0b1100011 = pattern)
    (hfamily : ∀ w, funct3Of w = f3 → decodeBranch w = some (mk w)) : RowDecodes 0x0000707F pattern mk := by
  intro w hw
  obtain ⟨h3, hop⟩ := fields_of_masked_encodeI (hw.trans hpattern.symm)
  simp [decodeWord, decodeInstr, hop, hfamily w h3]

/-- An instruction that is a branch operation has the results of that operation, where its test decides the condition
(R190). -/
theorem branchResult_of_branchOp {mk : Reg → Reg → Word → Instr} {cond : Word → Word → Prop} (test : Word → Word → Bool)
    (hexec : ∀ rs1 rs2 off s, exec (mk rs1 rs2 off) s = branchOp test rs1 rs2 off s)
    (htest : ∀ a b, test a b = true ↔ cond a b) : BranchResult mk cond := by
  intro s rs1 rs2 off
  have hspec := branchOp_spec test rs1 rs2 off s
  rw [hexec]
  constructor
  · intro hcond
    rwa [if_pos ((htest _ _).2 hcond)] at hspec
  · intro hcond
    rwa [if_neg (mt (htest _ _).1 hcond)] at hspec

/-! ## The conditions (R191 to R196) -/

theorem branchResult_beq : BranchResult .beq (fun a b => a.toNat = b.toNat) :=
  branchResult_of_branchOp (fun a b => decide (a = b)) (fun _ _ _ _ => rfl) fun a b => by
    rw [decide_eq_true_iff, BitVec.toNat_inj]

theorem branchResult_bne : BranchResult .bne (fun a b => a.toNat ≠ b.toNat) :=
  branchResult_of_branchOp (fun a b => !decide (a = b)) (fun _ _ _ _ => rfl) fun a b => by
    rw [Bool.not_eq_true', decide_eq_false_iff_not, ne_eq, BitVec.toNat_inj]

theorem branchResult_blt : BranchResult .blt (fun a b => a.toInt < b.toInt) :=
  branchResult_of_branchOp lessSigned (fun _ _ _ _ => rfl) fun a b => by simp [lessSigned]

theorem branchResult_bge : BranchResult .bge (fun a b => b.toInt ≤ a.toInt) :=
  branchResult_of_branchOp (fun a b => !lessSigned a b) (fun _ _ _ _ => rfl) fun a b => by simp [lessSigned]

theorem branchResult_bgeu : BranchResult .bgeu (fun a b => b.toNat ≤ a.toNat) :=
  branchResult_of_branchOp (fun a b => !lessUnsigned a b) (fun _ _ _ _ => rfl) fun a b => by simp [lessUnsigned]

theorem branchResult_bltu : BranchResult .bltu (fun a b => a.toNat < b.toNat) :=
  branchResult_of_branchOp lessUnsigned (fun _ _ _ _ => rfl) fun a b => by simp [lessUnsigned]

/-- A taken branch goes to `pc + off` and does nothing else, whichever of the six it is (R190). -/
theorem completes_of_branchTaken {s : State} {i : Instr} {rs1 rs2 : Reg} {off : Word}
    (hi : i ∈ [Instr.beq rs1 rs2 off, .bne rs1 rs2 off, .blt rs1 rs2 off, .bge rs1 rs2 off, .bgeu rs1 rs2 off,
      .bltu rs1 rs2 off]) (htaken : BranchTaken s i) :
    Completes (exec i s) (fun t => SetsOnlyPc s t (s.pc + off)) := by
  simp only [List.mem_cons, List.not_mem_nil, or_false] at hi
  rcases hi with rfl | rfl | rfl | rfl | rfl | rfl
  · exact (branchResult_beq s rs1 rs2 off).1 (congrArg BitVec.toNat htaken)
  · exact (branchResult_bne s rs1 rs2 off).1 (mt BitVec.eq_of_toNat_eq htaken)
  · exact (branchResult_blt s rs1 rs2 off).1 htaken
  · exact (branchResult_bge s rs1 rs2 off).1 htaken
  · exact (branchResult_bgeu s rs1 rs2 off).1 htaken
  · exact (branchResult_bltu s rs1 rs2 off).1 htaken

/-! ## Textual targets (30_encoding.md R107) -/

theorem resolveTarget_of_label {labels : LabelTable} {tok : Text} {k : Nat} (p : Word) (hlabel : labels.lookup tok = some k) :
    resolveTarget labels p tok = .ok (BitVec.ofNat 64 (4 * k) - p) := by
  simp [resolveTarget, hlabel]

theorem resolveTarget_of_literal {labels : LabelTable} {tok : Text} {n : Int} (p : Word) (hlabel : labels.lookup tok = none)
    (hliteral : parseLiteral tok = some n) : resolveTarget labels p tok = .ok (BitVec.ofInt 64 (4 * n)) := by
  simp [resolveTarget, hlabel, hliteral]

theorem resolveTarget_unresolved {labels : LabelTable} {tok : Text} (p : Word) (hlabel : labels.lookup tok = none)
    (hliteral : parseLiteral tok = none) : resolveTarget labels p tok = .error .target := by
  simp [resolveTarget, hlabel, hliteral]

/-! ## The instructions -/

/-- Settles O10: the offset of a label undoes the addition of p, and every taken branch adds its offset to pc. -/
theorem branchTargetLaw : Obligations.BranchTargetLaw := by
  intro labels p tok
  refine ⟨fun k hlabel => ⟨_, resolveTarget_of_label p hlabel, add_sub_cancel ..⟩,
    fun n hlabel hliteral => ⟨_, resolveTarget_of_literal p hlabel hliteral, rfl, ?_, ?_⟩,
    resolveTarget_unresolved p, ?_⟩
  · rintro rfl
    exact BitVec.add_zero p
  · rintro rfl
    rfl
  · intro s i rs1 rs2 off hi htaken
    obtain ⟨t, ht, hpc, -⟩ := completes_of_branchTaken hi htaken
    exact ⟨t, ht, hpc⟩

/-- Settles O25: both are branch operations, whose test is equality of the 64-bit words. -/
theorem equalityBranches : Obligations.EqualityBranches := by
  refine ⟨rowDecodes_branch 0b000 (by decide) ?_, branchResult_beq,
    rowDecodes_branch 0b001 (by decide) ?_, branchResult_bne⟩ <;>
  · intro w h3
    simp [decodeBranch, h3]

/-- Settles O26: both are branch operations, whose test is the signed comparison or its negation. -/
theorem signedBranches : Obligations.SignedBranches := by
  refine ⟨rowDecodes_branch 0b100 (by decide) ?_, branchResult_blt,
    rowDecodes_branch 0b101 (by decide) ?_, branchResult_bge⟩ <;>
  · intro w h3
    simp [decodeBranch, h3]

end Sys2Proof.Machine
end

section
/-! The jumps (45_jumps.md): what their two rows decode to, the link write followed by the jump, and the target with bit 0
cleared. -/

namespace Sys2Proof.Machine

/-! ## Decoding (30_encoding.md R96) -/

/-- The row of `jal` fixes the opcode alone. -/
theorem rowDecodes_jal : RowDecodes 0x0000007F 0x0000006F (fun w => .jal (rdOf w) (immJ w)) := by
  intro w hw
  have hop : opcodeOf w = 0b1101111 := slice_of_masked w _ _ hw 0 7 (by decide)
  simp [decodeWord, decodeInstr, hop]

/-- The row of `jalr` fixes funct3 and the opcode. -/
theorem rowDecodes_jalr : RowDecodes 0x0000707F 0x00000067 (fun w => .jalr (rdOf w) (rs1Of w) (immI w)) := by
  have hpattern : encodeI 0 0 0b000 0 0b1100111 = 0x00000067 := by decide
  intro w hw
  obtain ⟨h3, hop⟩ := fields_of_masked_encodeI (hw.trans hpattern.symm)
  simp [decodeWord, decodeInstr, hop, h3]

/-! ## The target of `jalr` -/

/-- Clearing bit 0 of the sum rounds it down to an even number (R212). -/
theorem State.toNat_jalrTarget (s : State) (rs1 : Reg) (off : Word) :
    (s.jalrTarget rs1 off).toNat = (s.readReg rs1 + off).toNat / 2 * 2 := by
  have hmask : ~~~(1 : Word) = BitVec.allOnes 64 <<< 1 := by decide
  have hlt := (s.readReg rs1 + off).isLt
  rw [State.jalrTarget, hmask, ← BitVec.shiftLeft_ushiftRight, BitVec.toNat_shiftLeft, BitVec.toNat_ushiftRight,
    Nat.shiftRight_eq_div_pow, Nat.shiftLeft_eq]
  omega

/-! ## The link write and the jump -/

/-- The whole effect of a jump that links in `rd`: a hard-wired register 0 reads 0, any other `rd` reads `pc + 4`, and pc
is the target (10_state.md R22; R211). -/
def LinksAndJumps (s t : State) (rd : Reg) (target : Word) : Prop :=
  t.readReg rd = (if s.cfg.x0Hardwired = true ∧ rd = 0 then 0 else s.pc + 4) ∧
    (∀ r : Reg, r ≠ rd → t.readReg r = s.readReg r) ∧ t.pc = target ∧ SameMemory s t ∧ SameControl s t

/-- Writing `pc + 4` to `rd` and then setting pc does just that. -/
theorem linksAndJumps_setPc (s : State) (rd : Reg) (target : Word) :
    LinksAndJumps s ((s.writeReg rd s.nextPc).setPc target) rd target := by
  refine ⟨?_, fun r hr => ?_, rfl, fun a => ?_, ?_⟩
  · rw [State.readReg_setPc, State.readReg_writeReg_same, State.nextPc]
  · rw [State.readReg_setPc, State.readReg_writeReg_other _ _ _ _ hr]
  · simp
  · simp [SameControl]

/-- `jal` always completes, and links whatever `rd` is. -/
theorem exec_jal_spec (s : State) (rd : Reg) (off : Word) :
    Completes (exec (.jal rd off) s) (fun t => LinksAndJumps s t rd (s.pc + off)) :=
  ⟨_, rfl, linksAndJumps_setPc s rd (s.pc + off)⟩

/-- `jalr` with `rd = 0` does not link: it only jumps. -/
theorem exec_jalr_zero_spec (s : State) (rs1 : Reg) (off : Word) :
    Completes (exec (.jalr 0 rs1 off) s) (fun t => SetsOnlyPc s t (s.jalrTarget rs1 off)) :=
  ⟨_, rfl, setsOnlyPc_setPc s _⟩

/-- `jalr` with another `rd` links and jumps; the base is read before the link write. -/
theorem exec_jalr_link_spec (s : State) {rd : Reg} (rs1 : Reg) (off : Word) (hrd : rd ≠ 0) :
    Completes (exec (.jalr rd rs1 off) s) (fun t => LinksAndJumps s t rd (s.jalrTarget rs1 off)) :=
  ⟨_, by rw [exec, execJalr, if_neg hrd], linksAndJumps_setPc s rd _⟩

/-! ## The instructions -/

/-- Settles O28: the row fixes the opcode, and the link write comes before the jump. -/
theorem jalLinksAndJumps : Obligations.JalLinksAndJumps := ⟨rowDecodes_jal, exec_jal_spec⟩

/-- Settles O29: with `rd = 0` only pc is set, with another `rd` it is linked too, and a register other than 0 is never
hard-wired. -/
theorem jalrLinksAndJumps : Obligations.JalrLinksAndJumps := by
  refine ⟨rowDecodes_jalr, fun s rd rs1 off => ?_⟩
  by_cases hrd : rd = 0
  · subst hrd
    obtain ⟨t, ht, hpc, hregs, hmem, hcontrol⟩ := exec_jalr_zero_spec s rs1 off
    exact ⟨t, ht, by rw [hpc, State.toNat_jalrTarget], fun _ => hregs, fun h => absurd rfl h, hmem, hcontrol⟩
  · obtain ⟨t, ht, hlink, hother, hpc, hmem, hcontrol⟩ := exec_jalr_link_spec s rs1 off hrd
    rw [if_neg fun h => hrd h.2] at hlink
    exact ⟨t, ht, by rw [hpc, State.toNat_jalrTarget], fun h => absurd h hrd, fun _ => ⟨hlink, hother⟩, hmem, hcontrol⟩

end Sys2Proof.Machine
end

section
/-! Malformed elements (46_lui_and_unknown.md R224): the fault of the cause, and the precise fault's frame
(60_exceptions.md R266). -/

namespace Sys2Proof.Machine

/-- A step over a malformed element raises the fault of its cause; no policy is consulted. -/
theorem step_of_malformed {s : State} {src : Source} {cause : MalformedCause} {raw : Text} (hf : s.fetch = .element src)
    (hd : decodeSource s.labels s.pc src = .malformed cause raw) : step s = .fault (malformedFault cause raw) := by
  rw [step_of_element hf, execSource, hd, execDecoded, execMalformed]

/-- Taking a fault changes nothing but the latch (R266). -/
theorem setsOnlyPc_takeFault (s : State) (f : Fault) :
    SetsOnlyPc { s with flt := (s.takeFault f).flt } (s.takeFault f) s.pc := by
  rw [State.takeFault_eq]
  exact ⟨rfl, fun _ => rfl, fun _ => rfl, rfl, rfl, rfl, rfl, rfl⟩

/-- So a `step` command that meets a fault changes nothing but the latch. -/
theorem stepCommand_setsOnlyPc_of_step_fault {s : State} {f : Fault} (h : step s = .fault f) :
    SetsOnlyPc { s with flt := (stepCommand s).state.flt } (stepCommand s).state s.pc := by
  rw [(stepCommand_of_step_fault h).1]
  exact setsOnlyPc_takeFault s f

/-- What is malformed is a text line, so no word is (30_encoding.md R97). -/
theorem decodeWord_ne_malformed (w : InstWord) (cause : MalformedCause) (raw : Text) :
    decodeWord w ≠ .malformed cause raw := by
  intro h
  have hsrc : Source.word w = .text raw := (decodeSource_raw [] 0 (.word w)).2 cause raw h
  cases hsrc

/-- Settles O32: each cause has its fault, the `step` command takes it as any other, and a malformed element is a text
line. -/
theorem malformedAlwaysFaults : Obligations.MalformedAlwaysFaults :=
  ⟨fun _ _ _ hf => ⟨step_of_malformed hf, step_of_malformed hf, step_of_malformed hf,
    fun _ hd => stepCommand_setsOnlyPc_of_step_fault (step_of_malformed hf hd)⟩, decodeWord_ne_malformed⟩

end Sys2Proof.Machine
end

section
/-! `load` and `del break` of the debug controller (48_debug_controller.md): the state a successful load leaves, and the
two answers of `del break`. -/

namespace Sys2Proof.Machine

/-! ## A successful load (R233) -/

/-- After a load every register reads 0, whether register 0 is hard-wired or not (10_state.md R39). -/
@[simp] theorem State.readReg_loaded (s : State) (prog : List Source) (labels : LabelTable) (image : List Byte) (r : Reg) :
    (s.loaded prog labels image).readReg r = 0 := by
  simp [State.readReg, State.loaded]

/-- After a load the image stands at `DATA_BASE` and every other byte reads 0 (20_memory.md R61). -/
theorem State.readByte_loaded (s : State) (prog : List Source) (labels : LabelTable) (image : List Byte) (a : Nat) :
    (s.loaded prog labels image).readByte a =
      if s.cfg.dataBase ≤ a ∧ a < s.cfg.dataBase + image.length then image.getD (a - s.cfg.dataBase) 0 else 0 :=
  Memory.read_writeImage [] s.cfg.dataBase a image rfl

/-- A checked load that answers `Loaded` leaves the loaded state. -/
theorem State.tryLoad_state_of_loaded {s : State} {prog : List Source} {labels : LabelTable} {image : List Byte}
    (h : (s.tryLoad prog labels image).response = .loaded) :
    (s.tryLoad prog labels image).state = s.loaded prog labels image := by
  unfold State.tryLoad at h ⊢
  cases hchecks : loadError s.cfg labels image with
  | some e =>
    rw [hchecks] at h
    cases h
  | none => rfl

/-- A request of words or of lines is a checked load of its sources. -/
theorem loadCommand_eq_tryLoad {request : LoadRequest} {prog : List Source} {labels : LabelTable} {image : List Byte}
    (hform : (∃ ws : List InstWord, request = .words ws image ∧ prog = ws.map Source.word ∧ labels = []) ∨
      (∃ ls : List Text, request = .lines ls labels image ∧ prog = ls.map Source.text)) (s : State) :
    loadCommand request s = s.tryLoad prog labels image := by
  rcases hform with ⟨ws, rfl, rfl, rfl⟩ | ⟨ls, rfl, rfl⟩
  · rfl
  · rfl

/-- Settles O44: the state of a successful load is the loaded state, and its components are the new ones or 0. -/
theorem successfulLoadResetsEverything : Obligations.SuccessfulLoadResetsEverything := by
  rintro s request prog labels image reply hform rfl hloaded
  rw [loadCommand_eq_tryLoad hform] at hloaded ⊢
  rw [State.tryLoad_state_of_loaded hloaded]
  exact ⟨s.readReg_loaded prog labels image, rfl, s.readByte_loaded prog labels image, rfl, rfl, rfl, rfl, rfl, rfl⟩

/-! ## `del break` (R244) -/

/-- `del break` of a line that has a breakpoint filters it out of the set. -/
theorem delBreakCommand_of_mem {s : State} {line : Int} (hline : 1 ≤ line) (hset : breakpointOfLine line ∈ s.breakpoints) :
    delBreakCommand line s =
      ⟨{ s with breakpoints := s.breakpoints.filter (fun b => b != breakpointOfLine line) }, .breakCleared, []⟩ :=
  if_pos ⟨hline, hset⟩

/-- `del break` of any other line changes nothing. -/
theorem delBreakCommand_of_not_mem {s : State} {line : Int}
    (h : line < 1 ∨ breakpointOfLine line ∉ s.breakpoints) : delBreakCommand line s = ⟨s, .noBreakpointSet, []⟩ := by
  refine if_neg ?_
  rintro ⟨hline, hset⟩
  rcases h with hbelow | hunset
  · omega
  · exact hunset hset

/-- Settles O49: a breakpoint is left in the set exactly if it is another one than the line's. -/
theorem delBreakCommand_spec : Obligations.DelBreakCommand := by
  intro s line
  refine ⟨fun hline hset => ⟨_, delBreakCommand_of_mem hline hset, fun b => ?_⟩, delBreakCommand_of_not_mem⟩
  rw [List.mem_filter, bne_iff_ne, and_comm, breakpointOfLine]

end Sys2Proof.Machine
end

section
/-! The one fault of an instruction (60_exceptions.md R261): exactly which loads and stores raise it, and that no other
instruction does. -/

namespace Sys2Proof.Machine

/-! ## The shared operations -/

/-- A load faults exactly if its access is not wholly inside memory. -/
theorem loadOp_fault_iff {n : Nat} {extend : BitVec (8 * n) → Word} {rd rs1 : Reg} {off : Word} {s : State} {f : Fault} :
    loadOp n extend rd rs1 off s = .fault f ↔
      ¬InMemory s (s.readReg rs1 + off) n ∧ f = .memoryBounds (s.readReg rs1 + off) n := by
  rw [← State.inBounds_iff_inMemory]
  by_cases hb : s.inBounds (s.readReg rs1 + off) n = true
  · obtain ⟨t, ht, -⟩ := loadOp_spec n extend rd rs1 off s hb
    simp [ht, hb]
  · simp [loadOp_fault n extend rd rs1 off s hb, hb, eq_comm]

/-- So does a store. -/
theorem storeOp_fault_iff {n : Nat} {rs2 rs1 : Reg} {off : Word} {s : State} {f : Fault} :
    storeOp n rs2 rs1 off s = .fault f ↔
      ¬InMemory s (s.readReg rs1 + off) n ∧ f = .memoryBounds (s.readReg rs1 + off) n := by
  rw [← State.inBounds_iff_inMemory]
  by_cases hb : s.inBounds (s.readReg rs1 + off) n = true
  · simp [storeOp_next n rs2 rs1 off s hb, hb]
  · simp [storeOp_fault n rs2 rs1 off s hb, hb, eq_comm]

/-! ## The instructions -/

/-- An instruction faults exactly if it has an access that is not wholly inside memory, and then with that access. -/
theorem exec_fault_iff (s : State) (i : Instr) (f : Fault) : exec i s = .fault f ↔
    ∃ (ea : Word) (n : Nat), accessOf s i = some (ea, n) ∧ ¬InMemory s ea n ∧ f = .memoryBounds ea n := by
  cases i
  case ld | lw | lh | lb | lwu | lhu | lbu =>
    refine loadOp_fault_iff.trans ?_
    simp [accessOf]
  case sd | sw | sh | sb =>
    refine storeOp_fault_iff.trans ?_
    simp [accessOf]
  all_goals exact iff_of_false nofun nofun

/-- The instructions with an access are the loads and the stores (42_loads.md R160; 43_stores.md R180). -/
theorem exists_accessOf_iff (s : State) (i : Instr) :
    (∃ a : Word × Nat, accessOf s i = some a) ↔ familyOf i = .load ∨ familyOf i = .store := by
  cases i
  case ld | lw | lh | lb | lwu | lhu | lbu => exact iff_of_true ⟨_, rfl⟩ (.inl rfl)
  case sd | sw | sh | sb => exact iff_of_true ⟨_, rfl⟩ (.inr rfl)
  all_goals exact iff_of_false nofun nofun

/-- Settles O41: each load and store faults as its shared operation does, no other instruction faults or is refused, and
the `step` command that takes a fault changes nothing but the latch. -/
theorem onlyBoundsFaults : Obligations.OnlyBoundsFaults := by
  refine ⟨exec_fault_iff, exists_accessOf_iff, fun s ea n hfault => ?_, fun s i r => exec_not_refused i s r⟩
  obtain ⟨-, hregs, hmem, -⟩ := stepCommand_setsOnlyPc_of_step_fault hfault
  exact ⟨hregs, hmem⟩

end Sys2Proof.Machine
end

section
/-! What the register and immediate families, the branches and the jumps have left: `srl` and `srli`, the unsigned
branches, `lui`, and the two forms of an operation side by side (R140). -/

namespace Sys2Proof.Machine

/-! ## The operations as numbers -/

/-- A logical right shift divides the value modulo 2^32 (R127). -/
theorem toNat_shiftRightLogical32 (a b : Word) :
    (shiftRightLogical32 a b).toNat = a.toNat % 2 ^ 32 / 2 ^ (b.toNat % 32) := by
  have hlt : (low32 a >>> shiftAmount b).toNat < 2 ^ 64 := Nat.lt_of_lt_of_le (BitVec.isLt _) (by decide)
  rw [shiftRightLogical32, BitVec.toNat_setWidth, Nat.mod_eq_of_lt hlt, BitVec.toNat_ushiftRight, toNat_low32,
    shiftAmount_eq_mod, Nat.shiftRight_eq_div_pow]

/-- `lui` multiplies by 2^12 modulo 2^64 (R220). -/
theorem toNat_upperImmediate (imm : Word) : (upperImmediate imm).toNat = imm.toNat * 2 ^ 12 % 2 ^ 64 := by
  rw [upperImmediate, BitVec.toNat_shiftLeft, Nat.shiftLeft_eq]

/-- The U-immediate is the word without its low 12 bits (R88). -/
theorem toNat_immU (w : InstWord) : (immU w).toNat = w.toNat / 2 ^ 12 := by
  have hlt := w.isLt
  rw [immU, BitVec.toNat_setWidth, BitVec.extractLsb'_toNat, Nat.shiftRight_eq_div_pow]
  omega

/-! ## The instructions -/

/-- Settles O15: both forms shift the value modulo 2^32 by the second operand modulo 32. -/
theorem srlTruncatesTo32Bits : Obligations.SrlTruncatesTo32Bits := by
  refine ⟨rowDecodes_register 0b0000000 0b101 (by decide) fun w h7 h3 => ?_,
    registerResult_of_registerOp shiftRightLogical32 (fun _ _ _ _ => rfl) toNat_shiftRightLogical32,
    rowDecodes_shift 0b000000 0b101 (by decide) fun w h6 h3 => ?_,
    immediateResult_of_immediateOp shiftRightLogical32 (fun _ _ _ _ => rfl) toNat_shiftRightLogical32⟩
  · simp [decodeRegister, h7, h3]
  · simp [decodeImmediate, h6, h3]

/-- Settles O19: both forms read their operands and then apply the same function, so with the second source's value as
immediate they compute the same state. -/
theorem immediateFormsMatchRegisterForms : Obligations.ImmediateFormsMatchRegisterForms :=
  fun _ _ _ _ => ⟨rfl, rfl, rfl, rfl, rfl, rfl, rfl⟩

/-- Settles O27: both are branch operations, whose test is the unsigned comparison or its negation. -/
theorem unsignedBranches : Obligations.UnsignedBranches := by
  refine ⟨rowDecodes_branch 0b111 (by decide) ?_, branchResult_bgeu,
    rowDecodes_branch 0b110 (by decide) ?_, branchResult_bltu⟩ <;>
  · intro w h3
    simp [decodeBranch, h3]

/-- The row of `lui` fixes the opcode alone. -/
theorem rowDecodes_lui : RowDecodes 0x0000007F 0x00000037 (fun w => .lui (rdOf w) (immU w)) := by
  intro w hw
  have hop : opcodeOf w = 0b0110111 := slice_of_masked w _ _ hw 0 7 (by decide)
  simp [decodeWord, decodeInstr, hop]

/-- Settles O30: an immediate below 2^20 keeps all its bits when shifted by 12. -/
theorem luiShiftsWithoutSignExtension : Obligations.LuiShiftsWithoutSignExtension := by
  refine ⟨rowDecodes_lui, toNat_immU, fun s rd imm => ⟨upperImmediate imm, toNat_upperImmediate imm, fun hfits => ?_,
    _, rfl, writesOnly_advance s rd _⟩⟩
  rw [toNat_upperImmediate]
  omega

end Sys2Proof.Machine
end

section
/-! The correspondence of words and instructions (30_encoding.md R97, R101): the decoder family by family, and the two
round trips. -/

namespace Sys2Proof.Machine

/-! ## Decode of encode -/

/-- The word of a well-formed instruction decodes to it: the fields of its format give back opcode, funct3, funct7 or
funct6 and the registers, and the immediate survives because it fits. -/
theorem decodeInstr_encode {i : Instr} (h : i.wellFormed = true) : decodeInstr (encode i) = some i := by
  cases i
  case add | sub | and | or | xor | sll | srl | sra | slt | sltu => simp [encode, decodeInstr, decodeRegister]
  case addi | andi | ori | xori => simp [encode, decodeInstr, decodeImmediate, immI_encodeI _ _ _ _ _ h]
  case slli | srli | srai => simp [encode, decodeInstr, decodeImmediate, immShift_encodeShift _ _ _ _ _ h]
  case ld | lw | lh | lb | lwu | lhu | lbu => simp [encode, decodeInstr, decodeLoad, immI_encodeI _ _ _ _ _ h]
  case sd | sw | sh | sb => simp [encode, decodeInstr, decodeStore, immS_encodeS _ _ _ _ h]
  case beq | bne | blt | bge | bgeu | bltu =>
    obtain ⟨hfits, heven⟩ := Bool.and_eq_true_iff.1 h
    simp [encode, decodeInstr, decodeBranch, immB_encodeB _ _ _ _ hfits heven]
  case jal =>
    obtain ⟨hfits, heven⟩ := Bool.and_eq_true_iff.1 h
    simp [encode, decodeInstr, immJ_encodeJ _ _ hfits heven]
  case jalr => simp [encode, decodeInstr, immI_encodeI _ _ _ _ _ h]
  case lui => simp [encode, decodeInstr, immU_encodeU _ _ h]

/-- A word decodes to an instruction exactly if `decodeInstr` answers it. -/
theorem decodeWord_eq_instr_iff {w : InstWord} {i : Instr} : decodeWord w = .instr i ↔ decodeInstr w = some i := by
  unfold decodeWord
  cases decodeInstr w <;> simp

/-- Settles O2: the decoder reads back each field the encoder writes. -/
theorem decodeOfEncodeIsIdentity : Obligations.DecodeOfEncodeIsIdentity :=
  fun _ h => decodeWord_eq_instr_iff.2 (decodeInstr_encode h)

/-! ## Encode of decode -/

/-- The word is that of the instruction, whose fields fit: what each family of the decoder answers (R97). -/
def IsWordOf (w : InstWord) (i : Instr) : Prop := encode i = w ∧ i.wellFormed = true

theorem fitsSigned_immI (w : InstWord) : fitsSigned 11 (immI w) = true := fitsSigned_signExtend 11 (by decide) _

theorem fitsSigned_immS (w : InstWord) : fitsSigned 11 (immS w) = true := fitsSigned_signExtend 11 (by decide) _

theorem fitsSigned_isEven_immB (w : InstWord) : (fitsSigned 12 (immB w) && isEven (immB w)) = true :=
  Bool.and_eq_true_iff.2 ⟨fitsSigned_signExtend 12 (by decide) _, isEven_immB w⟩

theorem fitsSigned_isEven_immJ (w : InstWord) : (fitsSigned 20 (immJ w) && isEven (immJ w)) = true :=
  Bool.and_eq_true_iff.2 ⟨fitsSigned_signExtend 20 (by decide) _, isEven_immJ w⟩

theorem fitsUnsigned_immU (w : InstWord) : fitsUnsigned 20 (immU w) = true := fitsUnsigned_setWidth 20 (by decide) _

theorem fitsUnsigned_immShift (w : InstWord) : fitsUnsigned 6 (immShift w) = true := fitsUnsigned_setWidth 6 (by decide) _

/-- Every branch of the register family is an R-encoding of the word's own fields. -/
theorem isWordOf_of_decodeRegister {w : InstWord} {i : Instr} (hop : opcodeOf w = 0b0110011)
    (h : decodeRegister w = some i) : IsWordOf w i := by
  unfold decodeRegister at h
  split_ifs at h
  all_goals
    obtain rfl := Option.some.inj h
    obtain ⟨h7, h3⟩ := ‹_ ∧ _›
    exact ⟨encodeR_of_fields w _ _ _ h7 h3 hop, rfl⟩

/-- Every branch of the immediate family is an I-encoding, or an I-shift encoding, of the word's own fields. -/
theorem isWordOf_of_decodeImmediate {w : InstWord} {i : Instr} (hop : opcodeOf w = 0b0010011)
    (h : decodeImmediate w = some i) : IsWordOf w i := by
  unfold decodeImmediate at h
  split_ifs at h with haddi handi hori hxori hslli hsrli hsrai <;> obtain rfl := Option.some.inj h
  · exact ⟨encodeI_of_fields w _ _ haddi hop, fitsSigned_immI w⟩
  · exact ⟨encodeI_of_fields w _ _ handi hop, fitsSigned_immI w⟩
  · exact ⟨encodeI_of_fields w _ _ hori hop, fitsSigned_immI w⟩
  · exact ⟨encodeI_of_fields w _ _ hxori hop, fitsSigned_immI w⟩
  · exact ⟨encodeShift_of_fields w _ _ hslli.1 hslli.2 hop, fitsUnsigned_immShift w⟩
  · exact ⟨encodeShift_of_fields w _ _ hsrli.1 hsrli.2 hop, fitsUnsigned_immShift w⟩
  · exact ⟨encodeShift_of_fields w _ _ hsrai.1 hsrai.2 hop, fitsUnsigned_immShift w⟩

/-- Every branch of the load family is an I-encoding of the word's own fields. -/
theorem isWordOf_of_decodeLoad {w : InstWord} {i : Instr} (hop : opcodeOf w = 0b0000011)
    (h : decodeLoad w = some i) : IsWordOf w i := by
  unfold decodeLoad at h
  split_ifs at h
  all_goals
    obtain rfl := Option.some.inj h
    exact ⟨encodeI_of_fields w _ _ ‹_› hop, fitsSigned_immI w⟩

/-- Every branch of the store family is an S-encoding of the word's own fields. -/
theorem isWordOf_of_decodeStore {w : InstWord} {i : Instr} (hop : opcodeOf w = 0b0100011)
    (h : decodeStore w = some i) : IsWordOf w i := by
  unfold decodeStore at h
  split_ifs at h
  all_goals
    obtain rfl := Option.some.inj h
    exact ⟨encodeS_of_fields w _ ‹_› hop, fitsSigned_immS w⟩

/-- Every branch of the branch family is a B-encoding of the word's own fields. -/
theorem isWordOf_of_decodeBranch {w : InstWord} {i : Instr} (hop : opcodeOf w = 0b1100011)
    (h : decodeBranch w = some i) : IsWordOf w i := by
  unfold decodeBranch at h
  split_ifs at h
  all_goals
    obtain rfl := Option.some.inj h
    exact ⟨encodeB_of_fields w _ ‹_› hop, fitsSigned_isEven_immB w⟩

/-- A word is the word of what it decodes to: by its opcode, family by family. -/
theorem isWordOf_of_decodeInstr {w : InstWord} {i : Instr} (h : decodeInstr w = some i) : IsWordOf w i := by
  unfold decodeInstr at h
  split_ifs at h with hreg himm hload hstore hbranch hjal hjalr hlui
  · exact isWordOf_of_decodeRegister hreg h
  · exact isWordOf_of_decodeImmediate himm h
  · exact isWordOf_of_decodeLoad hload h
  · exact isWordOf_of_decodeStore hstore h
  · exact isWordOf_of_decodeBranch hbranch h
  · obtain rfl := Option.some.inj h
    exact ⟨encodeJ_of_fields w hjal, fitsSigned_isEven_immJ w⟩
  · obtain rfl := Option.some.inj h
    obtain ⟨hop, h3⟩ := hjalr
    exact ⟨encodeI_of_fields w _ _ h3 hop, fitsSigned_immI w⟩
  · obtain rfl := Option.some.inj h
    exact ⟨encodeU_of_fields w hlui, fitsUnsigned_immU w⟩

/-- Settles O3: a decoded instruction holds every field of its word. -/
theorem encodeOfDecodeIsIdentity : Obligations.EncodeOfDecodeIsIdentity :=
  fun _ _ h => isWordOf_of_decodeInstr (decodeWord_eq_instr_iff.1 h)

/-! ## The reduction of shift immediates (R101) -/

/-- An instruction that has a word decodes from it, up to the reduction: the encoder reduces by itself. -/
theorem decodeWord_encode_of_hasWord {i : Instr} (h : i.hasWord = true) : decodeWord (encode i) = .instr i.reduced := by
  rw [← encode_reduced]
  exact decodeOfEncodeIsIdentity i.reduced h

/-- Where the fields fit as they stand, the reduction has nothing to do. -/
theorem reduced_of_wellFormed {i : Instr} (h : i.wellFormed = true) : i.reduced = i := by
  cases i
  case slli | srli | srai => simp only [Instr.reduced, and63_of_fitsUnsigned _ h]
  all_goals rfl

/-- An instruction has a word exactly if some word decodes to it, up to the reduction. -/
theorem hasWord_iff (i : Instr) : i.hasWord = true ↔ ∃ w : InstWord, decodeWord w = .instr i.reduced := by
  constructor
  · intro h
    exact ⟨encode i, decodeWord_encode_of_hasWord h⟩
  · rintro ⟨w, hw⟩
    exact (encodeOfDecodeIsIdentity w i.reduced hw).2

/-- A mask that covers the low 5 bits of a shift immediate changes nothing of what the shift does (41_alu_immediate.md
R145). -/
theorem exec_shift_and {mk : Reg → Reg → Word → Instr} (hmk : mk ∈ [Instr.slli, .srli, .srai]) (rd rs1 : Reg)
    (imm mask : Word) (hmask : mask.extractLsb' 0 5 = BitVec.allOnes 5) (s : State) :
    exec (mk rd rs1 (imm &&& mask)) s = exec (mk rd rs1 imm) s := by
  have hamount := shiftAmount_and imm mask hmask
  simp only [List.mem_cons, List.not_mem_nil, or_false] at hmk
  rcases hmk with rfl | rfl | rfl
  · simp only [exec, execSlli, immediateOp, shiftLeft, hamount]
  · simp only [exec, execSrli, immediateOp, shiftRightLogical32, hamount]
  · simp only [exec, execSrai, immediateOp, shiftRightArithmetic, hamount]

/-- The reduction to 6 bits keeps the low 5 bits, which are all a shift looks at. -/
theorem exec_reduced (i : Instr) (s : State) : exec i.reduced s = exec i s := by
  cases i
  case slli | srli | srai => exact exec_shift_and (by simp) _ _ _ 63 (by decide) s
  all_goals rfl

/-- Every shift has a word, that of its reduced form. -/
theorem shift_hasWord {mk : Reg → Reg → Word → Instr} (hmk : mk ∈ [Instr.slli, .srli, .srai]) (rd rs1 : Reg) (imm : Word) :
    (mk rd rs1 imm).hasWord = true ∧ (mk rd rs1 imm).reduced = mk rd rs1 (imm &&& 63) := by
  simp only [List.mem_cons, List.not_mem_nil, or_false] at hmk
  rcases hmk with rfl | rfl | rfl <;> exact ⟨fitsUnsigned_and63 imm, rfl⟩

/-- Settles O4: the two round trips for the reduced instruction, and the shifts, which look at 5 bits alone. -/
theorem binaryFormUpToShiftReduction : Obligations.BinaryFormUpToShiftReduction := by
  refine ⟨hasWord_iff, fun i => decodeWord_encode_of_hasWord, fun i h => ?_, fun rd rs1 imm mk hmk => ?_, exec_reduced⟩
  · have hreduced := reduced_of_wellFormed h
    exact ⟨by rwa [Instr.hasWord, hreduced], hreduced⟩
  · obtain ⟨hword, hreduced⟩ := shift_hasWord hmk rd rs1 imm
    exact ⟨hword, hreduced, exec_shift_and hmk rd rs1 imm 31 (by decide)⟩

end Sys2Proof.Machine
end

section
/-! The opcode table (30_encoding.md R90 to R98): the decoder answers an instruction of the row that covers the word, and
the rows do not overlap. -/

namespace Sys2Proof.Machine

/-- Every word of the row decodes to an instruction with the row's mnemonic (R97). -/
def DecodesItsRow (r : OpcodeRow) : Prop :=
  ∀ w : InstWord, r.covers w = true → ∃ i : Instr, decodeWord w = .instr i ∧ i.mnemonic = r.mnemonic

theorem RowDecodes.decodesItsRow {name : String} {mask pattern : InstWord} {mk : InstWord → Instr}
    (hrow : RowDecodes mask pattern mk) (hname : ∀ w, (mk w).mnemonic = name) : DecodesItsRow ⟨name, mask, pattern⟩ :=
  fun w hcovers => ⟨mk w, hrow w (beq_iff_eq.1 hcovers), hname w⟩

/-! ## The rows, family by family (R91 to R96) -/

theorem decodesItsRow_rowsRegister : ∀ r ∈ rowsRegister, DecodesItsRow r := by
  obtain ⟨hadd, -, hsub, -⟩ := addAndSubWrap
  obtain ⟨hand, -, hor, -, hxor, -⟩ := logicIsBitwise
  obtain ⟨hsll, -, hsra, -⟩ := sllAndSraShiftByFiveBits
  obtain ⟨hsrl, -⟩ := srlTruncatesTo32Bits
  obtain ⟨hslt, -, hsltu, -⟩ := setLessThan
  simp only [rowsRegister, List.forall_mem_cons]
  refine ⟨hadd.decodesItsRow ?_, hsub.decodesItsRow ?_, hand.decodesItsRow ?_, hor.decodesItsRow ?_,
    hxor.decodesItsRow ?_, hsll.decodesItsRow ?_, hsrl.decodesItsRow ?_, hsra.decodesItsRow ?_, hslt.decodesItsRow ?_,
    hsltu.decodesItsRow ?_, List.forall_mem_nil _⟩ <;>
  exact fun _ => rfl

theorem decodesItsRow_rowsImmediate : ∀ r ∈ rowsImmediate, DecodesItsRow r := by
  obtain ⟨haddi, -, handi, -, hori, -, hxori, -⟩ := immediateArithmeticAndLogic
  obtain ⟨hslli, -, hsrai, -⟩ := slliAndSraiShiftByFiveBits
  obtain ⟨-, -, hsrli, -⟩ := srlTruncatesTo32Bits
  simp only [rowsImmediate, List.forall_mem_cons]
  refine ⟨haddi.decodesItsRow ?_, handi.decodesItsRow ?_, hori.decodesItsRow ?_, hxori.decodesItsRow ?_,
    hslli.decodesItsRow ?_, hsrli.decodesItsRow ?_, hsrai.decodesItsRow ?_, List.forall_mem_nil _⟩ <;>
  exact fun _ => rfl

theorem decodesItsRow_rowsLoad : ∀ r ∈ rowsLoad, DecodesItsRow r := by
  obtain ⟨hlw, -, hlh, -, hlb, -⟩ := signedLoads
  obtain ⟨hld, -, hlwu, -, hlhu, -, hlbu, -⟩ := unsignedLoads
  simp only [rowsLoad, List.forall_mem_cons]
  refine ⟨hld.decodesItsRow ?_, hlw.decodesItsRow ?_, hlh.decodesItsRow ?_, hlb.decodesItsRow ?_,
    hlwu.decodesItsRow ?_, hlhu.decodesItsRow ?_, hlbu.decodesItsRow ?_, List.forall_mem_nil _⟩ <;>
  exact fun _ => rfl

theorem decodesItsRow_rowsStore : ∀ r ∈ rowsStore, DecodesItsRow r := by
  obtain ⟨hsd, -, hsw, -, hsh, -, hsb, -⟩ := storesWriteTheirBytes
  simp only [rowsStore, List.forall_mem_cons]
  refine ⟨hsd.decodesItsRow ?_, hsw.decodesItsRow ?_, hsh.decodesItsRow ?_, hsb.decodesItsRow ?_,
    List.forall_mem_nil _⟩ <;>
  exact fun _ => rfl

theorem decodesItsRow_rowsBranch : ∀ r ∈ rowsBranch, DecodesItsRow r := by
  obtain ⟨hbeq, -, hbne, -⟩ := equalityBranches
  obtain ⟨hblt, -, hbge, -⟩ := signedBranches
  obtain ⟨hbgeu, -, hbltu, -⟩ := unsignedBranches
  simp only [rowsBranch, List.forall_mem_cons]
  refine ⟨hbeq.decodesItsRow ?_, hbne.decodesItsRow ?_, hblt.decodesItsRow ?_, hbge.decodesItsRow ?_,
    hbgeu.decodesItsRow ?_, hbltu.decodesItsRow ?_, List.forall_mem_nil _⟩ <;>
  exact fun _ => rfl

theorem decodesItsRow_rowsJump : ∀ r ∈ rowsJump, DecodesItsRow r := by
  simp only [rowsJump, List.forall_mem_cons]
  refine ⟨rowDecodes_jal.decodesItsRow ?_, rowDecodes_jalr.decodesItsRow ?_, rowDecodes_lui.decodesItsRow ?_,
    List.forall_mem_nil _⟩ <;>
  exact fun _ => rfl

theorem decodesItsRow_of_mem {r : OpcodeRow} (hr : r ∈ opcodeTable) : DecodesItsRow r := by
  simp only [opcodeTable, List.mem_append] at hr
  rcases hr with ((((hr | hr) | hr) | hr) | hr) | hr
  · exact decodesItsRow_rowsRegister r hr
  · exact decodesItsRow_rowsImmediate r hr
  · exact decodesItsRow_rowsLoad r hr
  · exact decodesItsRow_rowsStore r hr
  · exact decodesItsRow_rowsBranch r hr
  · exact decodesItsRow_rowsJump r hr

/-! ## Words that no row covers (R98) -/

/-- The encoded word of every instruction is in a row (R91 to R96). -/
theorem encodesItsRow (i : Instr) : Laws.EncodesItsRow.Statement i := by
  cases i
  exacts [Laws.EncodesItsRow.add .., Laws.EncodesItsRow.sub .., Laws.EncodesItsRow.and .., Laws.EncodesItsRow.or ..,
    Laws.EncodesItsRow.xor .., Laws.EncodesItsRow.sll .., Laws.EncodesItsRow.srl .., Laws.EncodesItsRow.sra ..,
    Laws.EncodesItsRow.slt .., Laws.EncodesItsRow.sltu .., Laws.EncodesItsRow.addi .., Laws.EncodesItsRow.andi ..,
    Laws.EncodesItsRow.ori .., Laws.EncodesItsRow.xori .., Laws.EncodesItsRow.slli .., Laws.EncodesItsRow.srli ..,
    Laws.EncodesItsRow.srai .., Laws.EncodesItsRow.ld .., Laws.EncodesItsRow.lw .., Laws.EncodesItsRow.lh ..,
    Laws.EncodesItsRow.lb .., Laws.EncodesItsRow.lwu .., Laws.EncodesItsRow.lhu .., Laws.EncodesItsRow.lbu ..,
    Laws.EncodesItsRow.sd .., Laws.EncodesItsRow.sw .., Laws.EncodesItsRow.sh .., Laws.EncodesItsRow.sb ..,
    Laws.EncodesItsRow.beq .., Laws.EncodesItsRow.bne .., Laws.EncodesItsRow.blt .., Laws.EncodesItsRow.bge ..,
    Laws.EncodesItsRow.bgeu .., Laws.EncodesItsRow.bltu .., Laws.EncodesItsRow.jal .., Laws.EncodesItsRow.jalr ..,
    Laws.EncodesItsRow.lui ..]

/-- A word that decodes to an instruction is covered by a row: it is the instruction's own word. -/
theorem exists_covers_of_decodeInstr {w : InstWord} {i : Instr} (h : decodeInstr w = some i) :
    ∃ r ∈ opcodeTable, r.covers w = true := by
  obtain ⟨hw, -⟩ := isWordOf_of_decodeInstr h
  obtain ⟨r, hr, -, hcovers⟩ := encodesItsRow i
  exact ⟨r, hr, by rwa [← hw]⟩

/-- A word is `Unknown` exactly if no row covers it. -/
theorem decodeWord_unknown_iff (w : InstWord) :
    decodeWord w = .unknown (.word w) ↔ ∀ r ∈ opcodeTable, r.covers w = false := by
  constructor
  · intro hunknown r hr
    by_contra hcovers
    obtain ⟨i, hi, -⟩ := decodesItsRow_of_mem hr w (by simpa using hcovers)
    rw [hunknown] at hi
    cases hi
  · intro huncovered
    unfold decodeWord
    cases hi : decodeInstr w with
    | none => rfl
    | some i =>
      obtain ⟨r, hr, hcovers⟩ := exists_covers_of_decodeInstr hi
      rw [huncovered r hr] at hcovers
      cases hcovers

/-- Settles O5: each row decodes to its instruction, and what decodes is the word of an instruction, so in a row. -/
theorem decoderFollowsOpcodeTable : Obligations.DecoderFollowsOpcodeTable :=
  fun w => ⟨fun _ hr => decodesItsRow_of_mem hr w, decodeWord_unknown_iff w⟩

/-! ## Disjoint rows (R97) -/

/-- No mnemonic has two rows. -/
theorem nodup_mnemonics : (opcodeTable.map OpcodeRow.mnemonic).Nodup := by decide

/-- Settles O6: two rows that cover a word both have the mnemonic of the one instruction it decodes to. -/
theorem opcodeRowsAreDisjoint : Obligations.OpcodeRowsAreDisjoint := by
  refine ⟨rfl, fun w r q hr hq hrw hqw => ?_⟩
  obtain ⟨i, hi, hri⟩ := decodesItsRow_of_mem hr w hrw
  obtain ⟨j, hj, hqj⟩ := decodesItsRow_of_mem hq w hqw
  obtain rfl : i = j := Decoded.instr.inj (hi.symm.trans hj)
  exact List.inj_on_of_nodup_map nodup_mnemonics hr hq (hri.symm.trans hqj)

/-! ## Words written out -/

/-- Settles O1: the decoder run on the thirteen words. -/
theorem sampleWordsDecode : Obligations.SampleWordsDecode := by
  unfold Obligations.SampleWordsDecode
  decide

end Sys2Proof.Machine
end

section
/-! The textual form (30_encoding.md R102 to R108): the range of literals, the element decoded in its slot, and the lines
and register names of the spec's tables. -/

namespace Sys2Proof.Machine

/-! ## Literals (R105) -/

/-- A literal is accepted only if it fits a signed 64-bit integer: 2^63 in magnitude after a `-`, less than that without
one. -/
theorem parseLiteral_bounds {t : Text} {n : Int} (h : parseLiteral t = some n) : -(2 : Int) ^ 63 ≤ n ∧ n < (2 : Int) ^ 63 := by
  cases t with
  | nil => cases h
  | cons c cs =>
    simp only [parseLiteral] at h
    split at h
    case isTrue =>
      cases hmag : literalMagnitude cs with
      | none => simp [hmag] at h
      | some m =>
        simp only [hmag, Option.ite_none_right_eq_some, Option.some.injEq] at h
        omega
    case isFalse =>
      cases hmag : literalMagnitude (c :: cs) with
      | none => simp [hmag] at h
      | some m =>
        simp only [hmag, Option.ite_none_right_eq_some, Option.some.injEq] at h
        omega

/-- Settles O9: 64 bits hold every value in the range of a literal. -/
theorem literalsAreSigned64 : Obligations.LiteralsAreSigned64 := by
  intro t n h
  obtain ⟨hlow, hhigh⟩ := parseLiteral_bounds h
  exact ⟨hlow, hhigh, by rw [parseImmediate, h], BitVec.toInt_ofInt_eq_self (by decide) hlow hhigh⟩

/-! ## Lines and names written out -/

/-- Settles O7: the textual decoder run on the lines. -/
theorem sampleLinesDecode : Obligations.SampleLinesDecode := by
  unfold Obligations.SampleLinesDecode
  decide

/-- Settles O8: the register tokens of the table, looked up one by one. -/
theorem registerNamesAgree : Obligations.RegisterNamesAgree := by
  unfold Obligations.RegisterNamesAgree
  decide

end Sys2Proof.Machine
end

section
/-! The execution cycle (10_state.md R27; 48_debug_controller.md R235): the fetch cases in terms of the number in pc, what
a step does in each, and the element in its slot. -/

namespace Sys2Proof.Machine

/-! ## Fetch (10_state.md R27) -/

/-- The two low bits of pc are clear exactly if it is a multiple of 4. -/
theorem extractLsb'_two_eq_zero_iff (p : Word) : p.extractLsb' 0 2 = 0 ↔ p.toNat % 4 = 0 := by
  rw [← BitVec.toNat_inj, BitVec.extractLsb'_toNat]
  simp

theorem State.fetch_eq_outOfRange_iff (s : State) : s.fetch = .outOfRange ↔ s.pc.toInt < 0 := by
  unfold State.fetch
  split_ifs with hneg hmis
  · exact iff_of_true rfl hneg
  · exact iff_of_false nofun hneg
  · cases s.prog[s.pc.toNat / 4]? <;> exact iff_of_false nofun hneg

theorem State.fetch_eq_misaligned_iff (s : State) :
    s.fetch = .misaligned ↔ 0 ≤ s.pc.toInt ∧ s.pc.toNat % 4 ≠ 0 := by
  simp only [State.fetch, ne_eq, extractLsb'_two_eq_zero_iff]
  split_ifs with hneg hal
  · exact iff_of_false nofun fun h => absurd h.1 (Int.not_le.2 hneg)
  · cases s.prog[s.pc.toNat / 4]? <;> exact iff_of_false nofun fun h => h.2 hal
  · exact iff_of_true rfl ⟨Int.not_lt.1 hneg, hal⟩

theorem State.fetch_eq_endOfProgram_iff (s : State) :
    s.fetch = .endOfProgram ↔ 0 ≤ s.pc.toInt ∧ s.pc.toNat % 4 = 0 ∧ s.prog.length ≤ s.pc.toNat / 4 := by
  simp only [State.fetch, ne_eq, extractLsb'_two_eq_zero_iff]
  split_ifs with hneg hal
  · exact iff_of_false nofun fun h => absurd h.1 (Int.not_le.2 hneg)
  · rw [← List.getElem?_eq_none_iff]
    cases s.prog[s.pc.toNat / 4]? with
    | none => exact iff_of_true rfl ⟨Int.not_lt.1 hneg, hal, rfl⟩
    | some src => exact iff_of_false nofun nofun
  · exact iff_of_false nofun fun h => hal h.2.1

theorem State.fetch_eq_element_iff (s : State) (src : Source) :
    s.fetch = .element src ↔ 0 ≤ s.pc.toInt ∧ s.pc.toNat % 4 = 0 ∧ s.prog[s.pc.toNat / 4]? = some src := by
  rw [State.fetch_element_iff, extractLsb'_two_eq_zero_iff]

/-! ## A step in each fetch case -/

theorem step_of_outOfRange {s : State} (h : s.fetch = .outOfRange) : step s = .fault (.pcOutOfRange s.pc) := by
  unfold step executionCycle
  rw [h]

theorem step_of_misaligned {s : State} (h : s.fetch = .misaligned) : step s = .fault (.pcMisaligned s.pc) := by
  unfold step executionCycle
  rw [h]

theorem step_of_endOfProgram {s : State} (h : s.fetch = .endOfProgram) : step s = .next s := by
  unfold step executionCycle
  rw [h]

/-- A step over an element that decodes to an instruction is that instruction. -/
theorem step_of_instr {s : State} {src : Source} {i : Instr} (hf : s.fetch = .element src)
    (hd : decodeSource s.labels s.pc src = .instr i) : step s = exec i s := by
  rw [step_of_element hf, execSource, hd, execDecoded]

/-- Under the strict policy a step over an unknown element is a fault (46_lui_and_unknown.md R222). -/
theorem step_of_unknown_strict {s : State} {src raw : Source} (hf : s.fetch = .element src)
    (hd : decodeSource s.labels s.pc src = .unknown raw) (hp : s.cfg.unknownPolicy = .strict) :
    step s = .fault (.unknownOpcode raw) := by
  rw [step_of_element hf, execSource, hd]
  simp [execDecoded, execUnknown, hp]

/-- Settles O33: the four premises are the four fetch cases, and each says what the step is. -/
theorem fetchCases : Obligations.FetchCases := by
  intro s
  refine ⟨fun hneg => step_of_outOfRange (s.fetch_eq_outOfRange_iff.2 hneg),
    fun hpos hmis => step_of_misaligned (s.fetch_eq_misaligned_iff.2 ⟨hpos, hmis⟩),
    fun hpos hal hend => step_of_endOfProgram (s.fetch_eq_endOfProgram_iff.2 ⟨hpos, hal, hend⟩),
    fun src hpos hal hsrc => ?_⟩
  rw [step_of_element ((s.fetch_eq_element_iff src).2 ⟨hpos, hal, hsrc⟩), execSource]

/-- Settles O34: an aligned, non-negative pc fetches the element of its slot. -/
theorem stepRunsDecodedInstruction : Obligations.StepRunsDecodedInstruction :=
  fun s src _ hpos hal hsrc hd => step_of_instr ((s.fetch_eq_element_iff src).2 ⟨hpos, hal, hsrc⟩) hd

/-- Settles O31: the policy decides between the fault and the step to the next element. -/
theorem unknownOpcodePolicies : Obligations.UnknownOpcodePolicies :=
  fun s _ _ hf hd => ⟨step_of_unknown_strict hf hd,
    fun hp => ⟨s.advance, step_of_unknown_permissive hf hd hp, setsOnlyPc_setPc s s.nextPc⟩⟩

/-! ## The decoded program store (10_state.md R30) -/

/-- Slot j of the decoded store, which begins at slot k, holds the element of slot j decoded at pc `4 * (k + j)`. -/
theorem decodedFrom_getElem? (labels : LabelTable) (prog : List Source) (k j : Nat) :
    (decodedFrom labels k prog)[j]? = prog[j]?.map (decodeSource labels (BitVec.ofNat 64 (4 * (k + j)))) := by
  induction prog generalizing k j with
  | nil => simp [decodedFrom]
  | cons src rest ih =>
    cases j with
    | zero => simp [decodedFrom]
    | succ j => simp [decodedFrom, ih, Nat.add_right_comm, Nat.add_assoc]

/-- Settles O11: an aligned pc is 4 times the number of its slot, so both decode the element at the same pc. -/
theorem decodingAtExecutionAgreesWithStore : Obligations.DecodingAtExecutionAgreesWithStore := by
  intro s src hf
  obtain ⟨-, hal, hsrc⟩ := (s.fetch_eq_element_iff src).1 hf
  have hpc : BitVec.ofNat 64 (4 * (0 + s.pc.toNat / 4)) = s.pc := by
    rw [Nat.zero_add, Nat.mul_div_cancel' (Nat.dvd_of_mod_eq_zero hal), BitVec.ofNat_toNat, BitVec.setWidth_eq]
  refine ⟨?_, rfl⟩
  rw [decodedFrom_getElem?, hsrc, hpc, Option.map_some]

/-! ## Placing a word (log entry 5) -/

/-- pc stays if it addresses a slot and is the entry point 0 otherwise. -/
theorem State.placeSource_pc (s : State) (src : Source) :
    (s.placeSource src).pc = if 0 ≤ s.pc.toInt ∧ s.pc.toNat % 4 = 0 then s.pc else 0 := by
  have hslot : (s.pc.toInt < 0 ∨ s.pc.extractLsb' 0 2 ≠ 0) ↔ ¬(0 ≤ s.pc.toInt ∧ s.pc.toNat % 4 = 0) := by
    rw [ne_eq, extractLsb'_two_eq_zero_iff]
    omega
  simp only [State.placeSource, hslot, ite_not]

/-- The element placed is the one the next step fetches. -/
theorem State.fetch_placeSource (s : State) (src : Source) : (s.placeSource src).fetch = .element src := by
  have hslot : 0 ≤ (s.placeSource src).pc.toInt ∧ (s.placeSource src).pc.toNat % 4 = 0 := by
    rw [State.placeSource_pc]
    split_ifs with h
    · exact h
    · decide
  exact (State.fetch_eq_element_iff _ _).2 ⟨hslot.1, hslot.2, placeAt_get _ _ _⟩

/-- A whole word is placed and decoded as it is. -/
theorem ofNat_toNat_mod (w : InstWord) : BitVec.ofNat 32 (w.toNat % 2 ^ 32) = w := by
  rw [Nat.mod_eq_of_lt w.isLt, BitVec.ofNat_toNat, BitVec.setWidth_eq]

/-- Settles O35: the step fetches the word placed, which decodes to the instruction, and the placing writes the program
store and pc alone. -/
theorem placedWordRunsNext : Obligations.PlacedWordRunsNext := by
  intro s w i hi
  rw [decodeTableWord, ofNat_toNat_mod] at hi
  simp only [State.withFetchWord, ofNat_toNat_mod]
  exact ⟨step_of_instr (State.fetch_placeSource s _) (decodeWord_eq_instr_iff.2 hi), rfl, rfl, rfl, rfl, rfl, rfl,
    s.placeSource_pc _⟩

end Sys2Proof.Machine
end

section
/-! What an instruction leaves unchanged (10_state.md R22 to R25): every register but its destination, memory unless it is
a store, and a hard-wired register 0. -/

namespace Sys2Proof.Machine

/-! ## Frames -/

/-- An instruction changes no register but its destination: each way it completes writes that one or none. -/
theorem exec_readReg_of_ne_destination {i : Instr} {s t : State} (h : exec i s = .next t) {r : Reg}
    (hr : destination i ≠ some r) : t.readReg r = s.readReg r := by
  rcases exec_next_cases h with ⟨rd, v, hd, -, -, -, rfl⟩ | ⟨a, n, v, -, -, rfl⟩ | ⟨-, ⟨-, p, rfl⟩ | ⟨-, rfl⟩⟩ |
    ⟨-, ⟨rd, v, p, hd, rfl⟩ | ⟨p, -, rfl⟩⟩
  · rw [State.readReg_advance, State.readReg_writeReg_other s rd r v fun e => hr (e ▸ hd)]
  · exact State.readReg_of_regs rfl rfl r
  · exact State.readReg_setPc s p r
  · exact State.readReg_advance s r
  · rw [State.readReg_setPc, State.readReg_writeReg_other s rd r v fun e => hr (e ▸ hd)]
  · exact State.readReg_setPc s p r

/-- An instruction that is no store changes no byte. -/
theorem exec_sameMemory {i : Instr} {s t : State} (h : exec i s = .next t) (hi : familyOf i ≠ .store) :
    SameMemory s t := by
  intro a
  rcases exec_next_cases h with ⟨rd, v, -, -, -, -, rfl⟩ | ⟨_, n, v, hstore, -, -⟩ | ⟨-, ⟨-, p, rfl⟩ | ⟨-, rfl⟩⟩ |
    ⟨-, ⟨rd, v, p, -, rfl⟩ | ⟨p, -, rfl⟩⟩
  · simp
  · exact absurd hstore hi
  all_goals simp

/-- Settles O38: the three frames of an instruction that completes. -/
theorem onlyDestinationsChange : Obligations.OnlyDestinationsChange :=
  fun _ _ _ h => ⟨fun _ => exec_readReg_of_ne_destination h, exec_sameMemory h, exec_sameControl h⟩

/-! ## Register 0 (R22 to R24) -/

theorem State.hardwired_iff (s : State) (r : Reg) : s.hardwired r = true ↔ s.cfg.x0Hardwired = true ∧ r = 0 := by
  simp [State.hardwired]

/-- A hard-wired register 0 reads 0. -/
theorem State.readReg_zero_of_hardwired {s : State} (h : s.cfg.x0Hardwired = true) : s.readReg 0 = 0 :=
  if_pos ((s.hardwired_iff 0).2 ⟨h, rfl⟩)

/-- A register that is not a hard-wired register 0 is read from the register file. -/
theorem State.readReg_of_not_hardwired {s : State} {r : Reg} (h : ¬(s.cfg.x0Hardwired = true ∧ r = 0)) :
    s.readReg r = s.regs[r] :=
  if_neg (mt (s.hardwired_iff r).1 h)

/-- A register that is not a hard-wired register 0 reads what was written to it. -/
theorem State.readReg_writeReg_of_not_hardwired {s : State} {r : Reg} (h : ¬(s.cfg.x0Hardwired = true ∧ r = 0))
    (v : Word) : (s.writeReg r v).readReg r = v := by
  rw [State.readReg_writeReg_same, if_neg h]

/-- Settles O39: hard-wired, register 0 reads 0 and a write is dropped; otherwise it is read and written as any other. -/
theorem registerZeroParameter : Obligations.RegisterZeroParameter := by
  refine fun s v => ⟨fun h => ⟨State.readReg_zero_of_hardwired h, s.writeReg_hardwired 0 v ((s.hardwired_iff 0).2 ⟨h, rfl⟩)⟩,
    fun h => ?_, fun r hr => ?_⟩
  · have hordinary : ¬(s.cfg.x0Hardwired = true ∧ (0 : Reg) = 0) := by simp [h]
    exact ⟨State.readReg_writeReg_of_not_hardwired hordinary v, State.readReg_of_not_hardwired hordinary⟩
  · have hordinary : ¬(s.cfg.x0Hardwired = true ∧ r = 0) := fun h => hr h.2
    exact ⟨State.readReg_writeReg_of_not_hardwired hordinary v, State.readReg_of_not_hardwired hordinary⟩

/-- An instruction whose destination is a hard-wired register 0 writes no register. -/
theorem exec_sameRegisters_of_hardwired {i : Instr} {s t : State} (hs : s.cfg.x0Hardwired = true)
    (h : exec i s = .next t) (hd : destination i = some 0) : SameRegisters s t := by
  obtain ⟨hcfg, -⟩ := exec_sameControl h
  intro r
  by_cases hr : r = 0
  · rw [hr, State.readReg_zero_of_hardwired hs, State.readReg_zero_of_hardwired (hcfg ▸ hs)]
  · exact exec_readReg_of_ne_destination h fun e => hr (Option.some.inj (e.symm.trans hd))

/-- A store has no destination register. -/
theorem destination_of_store {i : Instr} (h : familyOf i = .store) : destination i = none := by
  cases i
  case sd | sw | sh | sb => rfl
  all_goals cases h

/-- An instruction completes if its access, where it has one, is in memory (60_exceptions.md R261). -/
theorem exec_completes_of_inMemory {s : State} {i : Instr}
    (h : ∀ (ea : Word) (n : Nat), accessOf s i = some (ea, n) → InMemory s ea n) : ∃ t, exec i s = .next t := by
  cases he : exec i s with
  | next t => exact ⟨t, rfl⟩
  | fault f =>
    obtain ⟨ea, n, haccess, hout, -⟩ := (exec_fault_iff s i f).1 he
    exact absurd (h ea n haccess) hout
  | refused r => exact absurd he (exec_not_refused i s r)

/-- Settles O40: a hard-wired register 0 reads 0 in every state, and an instruction that has it as destination writes no
other register, as its frame says. -/
theorem hardwiredRegisterZero : Obligations.HardwiredRegisterZero := by
  refine fun s i hs => ⟨fun t h => ⟨?_, exec_sameRegisters_of_hardwired hs h⟩, fun hd haccess => ?_,
    fun ea n haccess hout => (exec_fault_iff s i _).2 ⟨ea, n, haccess, hout, rfl⟩⟩
  · obtain ⟨hcfg, -⟩ := exec_sameControl h
    exact State.readReg_zero_of_hardwired (hcfg ▸ hs)
  · obtain ⟨t, ht⟩ := exec_completes_of_inMemory haccess
    have hstore : familyOf i ≠ .store := fun h => nomatch hd.symm.trans (destination_of_store h)
    exact ⟨t, ht, exec_sameRegisters_of_hardwired hs ht hd, exec_sameMemory ht hstore, exec_sameControl ht⟩

end Sys2Proof.Machine
end

section
/-! Stores followed by loads (43_stores.md R185; 20_memory.md R68): the bytes stored are the bytes read, at the same width
and inside a wider store. -/

namespace Sys2Proof.Machine

/-- Bytes `j` to `j + m - 1` of the n bytes stored at `a` are those of the value (20_memory.md R52, R53). -/
theorem ofNat_readLE_writeLE {mem : Memory} (hwf : Memory.wf mem = true) (a : Nat) (v : Word) {n j m : Nat}
    (hj : j + m ≤ n) : BitVec.ofNat (8 * m) (Memory.readLE (Memory.writeLE mem a v n) (a + j) m) =
      v.extractLsb' (8 * j) (8 * m) := by
  have hbytes : ∀ k, k < m → Memory.read (Memory.writeLE mem a v n) (a + j + k) = byteOf v (j + k) := by
    intro k hk
    rw [Memory.read_writeLE _ _ _ _ _ hwf, if_pos (by omega), show a + j + k - a = j + k by omega]
  apply BitVec.eq_of_toNat_eq
  rw [Memory.readLE_of_bytes _ _ m j v hbytes, BitVec.toNat_ofNat, Nat.mod_mod, BitVec.extractLsb'_toNat,
    Nat.shiftRight_eq_div_pow]

/-- A load of m bytes inside the n bytes that a store has just written completes with those bytes of the value, extended. -/
theorem loadOp_of_storeOp {s t : State} {n m j : Nat} {rs2 rs1 rd : Reg} {off off' : Word}
    (extend : BitVec (8 * m) → Word) (hwf : Memory.wf s.mem = true) (hrd : ¬(s.cfg.x0Hardwired = true ∧ rd = 0))
    (hstore : storeOp n rs2 rs1 off s = .next t) (hin : InMemory s (s.readReg rs1 + off') m)
    (haddr : (s.readReg rs1 + off').toNat = (s.readReg rs1 + off).toNat + j) (hj : j + m ≤ n) :
    Completes (loadOp m extend rd rs1 off' t)
      (fun u => u.readReg rd = extend ((s.readReg rs2).extractLsb' (8 * j) (8 * m))) := by
  obtain ⟨-, ht⟩ := storeOp_next_inv hstore
  have hcfg : t.cfg = s.cfg := by rw [ht]; rfl
  have hbase : t.readReg rs1 = s.readReg rs1 := by rw [ht]; rfl
  have hmem : t.mem = Memory.writeLE s.mem (s.readReg rs1 + off).toNat (s.readReg rs2) n := by rw [ht]; rfl
  have hbounds : t.inBounds (t.readReg rs1 + off') m = true := by
    rw [hbase, State.inBounds_of_cfg hcfg]
    exact (State.inBounds_iff_inMemory _ _ _).2 hin
  obtain ⟨u, hu, ⟨hset, -⟩, -⟩ := loadOp_spec m extend rd rs1 off' t hbounds
  rw [hcfg, hbase, hmem, haddr, ofNat_readLE_writeLE hwf _ _ hj] at hset
  exact ⟨u, hu, hset hrd⟩

/-- A load of the same width and address as the store before it. -/
theorem loadOp_same_of_storeOp {s t : State} {n : Nat} {rs2 rs1 rd : Reg} {off : Word} (extend : BitVec (8 * n) → Word)
    (hwf : Memory.wf s.mem = true) (hrd : ¬(s.cfg.x0Hardwired = true ∧ rd = 0))
    (hstore : storeOp n rs2 rs1 off s = .next t) :
    Completes (loadOp n extend rd rs1 off t)
      (fun u => u.readReg rd = extend ((s.readReg rs2).extractLsb' 0 (8 * n))) :=
  loadOp_of_storeOp extend hwf hrd hstore ((State.inBounds_iff_inMemory _ _ _).1 (storeOp_next_inv hstore).1)
    (Nat.add_zero _).symm (Nat.zero_add n).le

/-- A store whose access is in memory completes. -/
theorem storeOp_completes {s : State} {n : Nat} (rs2 : Reg) {rs1 : Reg} {off : Word}
    (hin : InMemory s (s.readReg rs1 + off) n) : ∃ t, storeOp n rs2 rs1 off s = .next t :=
  ⟨_, storeOp_next n rs2 rs1 off s ((State.inBounds_iff_inMemory _ _ _).2 hin)⟩

/-- All 64 bits, zero-extended, are the value. -/
theorem zeroExtended_extractLsb'_all (v : Word) : zeroExtended (v.extractLsb' 0 (8 * 8)) = v := by
  rw [zeroExtended, BitVec.extractLsb'_eq_self, BitVec.setWidth_eq]

/-- Settles O23: each width is the shared store followed by the shared load. -/
theorem storeThenLoadRoundTrip : Obligations.StoreThenLoadRoundTrip := by
  refine fun s rs2 rs1 rd off hwf hrd => ⟨fun hin => ?_, fun hin => ?_, fun hin => ?_, fun hin => ?_⟩ <;>
    obtain ⟨t, ht⟩ := storeOp_completes rs2 hin
  · have hload := loadOp_same_of_storeOp zeroExtended hwf hrd ht
    rw [zeroExtended_extractLsb'_all] at hload
    exact ⟨t, ht, hload⟩
  all_goals
    exact ⟨t, ht, loadOp_same_of_storeOp signExtended hwf hrd ht, loadOp_same_of_storeOp zeroExtended hwf hrd ht⟩

/-- An address inside a doubleword in memory is the doubleword's and the distance, without a carry out of 64 bits. -/
theorem toNat_add_of_inMemory {s : State} {base off : Word} {k : Nat} (hin : InMemory s (base + off) 8) (hk : k < 8) :
    (base + (off + BitVec.ofNat 64 k)).toNat = (base + off).toNat + k := by
  obtain ⟨hlt, -⟩ := (State.inBounds_iff _ _ _).1 ((State.inBounds_iff_inMemory _ _ _).2 hin)
  rw [← BitVec.add_assoc, BitVec.toNat_add, BitVec.toNat_ofNat]
  omega

/-- Settles O24: each narrower load reads bytes k, k + 1, … of the doubleword stored. -/
theorem narrowLoadsSeeStoredBytes : Obligations.NarrowLoadsSeeStoredBytes := by
  intro s rs2 rs1 rd off k hwf hrd hin
  obtain ⟨t, ht⟩ := storeOp_completes rs2 hin
  refine ⟨t, ht, fun hk hin' => ?_, fun hk hin' => ?_, fun hk hin' => ?_⟩
  all_goals
    have haddr := toNat_add_of_inMemory hin (show k < 8 by omega)
    exact ⟨loadOp_of_storeOp zeroExtended hwf hrd ht hin' haddr hk,
      loadOp_of_storeOp signExtended hwf hrd ht hin' haddr hk⟩

end Sys2Proof.Machine
end

section
/-! The `step` command (48_debug_controller.md R236, R241, R242): its reply in each fetch case, the fault it takes
(60_exceptions.md R266), and that a second one finds the same fault. -/

namespace Sys2Proof.Machine

/-! ## The reply -/

/-- With an element fetched the command is the step, with that element's event. -/
theorem stepCommand_of_element {s : State} {src : Source} (hf : s.fetch = .element src) :
    stepCommand s = s.cycleReply [⟨s.pc, src⟩] (step s) := by
  rw [stepCommand, hf, step_of_element hf]

/-- At the end of the program there is nothing to step. -/
theorem stepCommand_of_endOfProgram {s : State} (hf : s.fetch = .endOfProgram) :
    stepCommand s = ⟨s, .nothingToStep, []⟩ := by
  rw [stepCommand, hf]

/-- Settles O52: the reply is that of the step, and its trace the event of the element fetched. -/
theorem stepCommandCases : Obligations.StepCommandCases := by
  refine fun s => ⟨stepCommand_of_endOfProgram, fun src t hf h => ?_, fun src f hf _ => (stepCommand_trace s).1 src hf,
    fun hf => (stepCommand_trace s).2 fun src he => ?_⟩
  · rw [stepCommand_of_element hf, h]
    rfl
  · rw [he] at hf
    exact hf.elim nofun nofun

/-! ## Faults (60_exceptions.md R266) -/

/-- The element of a report is that of the slot pc addresses, if it addresses one (R260). -/
theorem State.faultReport_instr (s : State) (f : Fault) : (s.faultReport f).instr =
    if 0 ≤ s.pc.toInt ∧ s.pc.toNat % 4 = 0 then s.prog[s.pc.toNat / 4]? else none := by
  unfold State.faultReport
  cases hf : s.fetch with
  | outOfRange => exact (if_neg fun h => Int.not_lt.2 h.1 (s.fetch_eq_outOfRange_iff.1 hf)).symm
  | misaligned => exact (if_neg fun h => (s.fetch_eq_misaligned_iff.1 hf).2 h.2).symm
  | endOfProgram =>
    obtain ⟨hpos, hal, hend⟩ := s.fetch_eq_endOfProgram_iff.1 hf
    rw [if_pos ⟨hpos, hal⟩, List.getElem?_eq_none hend]
  | element src =>
    obtain ⟨hpos, hal, hsrc⟩ := (s.fetch_eq_element_iff src).1 hf
    rw [if_pos ⟨hpos, hal⟩, hsrc]

/-- With an element fetched the report has it. -/
theorem State.faultReport_instr_of_element {s : State} {src : Source} (hf : s.fetch = .element src) (f : Fault) :
    (s.faultReport f).instr = some src := by
  rw [State.faultReport, hf]

/-- A fetch fault has no element. -/
theorem State.faultReport_instr_of_no_element {s : State} (hf : ∀ src, s.fetch ≠ .element src) (f : Fault) :
    (s.faultReport f).instr = none := by
  unfold State.faultReport
  cases hs : s.fetch with
  | element src => exact absurd hs (hf src)
  | _ => rfl

/-- Settles O42: the report is that of the faulting state, and taking the fault sets only the latch. -/
theorem faultEntry : Obligations.FaultEntry := by
  intro s f h
  obtain ⟨hstate, hresponse⟩ := stepCommand_of_step_fault h
  exact ⟨s.faultReport f, hresponse, rfl, rfl, s.faultReport_instr f, by rw [hstate, State.takeFault_eq]⟩

/-- After a fault is taken the step faults again: no step reads the latch. -/
theorem step_takeFault {s : State} {f : Fault} (h : step s = .fault f) : step (s.takeFault f) = .fault f := by
  have hlatch : s.takeFault f = withControl s.breakpoints (some (s.flt.getD (s.faultReport f))) s := s.takeFault_eq f
  rw [hlatch, step_withControl, h]
  rfl

/-- A full latch is kept, so a fault taken again changes nothing. -/
theorem State.takeFault_takeFault (s : State) (f : Fault) : (s.takeFault f).takeFault f = s.takeFault f := by
  simp [State.takeFault_eq]

/-- The events of a `step` command depend on pc and the program store alone. -/
theorem stepCommand_trace_of_eq {s t : State} (hpc : t.pc = s.pc) (hprog : t.prog = s.prog) :
    (stepCommand t).trace = (stepCommand s).trace := by
  have hfetch := State.fetch_of_eq hpc hprog
  by_cases h : ∃ src, s.fetch = .element src
  · obtain ⟨src, hsrc⟩ := h
    rw [(stepCommand_trace s).1 src hsrc, (stepCommand_trace t).1 src (hfetch.trans hsrc), hpc]
  · have hnone : ∀ src, s.fetch ≠ .element src := fun src hsrc => h ⟨src, hsrc⟩
    rw [(stepCommand_trace s).2 hnone, (stepCommand_trace t).2 (hfetch ▸ hnone)]

/-- Two replies are equal if their three parts are. -/
theorem Reply.eq_of_parts {r q : Reply} (hstate : r.state = q.state) (hresponse : r.response = q.response)
    (htrace : r.trace = q.trace) : r = q := by
  cases r
  cases q
  cases hstate
  cases hresponse
  cases htrace
  rfl

/-- Settles O43: the state after the fault has the same pc and program, faults the same, and its latch is full. -/
theorem faultRepeats : Obligations.FaultRepeats := by
  intro s f h
  obtain ⟨hstate, hresponse⟩ := stepCommand_of_step_fault h
  obtain ⟨hstate', hresponse'⟩ := stepCommand_of_step_fault (step_takeFault h)
  rw [hstate]
  refine ⟨step_takeFault h, Reply.eq_of_parts ?_ ?_ ?_⟩
  · rw [hstate', hstate, State.takeFault_takeFault]
  · rw [hresponse', hresponse, State.faultReport_of_eq (s.takeFault_pc f) (s.takeFault_prog f)]
  · exact stepCommand_trace_of_eq (s.takeFault_pc f) (s.takeFault_prog f)

/-! ## The breakpoint set (R250, decision D21) -/

/-- The reply of a fault does not depend on the breakpoint set, and keeps it. -/
theorem State.faultReply_with_breakpoints (s : State) (bs : List Nat) (f : Fault) (trace : List ExecEvent) :
    State.faultReply { s with breakpoints := bs } f trace =
      ⟨{ (s.faultReply f trace).state with breakpoints := bs }, (s.faultReply f trace).response, trace⟩ := by
  simp only [State.faultReply, State.takeFault_eq]
  rfl

/-- A step does not depend on the breakpoint set, and keeps it. -/
theorem step_with_breakpoints (s : State) (bs : List Nat) :
    step { s with breakpoints := bs } = mapNext (fun t => { t with breakpoints := bs }) (step s) := by
  refine (step_withControl bs s.flt s).trans ?_
  cases h : step s with
  | next t =>
    obtain ⟨-, -, -, -, hflt⟩ := step_sameControl h
    simp only [mapNext, withControl, ← hflt]
  | fault f => rfl
  | refused r => rfl

/-- Settles O53: neither the fetch nor the step depends on the breakpoint set, and both replies keep it. -/
theorem stepIgnoresBreakpoints : Obligations.StepIgnoresBreakpoints := by
  intro s bs
  have hfetch : State.fetch { s with breakpoints := bs } = s.fetch := State.fetch_of_eq rfl rfl
  cases hf : s.fetch with
  | outOfRange =>
    rw [stepCommand, stepCommand, hfetch, hf]
    exact s.faultReply_with_breakpoints bs _ _
  | misaligned =>
    rw [stepCommand, stepCommand, hfetch, hf]
    exact s.faultReply_with_breakpoints bs _ _
  | endOfProgram => rw [stepCommand_of_endOfProgram hf, stepCommand_of_endOfProgram (hfetch.trans hf)]
  | element src =>
    rw [stepCommand_of_element hf, stepCommand_of_element (hfetch.trans hf), step_with_breakpoints]
    cases step s with
    | next t => rfl
    | fault f => exact s.faultReply_with_breakpoints bs f _
    | refused r => rfl

end Sys2Proof.Machine
end

section
/-! The other commands of the debug controller: when a load fails (48_debug_controller.md R234), the data image
(20_memory.md R61), `break`, `regs` and `mem` (R243 to R247), and the power-on state (70_reset_and_hazards.md R291). -/

namespace Sys2Proof.Machine

/-! ## Failing loads (R234) -/

/-- A checked load fails with the error its checks find, and then changes nothing. -/
theorem State.tryLoad_of_error {s : State} {prog : List Source} {labels : LabelTable} {image : List Byte} {e : LoadError}
    (h : loadError s.cfg labels image = some e) : s.tryLoad prog labels image = ⟨s, .loadFailed e, []⟩ := by
  rw [State.tryLoad, h]

/-- It succeeds if its checks find none. -/
theorem State.tryLoad_of_no_error {s : State} {prog : List Source} {labels : LabelTable} {image : List Byte}
    (h : loadError s.cfg labels image = none) :
    s.tryLoad prog labels image = ⟨s.loaded prog labels image, .loaded, []⟩ := by
  rw [State.tryLoad, h]

/-- A checked load succeeds, or fails and changes nothing. -/
theorem State.tryLoad_cases (s : State) (prog : List Source) (labels : LabelTable) (image : List Byte) :
    (s.tryLoad prog labels image).response = .loaded ∨ ∃ e, s.tryLoad prog labels image = ⟨s, .loadFailed e, []⟩ := by
  cases h : loadError s.cfg labels image with
  | none => exact .inl (by rw [State.tryLoad_of_no_error h])
  | some e => exact .inr ⟨e, State.tryLoad_of_error h⟩

/-- So does the command `load`. -/
theorem loadCommand_cases (request : LoadRequest) (s : State) :
    (loadCommand request s).response = .loaded ∨ ∃ e, loadCommand request s = ⟨s, .loadFailed e, []⟩ := by
  cases request with
  | words program image => exact s.tryLoad_cases _ _ _
  | lines program labels image => exact s.tryLoad_cases _ _ _
  | unreadable => exact .inr ⟨.unreadable, rfl⟩

/-- With unique label names the one check left is that the image fits. -/
theorem loadError_of_nodup {labels : LabelTable} (h : (labels.map (fun l => l.1)).Nodup) (c : Config)
    (image : List Byte) : loadError c labels image =
      if c.memSize < c.dataBase + image.length then some .dataImageTooLarge else none := by
  have hnone : firstDuplicate [] (labels.map (fun l => l.1)) = none :=
    (firstDuplicate_eq_none_iff _ []).2 ⟨h, fun _ _ => List.not_mem_nil⟩
  rw [loadError, hnone]

/-- Otherwise the error is the first name that repeats an earlier one (log entry 11). -/
theorem loadError_of_not_nodup {labels : LabelTable} (h : ¬(labels.map (fun l => l.1)).Nodup) (c : Config)
    (image : List Byte) : ∃ (k : Nat) (name : Text), (labels.map (fun l => l.1))[k]? = some name ∧
      ((labels.map (fun l => l.1)).take k).Nodup ∧ name ∈ (labels.map (fun l => l.1)).take k ∧
      loadError c labels image = some (.duplicateLabel name) := by
  cases hdup : firstDuplicate [] (labels.map (fun l => l.1)) with
  | none => exact absurd ((firstDuplicate_eq_none_iff _ []).1 hdup).1 h
  | some name =>
    obtain ⟨k, hname, hbefore, -, hrepeats⟩ := firstDuplicate_some _ name [] hdup
    exact ⟨k, name, hname, hbefore, hrepeats.resolve_left List.not_mem_nil, by rw [loadError, hdup]⟩

/-- Settles O45: a load is all or nothing, and its checks are the label names, then the size of the image. -/
theorem failedLoadChangesNothing : Obligations.FailedLoadChangesNothing := by
  refine ⟨fun s request hfail => ?_, fun _ => rfl, ?_, fun s program image => ?_⟩
  · obtain ⟨e, he⟩ := (loadCommand_cases request s).resolve_left hfail
    rw [he]
    exact ⟨rfl, e, rfl⟩
  · rintro s program labels image _ rfl
    refine ⟨fun hnodup hfits => ?_, fun hnodup hlarge => ?_, fun hdup => ?_⟩
    · have hno := loadError_of_nodup hnodup s.cfg image
      rw [if_neg (Nat.not_lt.2 hfits)] at hno
      rw [loadCommand, State.tryLoad_of_no_error hno]
    · have herror := loadError_of_nodup hnodup s.cfg image
      rw [if_pos hlarge] at herror
      rw [loadCommand, State.tryLoad_of_error herror]
    · obtain ⟨k, name, hname, hbefore, hrepeats, herror⟩ := loadError_of_not_nodup hdup s.cfg image
      exact ⟨k, name, hname, hbefore, hrepeats, by rw [loadCommand, State.tryLoad_of_error herror]⟩
  · have hchecks := loadError_of_nodup (labels := []) List.nodup_nil s.cfg image
    by_cases hfits : s.cfg.dataBase + image.length ≤ s.cfg.memSize
    · rw [if_neg (Nat.not_lt.2 hfits)] at hchecks
      rw [loadCommand, State.tryLoad_of_no_error hchecks, if_pos hfits]
    · rw [if_pos (Nat.not_le.1 hfits)] at hchecks
      rw [loadCommand, State.tryLoad_of_error hchecks, if_neg hfits]

/-! ## The data image (20_memory.md R61) -/

@[simp] theorem length_bytesLE (v : Word) (n : Nat) : (bytesLE v n).length = n := by
  induction n with
  | zero => rfl
  | succ n ih => simp [bytesLE, ih]

/-- Element j of the n bytes of a value is its byte j. -/
theorem bytesLE_getElem? (v : Word) {n j : Nat} (hj : j < n) : (bytesLE v n)[j]? = some (byteOf v j) := by
  induction n with
  | zero => omega
  | succ n ih =>
    rw [bytesLE]
    by_cases hlast : j = n
    · simp [hlast]
    · rw [List.getElem?_append_left (by rw [length_bytesLE]; omega)]
      exact ih (by omega)

/-- Blocks of n elements one after the other: their length. -/
theorem length_flatMap_of_blocks {α β : Type} {f : α → List β} {n : Nat} (hf : ∀ x, (f x).length = n) (xs : List α) :
    (xs.flatMap f).length = n * xs.length := by
  simp [List.length_flatMap, hf, Nat.mul_comm]

/-- Blocks of n elements one after the other: element j of block k. -/
theorem getElem?_flatMap_of_blocks {α β : Type} {f : α → List β} {n : Nat} (hf : ∀ x, (f x).length = n) (xs : List α)
    (k : Nat) {j : Nat} (hj : j < n) : (xs.flatMap f)[n * k + j]? = xs[k]?.bind (fun x => (f x)[j]?) := by
  induction xs generalizing k with
  | nil => simp
  | cons x xs ih =>
    rw [List.flatMap_cons]
    cases k with
    | zero => simp [List.getElem?_append_left (hf x ▸ hj)]
    | succ k =>
      have hindex : n * (k + 1) + j = (f x).length + (n * k + j) := by rw [hf, Nat.mul_succ]; omega
      rw [hindex, List.getElem?_append_right (Nat.le_add_right _ _), Nat.add_sub_cancel_left, ih,
        List.getElem?_cons_succ]

/-- Byte j of a value of w bits is the slice from bit 8j. -/
theorem byteOf_setWidth {w : Nat} (v : BitVec w) {j : Nat} (hj : 8 * j + 8 ≤ w) (hw : w ≤ 64) :
    byteOf (v.setWidth 64) j = v.extractLsb' (8 * j) 8 := by
  apply BitVec.eq_of_getLsbD_eq
  intro i hi
  simp only [byteOf, BitVec.getLsbD_extractLsb', BitVec.getLsbD_setWidth, show 8 * j + i < 64 by omega, decide_true,
    Bool.true_and]

/-- The image of literals of n bytes: its length, and byte j of literal k. -/
theorem flatMap_bytesLE {w n : Nat} (hw : w = 8 * n) (hn : n ≤ 8) (vs : List (BitVec w)) (k : Nat) {j : Nat} (hj : j < n) :
    (vs.flatMap (fun v => bytesLE (v.setWidth 64) n)).length = n * vs.length ∧
      (vs.flatMap (fun v => bytesLE (v.setWidth 64) n))[n * k + j]? = vs[k]?.map (fun v => v.extractLsb' (8 * j) 8) := by
  have hblock : ∀ v : BitVec w, (bytesLE (v.setWidth 64) n).length = n := fun v => length_bytesLE _ _
  refine ⟨length_flatMap_of_blocks hblock vs, ?_⟩
  rw [getElem?_flatMap_of_blocks hblock vs k hj, Option.map_eq_bind]
  congr 1
  funext v
  rw [bytesLE_getElem? _ hj, byteOf_setWidth v (by omega) (by omega), Function.comp_apply]

/-- The image of one directive is its bytes. -/
theorem dataImage_singleton (d : Directive) : dataImage [d] = d.bytes := List.flatMap_singleton ..

/-- A byte directive's literals are the image. -/
theorem bytes_byte (vs : List (BitVec 8)) : (Directive.byte vs).bytes = vs := by
  have hbyte : ∀ v : BitVec 8, bytesLE (v.setWidth 64) 1 = [v] := by
    intro v
    rw [bytesLE, bytesLE, byteOf_setWidth v (by decide) (by decide)]
    exact congrArg (fun b => [b]) BitVec.extractLsb'_eq_self
  simp [Directive.bytes, hbyte]

/-- Settles O47: the images of directives follow one another, and each is blocks of the literals' bytes. -/
theorem dataImageLayout : Obligations.DataImageLayout := by
  refine ⟨fun ds es => List.flatMap_append, fun vs => (dataImage_singleton _).trans (bytes_byte vs),
    fun vs k j hj => ?_, fun vs k j hj => ?_, fun vs k j hj => ?_⟩ <;> rw [dataImage_singleton]
  · exact flatMap_bytesLE rfl (by decide) vs k hj
  · exact flatMap_bytesLE rfl (by decide) vs k hj
  · have hwhole : (fun v : BitVec 64 => bytesLE v 8) = fun v => bytesLE (v.setWidth 64) 8 := by
      funext v
      rw [BitVec.setWidth_eq]
    rw [Directive.bytes, hwhole]
    exact flatMap_bytesLE rfl (by decide) vs k hj

/-! ## `break` (R243) -/

theorem setBreakCommand_of_mem {s : State} {line : Int} (hline : 1 ≤ line ∧ line ≤ s.progLen)
    (hset : breakpointOfLine line ∈ s.breakpoints) : setBreakCommand line s = ⟨s, .breakAlreadySet, []⟩ := by
  rw [setBreakCommand, if_pos hline, if_pos hset]

theorem setBreakCommand_of_not_mem {s : State} {line : Int} (hline : 1 ≤ line ∧ line ≤ s.progLen)
    (hunset : breakpointOfLine line ∉ s.breakpoints) : setBreakCommand line s =
      ⟨{ s with breakpoints := insertBreakpoint (breakpointOfLine line) s.breakpoints }, .breakSet, []⟩ := by
  rw [setBreakCommand, if_pos hline, if_neg hunset]

theorem setBreakCommand_of_invalid {s : State} {line : Int} (hline : ¬(1 ≤ line ∧ line ≤ s.progLen)) :
    setBreakCommand line s = ⟨s, .invalidLine, []⟩ := by
  rw [setBreakCommand, if_neg hline]

/-- Settles O48: the three replies of `break`, and the members of the set after an insertion. -/
theorem setBreakCommand_spec : Obligations.SetBreakCommand := by
  refine fun s line => ⟨fun hlow hhigh hset => setBreakCommand_of_mem ⟨hlow, hhigh⟩ hset,
    fun hlow hhigh hunset => ⟨_, setBreakCommand_of_not_mem ⟨hlow, hhigh⟩ hunset, fun b => mem_insertBreakpoint _ b _⟩,
    fun hout => setBreakCommand_of_invalid fun hline => ?_⟩
  obtain ⟨hlow, hhigh⟩ := hline
  rw [State.progLen] at hhigh
  omega

/-! ## `regs` and `mem` (R245, R246) -/

/-- Pair r of `regs` is register r with its name (log entry 12). -/
theorem State.registerPairs_getElem? (s : State) (r : Reg) :
    s.registerPairs[r.val]? = some (aliasNames.getD r.val [], s.readReg r) := by
  rw [State.registerPairs, List.getElem?_map, List.getElem?_eq_getElem (by simp), List.getElem_finRange]
  rfl

theorem memCommand_of_inMemory {addr count : Int} {s : State}
    (h : 0 ≤ addr ∧ 0 ≤ count ∧ addr + count ≤ s.cfg.memSize) :
    memCommand addr count s = ⟨s, .bytes (s.bytesFrom addr.toNat count.toNat), []⟩ :=
  if_pos h

theorem memCommand_of_outside {addr count : Int} {s : State}
    (h : ¬(0 ≤ addr ∧ 0 ≤ count ∧ addr + count ≤ s.cfg.memSize)) : memCommand addr count s = ⟨s, .outOfBounds, []⟩ :=
  if_neg h

/-- Byte k of the bytes read is that at the address and k. -/
theorem State.bytesFrom_getElem? (s : State) (addr : Nat) {count k : Nat} (hk : k < count) :
    (s.bytesFrom addr count)[k]? = some (s.readByte (addr + k)) := by
  simp [State.bytesFrom, hk]

/-- Settles O50: the pairs are in index order, and `mem` reads the bytes exactly if all exist. -/
theorem inspectionCommands : Obligations.InspectionCommands := by
  refine fun s => ⟨⟨s.registerPairs, rfl, by simp [State.registerPairs], s.registerPairs_getElem?⟩,
    fun addr count hin => ⟨s.bytesFrom addr count, memCommand_of_inMemory (by omega), by simp [State.bytesFrom],
      fun k hk => s.bytesFrom_getElem? addr hk⟩, fun addr count hout => memCommand_of_outside (by omega)⟩

/-! ## Commands that execute nothing (R247) -/

/-- A state whose breakpoint set alone was replaced keeps registers, memory and pc. -/
theorem setsOnlyPc_with_breakpoints {s t : State} (h : ∃ bs, t = { s with breakpoints := bs }) :
    SetsOnlyPc { s with breakpoints := t.breakpoints } t s.pc := by
  obtain ⟨bs, rfl⟩ := h
  exact ⟨rfl, fun _ => rfl, fun _ => rfl, rfl, rfl, rfl, rfl, rfl⟩

/-- They emit no event. -/
theorem setBreakCommand_trace (line : Int) (s : State) : (setBreakCommand line s).trace = [] := by
  unfold setBreakCommand
  split
  · split <;> rfl
  · rfl

theorem delBreakCommand_trace (line : Int) (s : State) : (delBreakCommand line s).trace = [] := by
  unfold delBreakCommand
  split <;> rfl

theorem memCommand_trace (addr count : Int) (s : State) : (memCommand addr count s).trace = [] := by
  unfold memCommand
  split <;> rfl

/-- Settles O51: each replies at once, and changes at most the breakpoint set. -/
theorem inspectionAndBreakpointsAreReadOnly : Obligations.InspectionAndBreakpointsAreReadOnly := by
  intro fuel s c hc
  rcases hc with rfl | ⟨addr, count, rfl⟩ | ⟨line, rfl⟩ | ⟨line, rfl⟩
  · exact ⟨_, rfl, setsOnlyPc_with_breakpoints ⟨s.breakpoints, rfl⟩, rfl⟩
  · exact ⟨_, rfl, setsOnlyPc_with_breakpoints ⟨s.breakpoints, memCommand_state addr count s⟩,
      memCommand_trace addr count s⟩
  · exact ⟨_, rfl, setsOnlyPc_with_breakpoints (setBreakCommand_state line s), setBreakCommand_trace line s⟩
  · exact ⟨_, rfl, setsOnlyPc_with_breakpoints (delBreakCommand_state line s), delBreakCommand_trace line s⟩

end Sys2Proof.Machine
end

section
/-! The command `run` (48_debug_controller.md R237 to R240): where its loop stops, the relation and the function with fuel,
and what a run that ends was. -/

namespace Sys2Proof.Machine

/-! ## Where the loop stops (R237) -/

/-- The loop stops at a breakpoint, whatever is there. -/
theorem State.runCheck_of_breakpoint {s : State} (hb : s.pc.toNat ∈ s.breakpoints) :
    s.runCheck = .inl ⟨s, .stoppedAtBreakpoint s.pc, []⟩ := by
  simp [State.runCheck, State.atBreakpoint, hb]

theorem State.runCheck_of_outOfRange {s : State} (hb : s.pc.toNat ∉ s.breakpoints) (hf : s.fetch = .outOfRange) :
    s.runCheck = .inl (s.faultReply (.pcOutOfRange s.pc) []) := by
  simp [State.runCheck, State.atBreakpoint, hb, hf]

theorem State.runCheck_of_misaligned {s : State} (hb : s.pc.toNat ∉ s.breakpoints) (hf : s.fetch = .misaligned) :
    s.runCheck = .inl (s.faultReply (.pcMisaligned s.pc) []) := by
  simp [State.runCheck, State.atBreakpoint, hb, hf]

theorem State.runCheck_of_endOfProgram {s : State} (hb : s.pc.toNat ∉ s.breakpoints) (hf : s.fetch = .endOfProgram) :
    s.runCheck = .inl ⟨s, .endOfProgram, []⟩ := by
  simp [State.runCheck, State.atBreakpoint, hb, hf]

/-- Settles O54: the loop looks for a breakpoint before it fetches, at every fuel. -/
theorem runAtBreakpointStops : Obligations.RunAtBreakpointStops :=
  fun s fuel hb => runCommand_stop fuel s _ (State.runCheck_of_breakpoint hb)

/-- Settles O46: power-on is the empty program's load, so every fetch is at the end of the program. -/
theorem powerOnState : Obligations.PowerOnState := by
  have hfetch : State.reset.fetch = .endOfProgram := by decide
  refine ⟨by decide, fun fuel => runCommand_stop fuel _ _ (State.runCheck_of_endOfProgram (by decide) hfetch),
    stepCommand_of_endOfProgram hfetch, fun line => setBreakCommand_of_invalid fun hline => ?_, by decide, fun _ => rfl⟩
  obtain ⟨hlow, hhigh⟩ := hline
  rw [show State.reset.progLen = 0 from rfl] at hhigh
  omega

/-! ## The relation gives what the function gives -/

/-- A run that stops before an instruction is one of the first four rules of the relation. -/
theorem runs_of_runCheck_inl {s : State} {reply : Reply} (h : s.runCheck = .inl reply) : Runs s reply := by
  by_cases hb : s.pc.toNat ∈ s.breakpoints
  · obtain rfl := Sum.inl.inj ((State.runCheck_of_breakpoint hb).symm.trans h)
    exact .breakpoint s hb
  · cases hf : s.fetch with
    | outOfRange =>
      obtain rfl := Sum.inl.inj ((State.runCheck_of_outOfRange hb hf).symm.trans h)
      exact .outOfRange s hb hf
    | misaligned =>
      obtain rfl := Sum.inl.inj ((State.runCheck_of_misaligned hb hf).symm.trans h)
      exact .misaligned s hb hf
    | endOfProgram =>
      obtain rfl := Sum.inl.inj ((State.runCheck_of_endOfProgram hb hf).symm.trans h)
      exact .endOfProgram s hb hf
    | element src => cases ((s.runCheck_inr_iff src).2 ⟨hb, hf⟩).symm.trans h

/-- A result with events before it is a reply exactly if it was one without them. -/
theorem CommandResult.after_eq_replied {trace : List ExecEvent} {result : CommandResult} {reply : Reply}
    (h : result.after trace = .replied reply) : ∃ rest : Reply, result = .replied rest ∧
      reply = ⟨rest.state, rest.response, trace ++ rest.trace⟩ := by
  cases result with
  | replied rest => exact ⟨rest, rfl, (CommandResult.replied.inj h).symm⟩
  | outOfFuel t events => cases h

/-- No element is refused where it is fetched. -/
theorem execSource_ne_refused {s : State} {src : Source} (hf : s.fetch = .element src) (r : Refusal) :
    execSource src s ≠ .refused r := by
  rw [← step_of_element hf]
  exact step_not_refused s r

/-- What a run with fuel for one more instruction replies, where one is executed: the fault, or the reply of the run from
the next state with the event before it. -/
theorem runCommand_succ_replied {n : Nat} {s : State} {src : Source} {reply : Reply} (hc : s.runCheck = .inr src)
    (h : runCommand (n + 1) s = .replied reply) :
    (∃ f, execSource src s = .fault f ∧ reply = s.faultReply f [⟨s.pc, src⟩]) ∨
    ∃ (t : State) (rest : Reply), execSource src s = .next t ∧ runCommand n t = .replied rest ∧
      reply = ⟨rest.state, rest.response, ⟨s.pc, src⟩ :: rest.trace⟩ := by
  rw [runCommand_succ _ _ _ hc] at h
  cases he : execSource src s with
  | next t =>
    rw [he] at h
    obtain ⟨rest, hrest, hreply⟩ := CommandResult.after_eq_replied h
    exact .inr ⟨t, rest, rfl, hrest, hreply⟩
  | fault f =>
    rw [he] at h
    exact .inl ⟨f, rfl, (CommandResult.replied.inj h).symm⟩
  | refused r => exact absurd he (execSource_ne_refused ((s.runCheck_inr_iff src).1 hc).2 r)

/-- A reply at some fuel is a run of the relation: by induction on the fuel. -/
theorem runs_of_runCommand {fuel : Nat} {s : State} {reply : Reply} (h : runCommand fuel s = .replied reply) :
    Runs s reply := by
  induction fuel generalizing s reply with
  | zero =>
    cases hc : s.runCheck with
    | inl r =>
      obtain rfl := CommandResult.replied.inj ((runCommand_stop _ _ _ hc).symm.trans h)
      exact runs_of_runCheck_inl hc
    | inr src => cases (runCommand_zero _ _ hc).symm.trans h
  | succ n ih =>
    cases hc : s.runCheck with
    | inl r =>
      obtain rfl := CommandResult.replied.inj ((runCommand_stop _ _ _ hc).symm.trans h)
      exact runs_of_runCheck_inl hc
    | inr src =>
      obtain ⟨hb, hf⟩ := (s.runCheck_inr_iff src).1 hc
      rcases runCommand_succ_replied hc h with ⟨f, he, rfl⟩ | ⟨t, rest, he, hrest, rfl⟩
      · exact .faults s src f hb hf he
      · exact .executes s t src rest hb hf he (ih hrest)

/-- A run of the relation is a reply at some fuel, one for each instruction executed: by induction on the run. -/
theorem runCommand_of_runs {s : State} {reply : Reply} (h : Runs s reply) :
    ∃ fuel, runCommand fuel s = .replied reply := by
  induction h with
  | breakpoint s hb => exact ⟨0, runCommand_stop _ _ _ (State.runCheck_of_breakpoint hb)⟩
  | outOfRange s hb hf => exact ⟨0, runCommand_stop _ _ _ (State.runCheck_of_outOfRange hb hf)⟩
  | misaligned s hb hf => exact ⟨0, runCommand_stop _ _ _ (State.runCheck_of_misaligned hb hf)⟩
  | endOfProgram s hb hf => exact ⟨0, runCommand_stop _ _ _ (State.runCheck_of_endOfProgram hb hf)⟩
  | faults s src f hb hf he =>
    refine ⟨1, ?_⟩
    rw [runCommand_succ _ _ _ ((s.runCheck_inr_iff src).2 ⟨hb, hf⟩), he]
    rfl
  | executes s t src rest hb hf he _ ih =>
    obtain ⟨fuel, hrest⟩ := ih
    refine ⟨fuel + 1, ?_⟩
    rw [runCommand_succ _ _ _ ((s.runCheck_inr_iff src).2 ⟨hb, hf⟩), he]
    simp only [hrest]
    rfl

/-- More fuel gives the same reply: by induction on the fuel that sufficed. -/
theorem runCommand_mono {fuel more : Nat} {s : State} {reply : Reply} (h : runCommand fuel s = .replied reply)
    (hle : fuel ≤ more) : runCommand more s = .replied reply := by
  induction fuel generalizing more s reply with
  | zero =>
    cases hc : s.runCheck with
    | inl r => rw [runCommand_stop _ _ _ hc, ← h, runCommand_stop _ _ _ hc]
    | inr src => cases (runCommand_zero _ _ hc).symm.trans h
  | succ n ih =>
    obtain ⟨more, rfl⟩ : ∃ k, more = k + 1 := ⟨more - 1, by omega⟩
    cases hc : s.runCheck with
    | inl r => rw [runCommand_stop _ _ _ hc, ← h, runCommand_stop _ _ _ hc]
    | inr src =>
      rcases runCommand_succ_replied hc h with ⟨f, he, rfl⟩ | ⟨t, rest, he, hrest, rfl⟩
      · rw [runCommand_succ _ _ _ hc, he]
      · rw [runCommand_succ _ _ _ hc, he]
        simp only [ih hrest (Nat.le_of_succ_le_succ hle)]
        rfl

/-- Settles O57: the two give the same replies, and two fuels that suffice agree at the larger one. -/
theorem runFunctionAgreesWithRelation : Obligations.RunFunctionAgreesWithRelation := by
  refine ⟨fun s reply => ⟨runCommand_of_runs, fun ⟨_, h⟩ => runs_of_runCommand h⟩, fun s fuel more reply h hle =>
    runCommand_mono h hle, fun s r q hr hq => ?_⟩
  obtain ⟨n, hn⟩ := runCommand_of_runs hr
  obtain ⟨m, hm⟩ := runCommand_of_runs hq
  exact CommandResult.replied.inj
    ((runCommand_mono hn (Nat.le_max_left n m)).symm.trans (runCommand_mono hm (Nat.le_max_right n m)))

/-! ## A run as steps -/

/-- Induction on a run by what its steps do: it stops at a breakpoint or at the end of the program, its step faults, with
the events of the `step` command, or its step completes and it goes on. -/
theorem Runs.induction_steps {motive : State → Reply → Prop}
    (hbreak : ∀ s : State, s.pc.toNat ∈ s.breakpoints → motive s ⟨s, .stoppedAtBreakpoint s.pc, []⟩)
    (hend : ∀ s : State, s.fetch = .endOfProgram → motive s ⟨s, .endOfProgram, []⟩)
    (hfault : ∀ (s : State) (f : Fault), s.pc.toNat ∉ s.breakpoints → step s = .fault f →
      motive s ⟨s.takeFault f, .faulted (s.faultReport f), (stepCommand s).trace⟩)
    (hnext : ∀ (s t : State) (src : Source) (reply : Reply), s.pc.toNat ∉ s.breakpoints → s.fetch = .element src →
      step s = .next t → motive t reply → motive s ⟨reply.state, reply.response, ⟨s.pc, src⟩ :: reply.trace⟩)
    {s : State} {reply : Reply} (h : Runs s reply) : motive s reply := by
  induction h with
  | breakpoint s hb => exact hbreak s hb
  | outOfRange s hb hf =>
    have htrace : (stepCommand s).trace = [] := (stepCommand_trace s).2 fun _ h => nomatch hf.symm.trans h
    exact htrace ▸ hfault s _ hb (step_of_outOfRange hf)
  | misaligned s hb hf =>
    have htrace : (stepCommand s).trace = [] := (stepCommand_trace s).2 fun _ h => nomatch hf.symm.trans h
    exact htrace ▸ hfault s _ hb (step_of_misaligned hf)
  | endOfProgram s _ hf => exact hend s hf
  | faults s src f hb hf he =>
    exact (stepCommand_trace s).1 src hf ▸ hfault s f hb ((step_of_element hf).trans he)
  | executes s t src reply hb hf he _ ih => exact hnext s t src reply hb hf ((step_of_element hf).trans he) ih

/-! ## The three ends (R238) -/

/-- A reply is one of the three ends of a run that began with this latch. -/
def EndsInThreeWays (latch : Option FaultReport) (reply : Reply) : Prop :=
  (reply.response = .endOfProgram ∧ 0 ≤ reply.state.pc.toInt ∧ reply.state.pc.toNat % 4 = 0 ∧
    reply.state.prog.length ≤ reply.state.pc.toNat / 4 ∧ reply.state.flt = latch) ∨
  (reply.response = .stoppedAtBreakpoint reply.state.pc ∧ reply.state.pc.toNat ∈ reply.state.breakpoints ∧
    reply.state.flt = latch) ∨
  (∃ rep : FaultReport, reply.response = .faulted rep ∧ rep.pc = reply.state.pc ∧
    reply.state.flt = some (latch.getD rep) ∧ step reply.state = .fault rep.cause)

/-- A completed step keeps the latch, so the end of the run from its next state is that of the run from its own. -/
theorem endsInThreeWays_of_runs {s : State} {reply : Reply} (h : Runs s reply) : EndsInThreeWays s.flt reply := by
  refine Runs.induction_steps (motive := fun s reply => EndsInThreeWays s.flt reply) (fun s hb => ?_) (fun s hf => ?_)
    (fun s f _ hs => ?_) (fun s t src reply _ _ hs ih => ?_) h
  · exact .inr (.inl ⟨rfl, hb, rfl⟩)
  · obtain ⟨hpos, hal, hout⟩ := s.fetch_eq_endOfProgram_iff.1 hf
    exact .inl ⟨rfl, hpos, hal, hout, rfl⟩
  · exact .inr (.inr ⟨s.faultReport f, rfl, (s.takeFault_pc f).symm, s.takeFault_flt f, step_takeFault hs⟩)
  · obtain ⟨-, -, -, -, hflt⟩ := step_sameControl hs
    exact hflt ▸ ih

/-- Settles O55: by induction on the run, with what a completed step keeps and what a fault leaves. -/
theorem runEndsInThreeWays : Obligations.RunEndsInThreeWays :=
  fun _ _ _ h => endsInThreeWays_of_runs (runs_of_runCommand h)

/-! ## The steps of a run (R235, R241) -/

/-- n steps lead from a state to another, none of them from a breakpoint, and the first n events are theirs. -/
def StepsTo (n : Nat) (s last : State) (events : List ExecEvent) : Prop :=
  Sys2Proof.core.run n s = .next last ∧
    ∀ k : Nat, k < n → ∃ (u : State) (src : Source), Sys2Proof.core.run k s = .next u ∧
      u.fetch = .element src ∧ u.pc.toNat ∉ u.breakpoints ∧ events[k]? = some ⟨u.pc, src⟩

theorem stepsTo_zero (s : State) (events : List ExecEvent) : StepsTo 0 s s events := ⟨rfl, nofun⟩

/-- A completed step before n steps makes n + 1, with its event first. -/
theorem StepsTo.cons {n : Nat} {s t last : State} {src : Source} {events : List ExecEvent}
    (hb : s.pc.toNat ∉ s.breakpoints) (hf : s.fetch = .element src) (hs : step s = .next t)
    (h : StepsTo n t last events) : StepsTo (n + 1) s last (⟨s.pc, src⟩ :: events) := by
  obtain ⟨hrun, hevents⟩ := h
  refine ⟨(core_run_succ n hs).trans hrun, fun k hk => ?_⟩
  cases k with
  | zero => exact ⟨s, src, rfl, hf, hb, rfl⟩
  | succ k =>
    obtain ⟨u, src', hu, hfu, hbu, hevent⟩ := hevents k (Nat.lt_of_succ_lt_succ hk)
    exact ⟨u, src', (core_run_succ k hs).trans hu, hfu, hbu, hevent⟩

/-- The reply of a run whose n completed steps led to `last`: that state and n events, or the fault raised there. -/
structure RunEndsAt (last : State) (n : Nat) (reply : Reply) : Prop where
  events : n ≤ reply.trace.length
  registers : SameRegisters last reply.state
  memory : SameMemory last reply.state
  pc : reply.state.pc = last.pc
  completed : (∀ rep : FaultReport, reply.response ≠ .faulted rep) → reply.state = last ∧ reply.trace.length = n
  faulted : ∀ rep : FaultReport, reply.response = .faulted rep →
    last.pc.toNat ∉ last.breakpoints ∧ step last = .fault rep.cause ∧
    reply.state = (stepCommand last).state ∧ reply.response = (stepCommand last).response ∧
    (∀ src : Source, last.fetch = .element src →
      reply.trace.length = n + 1 ∧ reply.trace[n]? = some ⟨last.pc, src⟩) ∧
    ((∀ src : Source, last.fetch ≠ .element src) → reply.trace.length = n)

/-- A run that stops at once without a fault. -/
theorem runEndsAt_of_stop (s : State) {response : Response} (hresponse : ∀ rep, response ≠ .faulted rep) :
    RunEndsAt s 0 ⟨s, response, []⟩ where
  events := Nat.zero_le _
  registers := fun _ => rfl
  memory := fun _ => rfl
  pc := rfl
  completed := fun _ => ⟨rfl, rfl⟩
  faulted := fun rep h => absurd h (hresponse rep)

/-- A run whose first step faults replies as the `step` command does. -/
theorem runEndsAt_of_fault {s : State} {f : Fault} (hb : s.pc.toNat ∉ s.breakpoints) (hs : step s = .fault f) :
    RunEndsAt s 0 ⟨s.takeFault f, .faulted (s.faultReport f), (stepCommand s).trace⟩ where
  events := Nat.zero_le _
  registers := fun r => State.readReg_takeFault s f r
  memory := fun a => State.readByte_takeFault s f a
  pc := s.takeFault_pc f
  completed := fun h => absurd rfl (h _)
  faulted := by
    obtain ⟨hstate, hresponse⟩ := stepCommand_of_step_fault hs
    obtain ⟨helement, hnone⟩ := stepCommand_trace s
    rintro rep ⟨⟩
    refine ⟨hb, hs, hstate.symm, hresponse.symm, fun src hsrc => ?_, fun h => ?_⟩
    · simp [helement src hsrc]
    · simp [hnone h]

/-- A completed step before the run moves the events up by its own. -/
theorem RunEndsAt.cons {last : State} {n : Nat} {reply : Reply} (h : RunEndsAt last n reply) (event : ExecEvent) :
    RunEndsAt last (n + 1) ⟨reply.state, reply.response, event :: reply.trace⟩ where
  events := Nat.succ_le_succ h.events
  registers := h.registers
  memory := h.memory
  pc := h.pc
  completed := fun hno => (h.completed hno).imp_right (congrArg Nat.succ)
  faulted := by
    intro rep hrep
    obtain ⟨hb, hstep, hstate, hresponse, helement, hnone⟩ := h.faulted rep hrep
    exact ⟨hb, hstep, hstate, hresponse, fun src hsrc => (helement src hsrc).imp_left (congrArg Nat.succ),
      fun hno => congrArg Nat.succ (hnone hno)⟩

/-- A run is some number of steps and what the last of them leads to. -/
theorem stepsTo_of_runs {s : State} {reply : Reply} (h : Runs s reply) :
    ∃ (n : Nat) (last : State), StepsTo n s last reply.trace ∧ RunEndsAt last n reply := by
  refine Runs.induction_steps (motive := fun s reply => ∃ n last, StepsTo n s last reply.trace ∧ RunEndsAt last n reply)
    (fun s _ => ?_) (fun s _ => ?_) (fun s f hb hs => ?_) (fun s t src reply hb hf hs ih => ?_) h
  · exact ⟨0, s, stepsTo_zero s _, runEndsAt_of_stop s nofun⟩
  · exact ⟨0, s, stepsTo_zero s _, runEndsAt_of_stop s nofun⟩
  · exact ⟨0, s, stepsTo_zero s _, runEndsAt_of_fault hb hs⟩
  · obtain ⟨n, last, hsteps, hends⟩ := ih
    exact ⟨n + 1, last, hsteps.cons hb hf hs, hends.cons _⟩

/-- Settles O56: by induction on the run, one step and one event at a time. -/
theorem runIsIteratedStep : Obligations.RunIsIteratedStep := by
  intro s fuel reply h
  obtain ⟨n, last, ⟨hrun, hevents⟩, hends⟩ := stepsTo_of_runs (runs_of_runCommand h)
  exact ⟨n, last, hrun, hends.events, hevents, hends.registers, hends.memory, hends.pc, hends.completed, hends.faulted⟩

end Sys2Proof.Machine
end

section
/-! The invariant of the state: it holds at power-on, every step keeps it, and every command keeps it. -/

namespace Sys2Proof.Machine

/-- Settles O58: at power-on nothing is loaded, listed or latched. -/
theorem resetMeetsInvariant : Obligations.ResetMeetsInvariant where
  config := by decide
  canonical := rfl
  bounded := rfl
  breakpoints := ⟨List.Pairwise.nil, nofun⟩
  labels := List.nodup_nil
  latch := nofun

/-! ## Steps -/

/-- A step that completes keeps memory canonical and within its bound. -/
theorem step_memory {s t : State} (h : step s = .next t) (hcanonical : Memory.wf s.mem = true)
    (hbounded : Memory.within s.mem s.cfg.memSize = true) :
    Memory.wf t.mem = true ∧ Memory.within t.mem s.cfg.memSize = true := by
  rcases step_next_cases h with ⟨-, rfl⟩ | ⟨src, i, -, -, hexec⟩ | ⟨src, raw, -, -, -, rfl⟩
  · exact ⟨hcanonical, hbounded⟩
  · exact exec_memory hexec hcanonical hbounded
  · exact ⟨hcanonical, hbounded⟩

/-- Settles O59: a step that completes keeps the memory's form and leaves the rest of what the invariant speaks of. -/
theorem stepKeepsInvariant : Obligations.StepKeepsInvariant := by
  intro s t hs h
  obtain ⟨hcfg, hprog, hlabels, hbreakpoints, hflt⟩ := step_sameControl h
  obtain ⟨hcanonical, hbounded⟩ := step_memory h hs.canonical hs.bounded
  exact
    { config := by rw [hcfg]; exact hs.config
      canonical := hcanonical
      bounded := by rw [hcfg]; exact hbounded
      breakpoints := by rw [hprog, hbreakpoints]; exact hs.breakpoints
      labels := by rw [hlabels]; exact hs.labels
      latch := by rw [hprog, hflt]; exact hs.latch }

/-! ## Faults (60_exceptions.md R260) -/

/-- The report of a step that faults describes that cycle, cause by cause. -/
theorem faultReport_describes {s : State} {f : Fault} (h : step s = .fault f) : (s.faultReport f).describes s.prog := by
  have helement : ∀ src, s.fetch = .element src →
      (s.faultReport f).instr = some src ∧ s.prog[s.pc.toNat / 4]? = some src := by
    intro src hf
    obtain ⟨-, -, hsrc⟩ := (s.fetch_eq_element_iff src).1 hf
    exact ⟨State.faultReport_instr_of_element hf f, hsrc⟩
  rcases step_fault_cases h with ⟨hf, rfl⟩ | ⟨hf, rfl⟩ | ⟨src, hf, hcause⟩
  · have hneg := s.fetch_eq_outOfRange_iff.1 hf
    exact ⟨rfl, hneg, State.faultReport_instr_of_no_element (fun _ h => nomatch hf.symm.trans h) _⟩
  · obtain ⟨-, hmis⟩ := s.fetch_eq_misaligned_iff.1 hf
    exact ⟨rfl, mt (extractLsb'_two_eq_zero_iff s.pc).1 hmis,
      State.faultReport_instr_of_no_element (fun _ h => nomatch hf.symm.trans h) _⟩
  · rcases hcause with ⟨i, -, hexec⟩ | ⟨raw, hd, -, rfl⟩ | ⟨cause, raw, hd, rfl⟩
    · obtain ⟨-, a, n, rfl, -⟩ := exec_fault_cases hexec
      exact ⟨src, helement src hf⟩
    · obtain rfl := (decodeSource_raw s.labels s.pc src).1 raw hd
      exact helement raw hf
    · obtain rfl := (decodeSource_raw s.labels s.pc src).2 cause raw hd
      cases cause <;> exact helement _ hf

/-- A step that faults keeps the invariant: the latch takes the report if it was empty. -/
theorem inv_takeFault {s : State} {f : Fault} (hs : State.Inv s) (h : step s = .fault f) :
    State.Inv (s.takeFault f) := by
  rw [State.takeFault_eq]
  refine { hs with latch := fun r hr => ?_ }
  cases hflt : s.flt with
  | none =>
    obtain rfl : s.faultReport f = r := by simpa [hflt] using hr
    exact faultReport_describes h
  | some first =>
    obtain rfl : first = r := by simpa [hflt] using hr
    exact hs.latch first hflt

/-! ## Loads (48_debug_controller.md R233, R234) -/

/-- A load whose checks find no error has unique label names and an image that fits. -/
theorem nodup_and_fits_of_loadError {c : Config} {labels : LabelTable} {image : List Byte}
    (h : loadError c labels image = none) :
    (labels.map (fun l => l.1)).Nodup ∧ c.dataBase + image.length ≤ c.memSize := by
  by_cases hnodup : (labels.map (fun l => l.1)).Nodup
  · rw [loadError_of_nodup hnodup] at h
    refine ⟨hnodup, Nat.not_lt.1 fun hlarge => ?_⟩
    rw [if_pos hlarge] at h
    cases h
  · obtain ⟨k, name, -, -, -, herror⟩ := loadError_of_not_nodup hnodup c image
    cases herror.symm.trans h

/-- The state a successful load leaves meets the invariant. -/
theorem inv_loaded {s : State} (hs : State.Inv s) (prog : List Source) {labels : LabelTable} {image : List Byte}
    (hnodup : (labels.map (fun l => l.1)).Nodup) (hfits : s.cfg.dataBase + image.length ≤ s.cfg.memSize) :
    State.Inv (s.loaded prog labels image) where
  config := hs.config
  canonical := Memory.wf_writeImage [] _ image rfl
  bounded := Memory.within_writeImage [] _ _ image rfl hfits
  breakpoints := ⟨List.Pairwise.nil, nofun⟩
  labels := hnodup
  latch := nofun

/-- A checked load keeps the invariant, whether it succeeds or not. -/
theorem inv_tryLoad {s : State} (hs : State.Inv s) (prog : List Source) (labels : LabelTable) (image : List Byte) :
    State.Inv (s.tryLoad prog labels image).state := by
  cases h : loadError s.cfg labels image with
  | none =>
    obtain ⟨hnodup, hfits⟩ := nodup_and_fits_of_loadError h
    rw [State.tryLoad_of_no_error h]
    exact inv_loaded hs prog hnodup hfits
  | some e =>
    rw [State.tryLoad_of_error h]
    exact hs

theorem inv_loadCommand {s : State} (hs : State.Inv s) (request : LoadRequest) :
    State.Inv (loadCommand request s).state := by
  cases request with
  | words program image => exact inv_tryLoad hs _ _ _
  | lines program labels image => exact inv_tryLoad hs _ _ _
  | unreadable => exact hs

/-! ## Breakpoints (R243, R244) -/

/-- The breakpoint of a line of the program is on one of its slots. -/
theorem breakpointOfLine_slot {line : Int} {progLen : Nat} (hline : 1 ≤ line ∧ line ≤ progLen) :
    breakpointOfLine line % 4 = 0 ∧ breakpointOfLine line < 4 * progLen := by
  unfold breakpointOfLine
  omega

/-- `break` keeps the set rising and on slots. -/
theorem inv_setBreakCommand {s : State} (hs : State.Inv s) (line : Int) :
    State.Inv (setBreakCommand line s).state := by
  by_cases hline : 1 ≤ line ∧ line ≤ s.progLen
  · by_cases hset : breakpointOfLine line ∈ s.breakpoints
    · rw [setBreakCommand_of_mem hline hset]
      exact hs
    · rw [setBreakCommand_of_not_mem hline hset]
      obtain ⟨hrising, hslots⟩ := hs.breakpoints
      refine { hs with breakpoints := ⟨pairwise_insertBreakpoint _ _ hrising, fun b hb => ?_⟩ }
      rcases (mem_insertBreakpoint _ b _).1 hb with rfl | hb
      · exact breakpointOfLine_slot hline
      · exact hslots b hb
  · rw [setBreakCommand_of_invalid hline]
    exact hs

/-- `del break` keeps it so: what is left of the set is a part of it. -/
theorem inv_delBreakCommand {s : State} (hs : State.Inv s) (line : Int) :
    State.Inv (delBreakCommand line s).state := by
  unfold delBreakCommand
  split
  · obtain ⟨hrising, hslots⟩ := hs.breakpoints
    exact { hs with breakpoints := ⟨hrising.filter _, fun b hb => hslots b (List.mem_filter.1 hb).1⟩ }
  · exact hs

/-! ## Commands -/

/-- Settles O60: `run` and `step` keep what steps and faults keep, a load resets to a state of the invariant, and the
breakpoint commands keep the set in form. -/
theorem commandsKeepInvariant : Obligations.CommandsKeepInvariant := by
  intro fuel c s hs
  have hfault : ∀ (t : State) (f : Fault), State.Inv t → step t = .fault f → State.Inv (t.takeFault f) :=
    fun _ _ => inv_takeFault
  cases c with
  | load request => exact inv_loadCommand hs request
  | run => exact runCommand_keeps hfault stepKeepsInvariant fuel hs
  | step => exact stepCommand_keeps hfault stepKeepsInvariant hs
  | regs => exact hs
  | mem addr count =>
    change State.Inv (memCommand addr count s).state
    rw [memCommand_state]
    exact hs
  | setBreak line => exact inv_setBreakCommand hs line
  | delBreak line => exact inv_delBreakCommand hs line

end Sys2Proof.Machine
end
